-- ==== Sys2Proof/Word.lean ====
section
/-! DEFINITION. The word types of the block (rule R5): 32-bit words on the command port and in the word array,
8-bit channels and brightness. -/

namespace Sys2Proof

/-- A 32-bit word: a command word, an operand word or a stored transmission word (R5, R50). -/
abbrev Word := BitVec 32

/-- An 8-bit value: a channel, a brightness, a status code (R5, R56). -/
abbrev Byte := BitVec 8

end Sys2Proof
end

