-- ==== Sys2Proof/Config.lean ====
section
/-! DEFINITION. What an instance of the block fixes and what the spec leaves open: the shapes of the configuration
registers and of the transmitter's registers, the model parameters of R4, and the free values (opaque, no body: no proof
can see what they are). -/

namespace Sys2Proof

/-- A channel letter of a mode string (R9, R13). -/
inductive Chan where
  | r | g | b | w
  deriving DecidableEq, Repr, Inhabited

/-- The lane shift table SH[R], SH[G], SH[B], SH[W]: four fields of 5 bits (R14). -/
structure ShiftTable where
  r : BitVec 5
  g : BitVec 5
  b : BitVec 5
  w : BitVec 5
  deriving DecidableEq, Repr, Inhabited

/-- The timing profile in force (R16): 0 is WS2812, 1 is SK6812. -/
inductive Profile where
  | ws2812 | sk6812
  deriving DecidableEq, Repr, Inhabited

/-- The registers that a successful CONFIG writes once (R12, R13, R14, R16). -/
structure ConfigRegs where
  /-- N, the number of pixels (R12). -/
  n : Nat
  /-- MODE, the mode string (R13). -/
  mode : List Chan
  /-- NCH, the length of MODE (R13). -/
  nch : Nat
  /-- HASW, whether MODE contains W (R13). -/
  hasw : Bool
  /-- BPW, bits sent per word (R13). -/
  bpw : Nat
  /-- SH, the lane shift table (R14). -/
  sh : ShiftTable
  /-- RDLY, the reset/latch delay in ticks (R16). -/
  rdly : BitVec 32
  /-- PROFILE (R16). -/
  profile : Profile
  deriving DecidableEq, Repr, Inhabited

/-- The phase of the transmitter (R19). -/
inductive TxPhase where
  | idle | high | low | latch
  deriving DecidableEq, Repr, Inhabited

/-- The transmitter's registers (R19). -/
structure TxRegs where
  phase : TxPhase
  /-- tx_idx, the index of the word being sent. -/
  idx : Nat
  /-- tx_bit, the index of the bit being sent. -/
  bit : Nat
  /-- tx_cnt, ticks left in the present phase. -/
  cnt : Nat
  /-- tx_sr, a copy of the word being sent. -/
  sr : Word
  /-- The MODEL's own: ticks left before the line collaborator reports the failure that the oracle answered for the SHOW in
  progress (R136, R139); none: no failure. Log 12. -/
  fail : Option Nat
  deriving DecidableEq, Repr, Inhabited

/-- A timing triple (T1, T2, T3) in ticks (R4, R132). -/
structure Timing where
  t1 : Nat
  t2 : Nat
  t3 : Nat
  deriving DecidableEq, Repr, Inhabited

/-- One segment of a plan: `k` picks the colour pair, the pixels `lo` to `hi`, and the direction (R116). -/
structure PlanSeg where
  k : Nat
  lo : Nat
  hi : Nat
  fwd : Bool
  deriving DecidableEq, Repr, Inhabited

/-- The six arguments of SGRAD_PLAN (R116). -/
structure PlanArgs where
  n : Nat
  cnt : Nat
  startIndex : Int
  endIndex : Int
  rev : Bool
  rainbow : Bool
  deriving DecidableEq, Repr, Inhabited

/-- The model parameters of R4 that stand in the state as plain data, so that every statement ranges over them; no step
changes them. Log 5. -/
structure Params where
  /-- NMAX, the largest N the block can store (R4, D5). -/
  nmax : Nat
  /-- SK6812_T, the timing triple of profile SK6812 (R4, D17). -/
  sk6812 : Timing
  /-- Values of SGRAD_PLAN that are settled (R4, R116, D22): arguments and plan, none for `invalid`. Elsewhere the parameter is
  the free value `Config.sgradPlan`. Log 6. -/
  plans : List (PlanArgs × Option (List PlanSeg))
  deriving DecidableEq, Repr, Inhabited

/-- What the line collaborator answers to one transmit (R136): all sent, or a failure after the first `m` bit symbols, which it
reports `late` ticks after the end of the `m`-th (R139: an input of the tick machine, at any tick; log 12). -/
inductive IoAnswer where
  | sent
  | fail (m late : Nat)
  deriving DecidableEq, Repr, Inhabited

/-- FREE VALUE, log 6: the open parameter SGRAD_PLAN before the constraints P1 to P6 are imposed on it (R116); none stands
for `invalid`. -/
opaque Config.sgradPlan : PlanArgs → Option (List PlanSeg)

/-- FREE VALUE, log 15: the model parameter TICK_NS, the length of a tick in nanoseconds, a positive real (R4, D16). No step
reads it; it is here for claims about time, and it is the one constant of the model that does not compute. -/
noncomputable opaque Config.tickNs : Set.Ioi (0 : ℝ)

/-- FREE VALUE, log 9: what the configuration registers hold after the k-th hardware reset (R24, R190: unspecified). -/
opaque Config.resetRegs : Nat → ConfigRegs

/-- FREE VALUE, log 9: what BRIGHT holds after the k-th hardware reset (R24, R190: unspecified). -/
opaque Config.resetBright : Nat → Byte

/-- FREE VALUE, log 11: what tx_idx, tx_bit, tx_cnt and tx_sr hold after the k-th event that leaves them unspecified: a
hardware reset, a successful CONFIG, the end of a SHOW (R19, R24, R190). -/
opaque Config.idleTx : Nat → Nat × Nat × Nat × Word

end Sys2Proof
end

