-- ==== Sys2Proof/Machine/State.lean ====
section
/-! DEFINITION. The state of the block (rules R10 to R24), as plain data, and the state after hardware reset. The fields
after `lt` are the model's own: the command port, what the host and the line collaborator present, the responses given,
and the model parameters. -/

namespace Sys2Proof.Machine

/-- The word array by pixel index (R17, R30): index and word, indices rising, no word equal to 0, which is what an
unlisted index reads as (log 13). -/
abbrev Memory := List (Nat × Word)

/-- The canonical form of the word array: indices strictly rising, no listed word 0. -/
def Memory.wf (m : Memory) : Bool :=
  decide (m.Pairwise (fun p q => p.1 < q.1)) && m.all (fun p => p.2 != 0#32)

/-- The status of a response (R56). -/
inductive Status where
  | ok | configError | indexError | invalidRangeError | ioError | cmdError
  deriving DecidableEq, Repr, Inhabited

/-- A response: a status and a 32-bit return value (R21, R56). -/
structure Response where
  status : Status
  ret : Word
  deriving DecidableEq, Repr, Inhabited

/-- A symbol of the three-symbol encoder (R22, R132). -/
inductive Symbol where
  | zero
  | one
  | latch (ticks : Nat)
  deriving DecidableEq, Repr, Inhabited

/-- A segment of the level trace: a level held for a number of ticks (R22, R133). -/
structure LevelSeg where
  level : Bool
  ticks : Nat
  deriving DecidableEq, Repr, Inhabited

/-- How fine a step of SHOW is (log 10): `symbol`, one blocking step by R130 and R131; `tick`, an acceptance and then one
step a tick by R139. -/
inductive Grain where
  | symbol | tick
  deriving DecidableEq, Repr, Inhabited

/-- The state of the block. -/
structure State where
  /-- CFG: constructed or not (R11). -/
  cfg : Bool
  /-- N, MODE, NCH, HASW, BPW, SH, RDLY, PROFILE (R12, R13, R14, R16). -/
  regs : ConfigRegs
  /-- BRIGHT (R15). -/
  bright : Byte
  /-- The word array W (R17). -/
  w : Memory
  /-- The transmitter's registers (R19). -/
  tx : TxRegs
  /-- The level of the output (R20). -/
  line : Bool
  /-- BUSY (R21). -/
  busy : Bool
  /-- The symbol trace ST (R22). -/
  st : List Symbol
  /-- The level trace LT (R22). -/
  lt : List LevelSeg
  /-- MODEL: the words the host has presented on the command port and the block has not consumed (R50, log 1). -/
  port : List Word
  /-- MODEL: the responses given, oldest first; nothing reads it (R21, R56, log 3). -/
  out : List Response
  /-- MODEL: the line collaborator's answers to the transmits to come; past its end nothing fails (R136, log 4). -/
  ioPlan : List IoAnswer
  /-- MODEL: the hardware reset input (R190, log 9). -/
  rst : Bool
  /-- MODEL: the grain of SHOW (log 10). -/
  grain : Grain
  /-- MODEL: NMAX, SK6812_T and what is settled of SGRAD_PLAN (R4, logs 5, 6). -/
  params : Params
  /-- MODEL: how many free values were used, by hardware resets and by events that leave the transmitter's registers
  unspecified (logs 9, 11). -/
  freeCtr : Nat
  deriving DecidableEq, Repr

/-- Why the block stops with a fault: for no reason. The spec names no event that stops it; every error is a status of the
command's response (R160, R165, R169), so the type is empty and no step faults (safe: a fault could only hide a claim). -/
inductive Fault where
  deriving DecidableEq, Repr

/-- Why a step has no meaning. -/
inductive Refusal where
  /-- An instruction without a meaning; raised by no arm of exec (safe). -/
  | notModelled (mnemonic : String)
  /-- A hardware reset while a frame is going out. Raised by `resetStep`, never by a command. The spec gives it no step
  ("a model gives such a reset no step: it is outside the model", R190, U6). Safe: nothing can be proved of what follows. -/
  | resetWhileBusy
  deriving DecidableEq, Repr

/-- The state after hardware reset (R24, R190). CFG, tx_phase, line, BUSY, ST and LT are the spec's; the values it leaves
unspecified are those of log 8, the parameters those of log 5, and the word array lists nothing (no array exists). -/
def State.reset : State where
  cfg := false
  regs :=
    { n := 1, mode := [.r, .g, .b], nch := 3, hasw := false, bpw := 24, sh := ⟨16, 8, 0, 0⟩, rdly := 0,
      profile := .ws2812 }
  bright := 255
  w := []
  tx := { phase := .idle, idx := 0, bit := 0, cnt := 0, sr := 0, fail := none }
  line := false
  busy := false
  st := []
  lt := []
  port := []
  out := []
  ioPlan := []
  rst := false
  grain := .symbol
  params := { nmax := 2147483647, sk6812 := ⟨2, 5, 3⟩, plans := [] }
  freeCtr := 0

end Sys2Proof.Machine
end

