-- ==== Sys2Proof/Machine/Flags.lean ====
section
/-! DEFINITION. The block has no condition codes (R21). What stands for flags: the status codes of a response, and BUSY and
the line level, which follow the transmitter's phase. -/

namespace Sys2Proof.Machine

/-- The status codes (R56, R160). -/
def Status.code : Status → Byte
  | .ok => 0
  | .configError => 1
  | .indexError => 2
  | .invalidRangeError => 3
  | .ioError => 4
  | .cmdError => 5

/-- BUSY as it follows the phase: `tx_phase ≠ IDLE` (R21). -/
def busyFlag : TxPhase → Bool
  | .idle => false
  | .high => true
  | .low => true
  | .latch => true

/-- The line level as it follows the phase: 1 in HIGH only (R20). -/
def lineLevel : TxPhase → Bool
  | .idle => false
  | .high => true
  | .low => false
  | .latch => false

end Sys2Proof.Machine
end

