-- ==== Sys2Proof/Machine/Ops.lean ====
section
/-! DEFINITION. The named operations over the word array and the registers, and the one way a command ends: a response, with
a value or with an error (R8, R56, R165). -/

namespace Sys2Proof.Machine

/-- `W[i]` (R8, R34): the whole word at index `i`. -/
def Memory.read : Memory → Nat → Word
  | [], _ => 0#32
  | (a, v) :: m, i => if a = i then v else Memory.read m i

/-- `W[i] <- v` (R8, R35): one whole word, in canonical form. -/
def Memory.write : Memory → Nat → Word → Memory
  | [], i, v => if v = 0#32 then [] else [(i, v)]
  | (a, x) :: m, i, v =>
    if i < a then (if v = 0#32 then (a, x) :: m else (i, v) :: (a, x) :: m)
    else if i = a then (if v = 0#32 then m else (i, v) :: m)
    else (a, x) :: Memory.write m i v

/-- `for i in lo..lo+cnt-1: W[i] <- f i`, in rising order (R8). -/
def Memory.writeSpan (m : Memory) (lo : Nat) : Nat → (Nat → Word) → Memory
  | 0, _ => m
  | cnt + 1, f => Memory.write (Memory.writeSpan m lo cnt f) (lo + cnt) (f (lo + cnt))

/-- The array of a fresh buffer: all words zero (R70, R191). -/
def Memory.zeros : Memory := []

/-- A command ends with a response (R50, R56). -/
def State.respond (status : Status) (ret : Word) (s : State) : State :=
  { s with out := s.out ++ [⟨status, ret⟩] }

/-- `return v` (R8): status OK and the value. -/
def State.answer (ret : Word) (s : State) : State := s.respond .ok ret

/-- `raise e` (R8, R165): the command ends at once with that status and `ret = 0`, and nothing else changes. This is the
block's whole exception entry; the next command is accepted normally, so there is no return from it (R169). -/
def State.raise (error : Status) (s : State) : State := s.respond error 0#32

/-- The word array replaced (R17). -/
def State.setW (m : Memory) (s : State) : State := { s with w := m }

/-- `BRIGHT <- v` (R8, R15). -/
def State.setBright (v : Byte) (s : State) : State := { s with bright := v }

/-- The configuration registers written (R70). -/
def State.setRegs (r : ConfigRegs) (s : State) : State := { s with regs := r }

/-- CFG written (R11). -/
def State.setCfg (c : Bool) (s : State) : State := { s with cfg := c }

/-- The command port after some words were consumed (R50). -/
def State.setPort (ws : List Word) (s : State) : State := { s with port := ws }

/-- The traces emptied (R22, R70, R190). -/
def State.clearTraces (s : State) : State := { s with st := [], lt := [] }

/-- The transmitter enters a phase; BUSY and the line follow it (R20, R21, R139). -/
def State.setPhase (p : TxPhase) (s : State) : State :=
  { s with tx := { s.tx with phase := p }, line := lineLevel p, busy := busyFlag p }

/-- `tx_phase <- IDLE; line <- 0; BUSY <- 0` (R70, R130, R136, R139). The transmitter's other registers hold no meaning
outside SHOW and are unspecified (R19, R24): they take a free value (log 11). -/
def State.releaseTx (s : State) : State :=
  { s with
    tx :=
      { phase := .idle, idx := (Config.idleTx s.freeCtr).1, bit := (Config.idleTx s.freeCtr).2.1,
        cnt := (Config.idleTx s.freeCtr).2.2.1, sr := (Config.idleTx s.freeCtr).2.2.2, fail := none }
    line := lineLevel .idle
    busy := busyFlag .idle
    freeCtr := s.freeCtr + 1 }

/-- `tx_cnt <- c` (R139). -/
def State.setCnt (c : Nat) (s : State) : State := { s with tx := { s.tx with cnt := c } }

/-- `tx_idx`, `tx_bit` and `tx_sr` written (R139). -/
def State.setPos (idx bit : Nat) (sr : Word) (s : State) : State :=
  { s with tx := { s.tx with idx := idx, bit := bit, sr := sr } }

/-- The ticks left before the failure of the SHOW in progress is reported (R136, R139, log 12). -/
def State.setFail (m : Option Nat) (s : State) : State := { s with tx := { s.tx with fail := m } }

/-- The oracle's answer to this transmit (R136); past the end of the list nothing fails (log 4). -/
def State.ioAnswer (s : State) : IoAnswer :=
  match s.ioPlan with
  | [] => .sent
  | a :: _ => a

/-- The oracle's answer used up. -/
def State.popIo (s : State) : State := { s with ioPlan := s.ioPlan.tail }

/-- A command other than CONFIG runs only in the constructed life-cycle state; before it, CmdError (R166, R168, R171). -/
def State.whenConstructed (k : State → State) (s : State) : State :=
  if s.cfg then k s else s.raise .cmdError

end Sys2Proof.Machine
end

