-- ==== Sys2Proof/Syntax.lean ====
section
/-! DEFINITION. The commands of the block as syntax: one constructor per row of the opcode table (R52). Operand fields
that a flag makes the block ignore (R53, R55) are kept, so that a term and its words determine each other (log 14). -/

namespace Sys2Proof

/-- A colour operand in logical order (R55, R80). Whether `w` counts is said by the command's C4 flag. -/
structure Colour where
  r : Byte
  g : Byte
  b : Byte
  w : Byte
  deriving DecidableEq, Repr, Inhabited

/-- The ten commands (R52). `unset` is the header flag NONE, `c4` the flag C4, `right` the flag DIR, `rev` and `rainbow`
the flags REV and RBW. A scalar operand is the integer that its word denotes as `sext_32` (R53); `mode` is the mode
word (R54) and `resetDelay` the unsigned word of ticks. -/
inductive Instr where
  /-- CONFIG num_leds, mode, initial_brightness or unset, reset_delay (R70). -/
  | config (unset : Bool) (numLeds : Int) (mode : Word) (brightness : Int) (resetDelay : Word)
  /-- SETBRIGHT value or unset (R72). -/
  | setbright (unset : Bool) (value : Int)
  /-- SETPIXEL index, colour (R85). -/
  | setpixel (c4 : Bool) (index : Int) (colour : Colour)
  /-- SETRANGE first, last, colour (R86). -/
  | setrange (c4 : Bool) (first last : Int) (colour : Colour)
  /-- FILL colour (R87). -/
  | fill (c4 : Bool) (colour : Colour)
  /-- ROTATE.L or ROTATE.R offset or unset (R100). -/
  | rotate (unset right : Bool) (offset : Int)
  /-- LGRAD startIndex, endIndex, colourA, colourB (R111). -/
  | lgrad (c4 : Bool) (startIndex endIndex : Int) (colourA colourB : Colour)
  /-- SGRAD startIndex, endIndex, colours, reverse, rainbowMode (R117); CNT is the number of colours. -/
  | sgrad (c4 rev rainbow : Bool) (startIndex endIndex : Int) (colours : List Colour)
  /-- SHOW (R130). -/
  | showFrame
  /-- READWORD index (R88). -/
  | readword (index : Int)
  deriving DecidableEq, Repr

end Sys2Proof
end

