-- ==== Sys2Proof/Machine/Operands.lean ====
section
/-! DEFINITION. Operand forms and the arithmetic of the block (R7, R32, R54, R71, R81, R82, R84, R89, R110). -/

namespace Sys2Proof

/-- `SH[c]` (R14). -/
def ShiftTable.get (t : ShiftTable) : Chan → BitVec 5
  | .r => t.r
  | .g => t.g
  | .b => t.b
  | .w => t.w

/-- `SH[c] <- v` (R14). -/
def ShiftTable.set (t : ShiftTable) (c : Chan) (v : BitVec 5) : ShiftTable :=
  match c with
  | .r => { t with r := v }
  | .g => { t with g := v }
  | .b => { t with b := v }
  | .w => { t with w := v }

/-- A colour's channel. -/
def Colour.get (col : Colour) : Chan → Byte
  | .r => col.r
  | .g => col.g
  | .b => col.b
  | .w => col.w

end Sys2Proof

namespace Sys2Proof.Machine

/-- `clamp(v, lo, hi)` (R7). -/
def clamp (v lo hi : Int) : Int := if v < lo then lo else if v > hi then hi else v

/-- A brightness operand, clamped to [1, 255] (R70, R72). -/
def clampBright (v : Int) : Byte := BitVec.ofInt 8 (clamp v 1 255)

/-- `rne(num / den)` for `den > 0` (R7): the nearest integer, the even one at a tie. -/
def rne (num : Int) (den : Nat) : Int :=
  let q := num / (den : Int)
  let r := num % (den : Int)
  if 2 * r < den then q
  else if (den : Int) < 2 * r then q + 1
  else if q % 2 = 0 then q else q + 1

/-- `scale(c, B) = rne(c * B / 255)` as an integer (R81). -/
def scaleInt (c bright : Nat) : Int := rne ((c : Int) * bright) 255

/-- A channel under a brightness (R81). -/
def scale (c bright : Byte) : Byte := BitVec.ofInt 8 (scaleInt c.toNat bright.toNat)

/-- `lerp(a, b, j, d) = rne((a*d + (b-a)*j) / d)` as an integer (R110). -/
def lerpInt (a b j d : Nat) : Int := rne ((a : Int) * d + ((b : Int) - a) * j) d

/-- A channel interpolated between two (R110). -/
def lerp (a b : Byte) (j d : Nat) : Byte := BitVec.ofInt 8 (lerpInt a.toNat b.toNat j d)

/-- A colour interpolated channel by channel; W only when the colours carry it (R111, R117). -/
def lerpColour (c4 : Bool) (a b : Colour) (j d : Nat) : Colour where
  r := lerp a.r b.r j d
  g := lerp a.g b.g j d
  b := lerp a.b b.b j d
  w := if c4 then lerp a.w b.w j d else 0#8

/-- A channel value put into its lane: `v << SH[c]` (R31, R82). -/
def inLane (v : Byte) (sh : BitVec 5) : Word := v.setWidth 32 <<< sh.toNat

/-- `Pack(col)` for a brightness, a lane table, HASW and C4 (R82). -/
def packWith (bright : Byte) (sh : ShiftTable) (hasw c4 : Bool) (col : Colour) : Word :=
  let rgb := inLane (scale col.r bright) sh.r ||| inLane (scale col.g bright) sh.g |||
    inLane (scale col.b bright) sh.b
  if hasw then rgb ||| inLane (if c4 then scale col.w bright else 0#8) sh.w else rgb

/-- `Pack(col)` under the present BRIGHT and SH (R82). -/
def State.pack (s : State) (c4 : Bool) (col : Colour) : Word :=
  packWith s.bright s.regs.sh s.regs.hasw c4 col

/-- One channel of `Unpack(word)`: `(word >> SH[c]) & 0xFF` (R84). -/
def unpackChan (sh : ShiftTable) (x : Word) (c : Chan) : Byte := x.extractLsb' (sh.get c).toNat 8

/-- `Unpack(word)` (R84): the scaled channels under a lane table; no W when HASW = 0. For stating properties only. -/
def unpack (sh : ShiftTable) (hasw : Bool) (x : Word) : Byte × Byte × Byte × Option Byte :=
  (unpackChan sh x .r, unpackChan sh x .g, unpackChan sh x .b, if hasw then some (unpackChan sh x .w) else none)

/-- The string that a mode word denotes: the bytes before the first 0x00, when every byte after it is 0x00 (R54). -/
def modeString (x : Word) : Option (List Byte) :=
  let bytes := [x.extractLsb' 24 8, x.extractLsb' 16 8, x.extractLsb' 8 8, x.extractLsb' 0 8]
  let str := bytes.takeWhile (fun c => c != 0#8)
  if (bytes.drop str.length).all (fun c => c == 0#8) then some str else none

/-- The channel of an ASCII code (R54): only the upper-case letters (R71). -/
def letterChan (c : Byte) : Option Chan :=
  if c = 0x52#8 then some .r
  else if c = 0x47#8 then some .g
  else if c = 0x42#8 then some .b
  else if c = 0x57#8 then some .w
  else none

/-- The channels of a string, when every character is a channel letter. -/
def lettersOf : List Byte → Option (List Chan)
  | [] => some []
  | c :: cs =>
    match letterChan c, lettersOf cs with
    | some x, some xs => some (x :: xs)
    | _, _ => none

/-- A mode string is legal: R, G, B each once, or R, G, B, W each once (R13, R71). -/
def legalMode (m : List Chan) : Bool :=
  decide m.Nodup && ((m.length == 3 && !m.contains .w) || m.length == 4)

/-- `ValidMode` with the mode it finds (R71). -/
def validMode (x : Word) : Option (List Chan) :=
  match modeString x with
  | none => none
  | some str =>
    match lettersOf str with
    | none => none
    | some m => if legalMode m then some m else none

/-- The lane rule `8 * (L - 1 - p)` (R32). -/
def laneShift (len p : Nat) : BitVec 5 := BitVec.ofNat 5 (8 * (len - 1 - p))

/-- The lane table of a mode: `for each letter c at position p of MODE: SH[c] <- 8 * (NCH - 1 - p)`; a letter that does not
occur keeps its field (R70, log 17). -/
def shiftsFor (mode : List Chan) (old : ShiftTable) : ShiftTable :=
  mode.zipIdx.foldl (fun t cp => t.set cp.1 (laneShift mode.length cp.2)) old

/-- An index operand lies in [0, N) (R34, R36). -/
def State.inRange (s : State) (i : Int) : Bool := decide (0 ≤ i ∧ i < (s.regs.n : Int))

/-- `a mod N` of R7, non-negative also for negative `a`. -/
def modN (a : Int) (n : Nat) : Nat := (a % (n : Int)).toNat

end Sys2Proof.Machine
end

