-- ==== Sys2Proof/Machine/Configure.lean ====
section
/-! DEFINITION. CONFIG and SETBRIGHT (40_config_brightness.md, R70 to R72). -/

namespace Sys2Proof.Machine

/-- The registers a successful CONFIG writes (R70). -/
def configRegs (numLeds : Nat) (mode : List Chan) (resetDelay : Word) (old : ConfigRegs) : ConfigRegs where
  n := numLeds
  mode := mode
  nch := mode.length
  hasw := mode.length == 4
  bpw := if mode.length = 4 then 32 else 24
  sh := shiftsFor mode old.sh
  rdly := resetDelay
  profile := if mode.length = 4 then .sk6812 else .ws2812

/-- The state a successful CONFIG leaves, but for the response (R70, R191). -/
def construct (numLeds : Nat) (mode : List Chan) (bright : Byte) (resetDelay : Word) (s : State) : State :=
  ((((s.setRegs (configRegs numLeds mode resetDelay s.regs)).setBright bright).setW Memory.zeros).releaseTx).clearTraces.setCfg
    true

/-- CONFIG (R70): life cycle, then operands, then construction. -/
def execConfig (unset : Bool) (numLeds : Int) (mode : Word) (brightness : Int) (resetDelay : Word) (s : State) :
    Host.Outcome State Fault Refusal :=
  .next <|
    if s.cfg then s.raise .cmdError
    else if numLeds ≤ 0 then s.raise .configError
    else if (s.params.nmax : Int) < numLeds then s.raise .configError
    else match validMode mode with
      | none => s.raise .configError
      | some m =>
        (construct numLeds.toNat m (if unset then 255#8 else clampBright brightness) resetDelay s).answer 0#32

/-- SETBRIGHT (R72): the query form changes nothing; both forms answer the brightness after the command. -/
def execSetbright (unset : Bool) (value : Int) (s : State) : Host.Outcome State Fault Refusal :=
  .next <| s.whenConstructed fun s =>
    if unset then s.answer (s.bright.setWidth 32)
    else (s.setBright (clampBright value)).answer ((clampBright value).setWidth 32)

end Sys2Proof.Machine
end

