-- ==== Sys2Proof/Machine/Gradient.lean ====
section
/-! DEFINITION. LGRAD and SGRAD (43_gradients.md, R110 to R117). -/

namespace Sys2Proof.Machine

/-- The pixels `lo` to `hi` painted from colour `ca` at `lo` to colour `cb` at `hi`, each interpolated and then packed
(R111, R117). -/
def State.paint (s : State) (c4 : Bool) (ca cb : Colour) (lo hi : Nat) (m : Memory) : Memory :=
  Memory.writeSpan m lo (hi - lo + 1) fun i => s.pack c4 (lerpColour c4 ca cb (i - lo) (hi - lo))

/-- LGRAD (R111): range test, then the no-op test, then the span; colour A belongs to the lower index. -/
def execLgrad (c4 : Bool) (startIndex endIndex : Int) (colourA colourB : Colour) (s : State) :
    Host.Outcome State Fault Refusal :=
  .next <| s.whenConstructed fun s =>
    if s.inRange startIndex && s.inRange endIndex then
      if startIndex = endIndex then s.answer 0#32
      else (s.setW (s.paint c4 colourA colourB (min startIndex endIndex).toNat (max startIndex endIndex).toNat
        s.w)).answer 0#32
    else s.raise .invalidRangeError

/-- `segW = (endIndex + 1) // n`, the width of a full segment (R115 (S2), R116 (P1)). -/
def segWidth (endIndex : Int) (cnt : Nat) : Int := (endIndex + 1) / (cnt : Int)

/-- `rainbow_eff = (RBW = 1) or (n = 4)` (R115 (S4)). -/
def rainbowEff (rainbow : Bool) (cnt : Nat) : Bool := rainbow || cnt == 4

/-- One segment inside the bounds of R116: `0 ≤ k < n`, `lo ≤ hi ≤ N - 1`. -/
def segInBounds (n cnt : Nat) (g : PlanSeg) : Bool := decide (g.k < cnt ∧ g.lo ≤ g.hi ∧ g.hi < n)

/-- The direction of a segment by P3 and P4 (R116): all forward with `rainbow_eff`; else, with `REV = 0`, forward for
`k = 0` only; else free. -/
def segDirection (rev rainbow : Bool) (g : PlanSeg) : Bool :=
  if rainbow then g.fwd else if rev then true else g.fwd == decide (g.k = 0)

/-- Segments stand in ascending `k` (R116, log 7). -/
def segAscending (segs : List PlanSeg) : Bool := decide (segs.Pairwise (fun a b => a.k < b.k))

/-- P1 and P2 (R116, log 7): every segment but the last is at most `segW` wide, and the last ends at or before `endIndex`. -/
def segWidths (cnt : Nat) (endIndex : Int) : List PlanSeg → Bool
  | [] => true
  | [g] => decide ((g.hi : Int) ≤ endIndex)
  | g :: gs => decide ((g.hi : Int) - g.lo ≤ segWidth endIndex cnt) && segWidths cnt endIndex gs

/-- A list of segments meets the constraints of R116. -/
def planOk (n cnt : Nat) (endIndex : Int) (rev rainbow : Bool) (segs : List PlanSeg) : Bool :=
  segs.all (segInBounds n cnt) && segs.all (segDirection rev rainbow) && segAscending segs &&
    segWidths cnt endIndex segs

/-- The open parameter before its constraints: settled by the instance, or else the free value (R116, log 6). -/
def rawPlan (p : Params) (args : PlanArgs) : Option (List PlanSeg) :=
  match p.plans.lookup args with
  | some plan => plan
  | none => Config.sgradPlan args

/-- `SGRAD_PLAN` (R116, log 6): the open parameter, where it meets P1 to P6; `invalid` (none) where an index is outside [0, N)
(P6) or the parameter is no plan. Every plan that meets the constraints is this function for some parameter. -/
def sgradPlan (p : Params) (n cnt : Nat) (startIndex endIndex : Int) (rev rainbow : Bool) : Option (List PlanSeg) :=
  if 0 ≤ startIndex ∧ startIndex < n ∧ 0 ≤ endIndex ∧ endIndex < n then
    match rawPlan p ⟨n, cnt, startIndex, endIndex, rev, rainbow⟩ with
    | none => none
    | some segs => if planOk n cnt endIndex rev rainbow segs then some segs else none
  else none

/-- `colors[k]`; past the end, where no plan points (R116), black. -/
def colourAt (colours : List Colour) (k : Nat) : Colour := colours.getD k ⟨0#8, 0#8, 0#8, 0#8⟩

/-- The array after one segment of the plan (R117): skipped when `lo = hi` (S8), else painted in its direction. -/
def State.paintSeg (s : State) (c4 : Bool) (colours : List Colour) (m : Memory) (g : PlanSeg) : Memory :=
  if g.lo = g.hi then m
  else
    let c0 := colourAt colours g.k
    let c1 := colourAt colours ((g.k + 1) % colours.length)
    if g.fwd then s.paint c4 c0 c1 g.lo g.hi m else s.paint c4 c1 c0 g.lo g.hi m

/-- SGRAD (R117). -/
def execSgrad (c4 rev rainbow : Bool) (startIndex endIndex : Int) (colours : List Colour) (s : State) :
    Host.Outcome State Fault Refusal :=
  .next <| s.whenConstructed fun s =>
    match sgradPlan s.params s.regs.n colours.length startIndex endIndex rev (rainbowEff rainbow colours.length) with
    | none => s.raise .invalidRangeError
    | some segs => (s.setW (segs.foldl (s.paintSeg c4 colours) s.w)).answer 0#32

end Sys2Proof.Machine
end

