-- ==== Sys2Proof/Machine/Pixel.lean ====
section
/-! DEFINITION. SETPIXEL, SETRANGE, FILL and READWORD (41_pixel_write.md, R85 to R88). -/

namespace Sys2Proof.Machine

/-- SETPIXEL (R85). -/
def execSetpixel (c4 : Bool) (index : Int) (colour : Colour) (s : State) : Host.Outcome State Fault Refusal :=
  .next <| s.whenConstructed fun s =>
    if s.inRange index then (s.setW (Memory.write s.w index.toNat (s.pack c4 colour))).answer 0#32
    else s.raise .indexError

/-- SETRANGE (R86): both endpoints are tested before any write. -/
def execSetrange (c4 : Bool) (first last : Int) (colour : Colour) (s : State) : Host.Outcome State Fault Refusal :=
  .next <| s.whenConstructed fun s =>
    if s.inRange first && s.inRange last then
      let lo := (min first last).toNat
      let hi := (max first last).toNat
      (s.setW (Memory.writeSpan s.w lo (hi - lo + 1) (fun _ => s.pack c4 colour))).answer 0#32
    else s.raise .invalidRangeError

/-- FILL (R87). -/
def execFill (c4 : Bool) (colour : Colour) (s : State) : Host.Outcome State Fault Refusal :=
  .next <| s.whenConstructed fun s =>
    (s.setW (Memory.writeSpan s.w 0 s.regs.n (fun _ => s.pack c4 colour))).answer 0#32

/-- READWORD (R88): no state changes but the response. -/
def execReadword (index : Int) (s : State) : Host.Outcome State Fault Refusal :=
  .next <| s.whenConstructed fun s =>
    if s.inRange index then s.answer (Memory.read s.w index.toNat) else s.raise .indexError

end Sys2Proof.Machine
end

