-- ==== Sys2Proof/Machine/Rotate.lean ====
section
/-! DEFINITION. ROTATE (42_rotate.md, R100). -/

namespace Sys2Proof.Machine

/-- `k0`: the offset, or 1 when it is unset or exactly 0 (R100, D14). -/
def rotateOffset (unset : Bool) (offset : Int) : Int := if unset ∨ offset = 0 then 1 else offset

/-- The array shifted circularly: `W[i] <- old[(i + k) mod N]` to the left, `old[(i - k) mod N]` to the right (R100). -/
def rotated (right : Bool) (k : Nat) (n : Nat) (old : Memory) : Memory :=
  Memory.writeSpan old 0 n fun i =>
    Memory.read old (if right then modN ((i : Int) - k) n else modN ((i : Int) + k) n)

/-- ROTATE (R100). -/
def execRotate (unset right : Bool) (offset : Int) (s : State) : Host.Outcome State Fault Refusal :=
  .next <| s.whenConstructed fun s =>
    (s.setW (rotated right (modN (rotateOffset unset offset) s.regs.n) s.regs.n s.w)).answer 0#32

end Sys2Proof.Machine
end

