-- ==== Sys2Proof/Machine/Transmit.lean ====
section
/-! DEFINITION. SHOW, the serializer, the three-symbol encoder and the tick machine (44_transmit.md, R130 to R140). -/

namespace Sys2Proof.Machine

/-- The timing constants of profile WS2812: T1 = 2, T2 = 5, T3 = 3 ticks (R138, D15). -/
def ws2812Timing : Timing := ⟨2, 5, 3⟩

/-- The timing triple of the profile in force (R16, R138). -/
def State.timing (s : State) : Timing :=
  match s.regs.profile with
  | .ws2812 => ws2812Timing
  | .sk6812 => s.params.sk6812

/-- `HI(b)`: ticks high of a bit symbol (R132, R139). -/
def bitHi (t : Timing) (b : Bool) : Nat := if b then t.t3 + t.t1 else t.t3

/-- `LO(b)`: ticks low of a bit symbol (R132, R139). -/
def bitLo (t : Timing) (b : Bool) : Nat := if b then t.t2 else t.t1 + t.t2

/-- The symbol of a bit (R131). -/
def bitSymbol (b : Bool) : Symbol := if b then .one else .zero

/-- The level segments of a symbol (R132, R133). -/
def symbolSegs (t : Timing) : Symbol → List LevelSeg
  | .zero => [⟨true, bitHi t false⟩, ⟨false, bitLo t false⟩]
  | .one => [⟨true, bitHi t true⟩, ⟨false, bitLo t true⟩]
  | .latch d => [⟨false, d⟩]

/-- The level segments of a list of symbols (R133). -/
def segsOf (t : Timing) (syms : List Symbol) : List LevelSeg := syms.flatMap (symbolSegs t)

/-- `emit` for a list of symbols: appended to ST, their segments to LT (R8, R133). -/
def State.emit (syms : List Symbol) (s : State) : State :=
  { s with st := s.st ++ syms, lt := s.lt ++ segsOf s.timing syms }

/-- The level at tick `t` of a level trace, idle low beyond its end (R133). -/
def levelAt : List LevelSeg → Nat → Bool
  | [], _ => false
  | g :: gs, t => if t < g.ticks then g.level else levelAt gs (t - g.ticks)

/-- The length of a level trace in ticks (R133). -/
def ticksOf (segs : List LevelSeg) : Nat := (segs.map LevelSeg.ticks).sum

/-- The bits of a word as they are sent: bit `BPW - 1` first, bit 0 last (R33, R131). -/
def wordBits (bpw : Nat) (x : Word) : List Bool := (List.range bpw).map fun k => x.getLsbD (bpw - 1 - k)

/-- The bit symbols of a frame: words in rising index (R33, R131). -/
def State.frame (s : State) : List Symbol :=
  ((List.range s.regs.n).flatMap fun i => wordBits s.regs.bpw (Memory.read s.w i)).map bitSymbol

/-- SHOW at the symbol level, one blocking step (R130, R131, R134, R136): the frame and the latch, or the first `m` bit
symbols and IoError. -/
def showSymbols (s : State) : State :=
  match s.ioAnswer with
  | .sent => ((s.popIo.emit s.frame).emit [.latch s.regs.rdly.toNat]).releaseTx.answer 0#32
  | .fail m _ => (s.popIo.emit (s.frame.take m)).releaseTx.raise .ioError

/-- The transmitter starts a bit: HIGH for `HI(bit)` ticks (R139). -/
def startBit (idx bit : Nat) (sr : Word) (s : State) : State :=
  ((s.setPos idx bit sr).setPhase .high).setCnt (bitHi s.timing (sr.getLsbD bit))

/-- The transmitter ends a frame that failed: idle, line low, IoError (R136, R139). -/
def endFailed (s : State) : State := s.releaseTx.raise .ioError

/-- The transmitter ends a frame that went out: the latch symbol is complete, idle, OK (R130, R139). -/
def endSent (s : State) : State := (s.emit [.latch s.regs.rdly.toNat]).releaseTx.answer 0#32

/-- The tick of SHOW, counted from its acceptance, at which the collaborator reports the failure that it answered (R136, R139):
`late` ticks after the end of the `m`-th symbol, before the next symbol is complete, or, when all are out, before the latch is
over. What lies outside these ranges is brought into them (log 12). -/
def State.reportTick (s : State) : IoAnswer → Option Nat
  | .sent => none
  | .fail m late =>
    let bit := s.timing.t1 + s.timing.t2 + s.timing.t3
    if m < s.regs.n * s.regs.bpw then some (m * bit + min late (bit - 1))
    else some (s.regs.n * s.regs.bpw * bit + min late s.regs.rdly.toNat)

/-- Acceptance of SHOW by the tick machine (R139). A failure may be reported at once (log 12). -/
def acceptShow (s : State) : State :=
  match s.reportTick s.ioAnswer with
  | some 0 => endFailed s.popIo
  | armed => startBit 0 (s.regs.bpw - 1) (Memory.read s.w 0) (s.popIo.setFail armed)

/-- What follows a bit that was sent: the next bit, the next word, the latch or the end (R139). -/
def nextBit (s : State) : State :=
  if 0 < s.tx.bit then startBit s.tx.idx (s.tx.bit - 1) s.tx.sr s
  else if s.tx.idx + 1 < s.regs.n then
    startBit (s.tx.idx + 1) (s.regs.bpw - 1) (Memory.read s.w (s.tx.idx + 1)) s
  else
    let s := s.setPos s.regs.n s.tx.bit s.tx.sr
    if 0 < s.regs.rdly.toNat then (s.setPhase .latch).setCnt s.regs.rdly.toNat else endSent s

/-- The symbol of the bit being sent is complete (R133, log 12). -/
def emitBit (s : State) : State := s.emit [bitSymbol (s.tx.sr.getLsbD s.tx.bit)]

/-- The end of a bit's low part (R139). -/
def endBit (s : State) : State := nextBit (emitBit s)

/-- The end of a bit's high part (R139). -/
def endHigh (s : State) : State := (s.setPhase .low).setCnt (bitLo s.timing (s.tx.sr.getLsbD s.tx.bit))

/-- `tx_cnt` counts down; at 0 the phase ends (R139). -/
def countDown (phaseEnd : State → State) (s : State) : State :=
  if 1 < s.tx.cnt then s.setCnt (s.tx.cnt - 1) else phaseEnd (s.setCnt 0)

/-- One tick with no report of a failure (R139). In IDLE nothing ticks. -/
def advance (s : State) : State :=
  match s.tx.phase with
  | .idle => s
  | .high => countDown endHigh s
  | .low => countDown endBit s
  | .latch => countDown endSent s

/-- The tick at which the collaborator reports a failure (R136, R139): `tx_phase <- IDLE; line <- 0; BUSY <- 0; respond IoError`. A
symbol that this tick completes has gone out and is in the traces; a symbol or a latch that it cuts short is not (log 12). -/
def reportFailure (s : State) : State :=
  endFailed (if s.tx.phase = .low ∧ s.tx.cnt ≤ 1 then emitBit s else s)

/-- One tick of the transmitter (R139), with the collaborator's report as an input. -/
def tick (s : State) : State :=
  if s.tx.phase = .idle then s
  else
    match s.tx.fail with
    | none => advance s
    | some left => if left ≤ 1 then reportFailure s else advance (s.setFail (some (left - 1)))

/-- Several ticks. -/
def ticks : Nat → State → State
  | 0, s => s
  | k + 1, s => ticks k (tick s)

/-- The length of one SHOW in ticks: `N * BPW * (T1 + T2 + T3) + RDLY` (R140). -/
def State.showTicks (s : State) : Nat :=
  s.regs.n * s.regs.bpw * (s.timing.t1 + s.timing.t2 + s.timing.t3) + s.regs.rdly.toNat

/-- A number of ticks in nanoseconds, by TICK_NS (R4, R138, log 15). For claims about time; no step reads it. -/
noncomputable def nanoseconds (t : Nat) : ℝ := t * (Config.tickNs : ℝ)

/-- SHOW (R130): in symbol grain the whole blocking step, in tick grain its acceptance (log 10). -/
def execShow (s : State) : Host.Outcome State Fault Refusal :=
  .next <| s.whenConstructed fun s =>
    match s.grain with
    | .symbol => showSymbols s
    | .tick => acceptShow s

end Sys2Proof.Machine
end

