-- ==== Sys2Proof/Machine/Dispatch.lean ====
section
/-! DEFINITION. One arm per command (R52). -/

namespace Sys2Proof.Machine

def exec (i : Instr) (s : State) : Host.Outcome State Fault Refusal :=
  match i with
  | .config unset numLeds mode brightness resetDelay => Sys2Proof.Machine.execConfig unset numLeds mode brightness resetDelay s
  | .setbright unset value => Sys2Proof.Machine.execSetbright unset value s
  | .setpixel c4 index colour => Sys2Proof.Machine.execSetpixel c4 index colour s
  | .setrange c4 first last colour => Sys2Proof.Machine.execSetrange c4 first last colour s
  | .fill c4 colour => Sys2Proof.Machine.execFill c4 colour s
  | .rotate unset right offset => Sys2Proof.Machine.execRotate unset right offset s
  | .lgrad c4 startIndex endIndex colourA colourB => Sys2Proof.Machine.execLgrad c4 startIndex endIndex colourA colourB s
  | .sgrad c4 rev rainbow startIndex endIndex colours => Sys2Proof.Machine.execSgrad c4 rev rainbow startIndex endIndex colours s
  | .showFrame => Sys2Proof.Machine.execShow s
  | .readword index => Sys2Proof.Machine.execReadword index s

end Sys2Proof.Machine
end

