-- ==== Sys2Proof/WellFormed.lean ====
section
/-! DEFINITION. Which terms are commands the port can carry: every scalar operand is a signed 32-bit integer (R53) and
SGRAD carries 1 to 65535 colours (R51, R57). -/

namespace Sys2Proof

/-- `v` is the `sext_32` of some word (R53). -/
abbrev InSext32 (v : Int) : Prop := -2147483648 ≤ v ∧ v ≤ 2147483647

/-- The command can be written as command words (R51 to R57). -/
def WellFormed : Instr → Bool
  | .config _ numLeds _ brightness _ => decide (InSext32 numLeds) && decide (InSext32 brightness)
  | .setbright _ value => decide (InSext32 value)
  | .setpixel _ index _ => decide (InSext32 index)
  | .setrange _ first last _ => decide (InSext32 first) && decide (InSext32 last)
  | .fill _ _ => true
  | .rotate _ _ offset => decide (InSext32 offset)
  | .lgrad _ startIndex endIndex _ _ => decide (InSext32 startIndex) && decide (InSext32 endIndex)
  | .sgrad _ _ _ startIndex endIndex colours =>
    decide (InSext32 startIndex) && decide (InSext32 endIndex) &&
      decide (1 ≤ colours.length) && decide (colours.length ≤ 65535)
  | .showFrame => true
  | .readword index => decide (InSext32 index)

end Sys2Proof
end

