-- ==== Sys2Proof/Decode.lean ====
section
/-! DEFINITION. The command decoder and the encoder (R50 to R58), written from the table of R52. The decoder is total on
any list of words: it answers a command and the words after it, or rejects by name. -/

namespace Sys2Proof

/-- The ten opcodes of R52. -/
inductive Opcode where
  | config | setbright | setpixel | setrange | fill | rotate | lgrad | sgrad | showFrame | readword
  deriving DecidableEq, Repr

/-- One row of the table of R52: a header `h` selects the row when `h &&& mask = pattern`. -/
structure OpRow where
  op : Opcode
  pattern : Word
  mask : Word
  deriving DecidableEq, Repr

/-- The table of R52. -/
def opRows : List OpRow :=
  [⟨.config, 0x01000000#32, 0xFFBFFFFF#32⟩, ⟨.setbright, 0x02000000#32, 0xFFBFFFFF#32⟩,
   ⟨.setpixel, 0x03000000#32, 0xFF7FFFFF#32⟩, ⟨.setrange, 0x04000000#32, 0xFF7FFFFF#32⟩,
   ⟨.fill, 0x05000000#32, 0xFF7FFFFF#32⟩, ⟨.rotate, 0x06000000#32, 0xFF9FFFFF#32⟩,
   ⟨.lgrad, 0x07000000#32, 0xFF7FFFFF#32⟩, ⟨.sgrad, 0x08000000#32, 0xFF670000#32⟩,
   ⟨.showFrame, 0x09000000#32, 0xFFFFFFFF#32⟩, ⟨.readword, 0x0A000000#32, 0xFFFFFFFF#32⟩]

/-- Why a header is ill-formed (R57). The effect is the same for all (CmdError); the name is the model's. Log 16. -/
inductive IllFormed where
  /-- OP is 0x00 or 0x0B to 0xFF. -/
  | opcode
  /-- Bits 18:16 are not 0. -/
  | reservedBits
  /-- CNT is not 0 on a command other than SGRAD. -/
  | countNotZero
  /-- CNT is 0 on SGRAD. -/
  | countZero
  /-- A flag that the opcode does not use is 1. -/
  | unusedFlag
  deriving DecidableEq, Repr

/-- Header field OP, bits 31:24 (R51). -/
def hdrOp (h : Word) : Byte := h.extractLsb' 24 8
/-- Header flag C4, bit 23 (R51). -/
def hdrC4 (h : Word) : Bool := h.getLsbD 23
/-- Header flag NONE, bit 22 (R51). -/
def hdrNone (h : Word) : Bool := h.getLsbD 22
/-- Header flag DIR, bit 21 (R51). -/
def hdrDir (h : Word) : Bool := h.getLsbD 21
/-- Header flag REV, bit 20 (R51). -/
def hdrRev (h : Word) : Bool := h.getLsbD 20
/-- Header flag RBW, bit 19 (R51). -/
def hdrRbw (h : Word) : Bool := h.getLsbD 19
/-- Header bits 18:16, reserved (R51). -/
def hdrZero (h : Word) : BitVec 3 := h.extractLsb' 16 3
/-- Header field CNT, bits 15:0 (R51). -/
def hdrCnt (h : Word) : Nat := (h.extractLsb' 0 16).toNat

/-- The row of R52 that a header selects, with CNT = 0 on SGRAD turned away (R57). -/
def headerOpcode (h : Word) : Option Opcode :=
  (opRows.find? fun r => h &&& r.mask == r.pattern).bind fun r =>
    if r.op = .sgrad ∧ hdrCnt h = 0 then none else some r.op

/-- The name under which an ill-formed header is rejected (R57, log 16). -/
def illFormedReason (h : Word) : IllFormed :=
  if (hdrOp h).toNat = 0 ∨ 0x0B ≤ (hdrOp h).toNat then .opcode
  else if hdrZero h ≠ 0#3 then .reservedBits
  else if hdrOp h ≠ 0x08#8 ∧ hdrCnt h ≠ 0 then .countNotZero
  else if hdrOp h = 0x08#8 ∧ hdrCnt h = 0 then .countZero
  else .unusedFlag

/-- How many operand words follow a header (R58). -/
def operandCount (op : Opcode) (h : Word) : Nat :=
  match op with
  | .config => 4
  | .setbright => 1
  | .setpixel => 2
  | .setrange => 3
  | .fill => 1
  | .rotate => 1
  | .lgrad => 4
  | .sgrad => 2 + hdrCnt h
  | .showFrame => 0
  | .readword => 1

/-- A colour word: R in bits 31:24, G in 23:16, B in 15:8, W in 7:0 (R55). -/
def decodeColour (x : Word) : Colour :=
  ⟨x.extractLsb' 24 8, x.extractLsb' 16 8, x.extractLsb' 8 8, x.extractLsb' 0 8⟩

/-- What the decoder answers. -/
inductive Decoded where
  /-- A command, and the words after it. -/
  | done (i : Instr) (rest : List Word)
  /-- A header that matches no row (R57), and the words after the header. -/
  | illFormed (why : IllFormed) (rest : List Word)
  /-- A good header whose operand words are not all there. -/
  | truncated
  /-- No word at all. -/
  | empty
  deriving DecidableEq, Repr

/-- The operand words of a command with header `h` (R52, R53, R54, R55). -/
def decodeOperands (op : Opcode) (h : Word) (ws : List Word) : Decoded :=
  match op, ws with
  | .config, n :: m :: b :: d :: rest => .done (.config (hdrNone h) n.toInt m b.toInt d) rest
  | .setbright, v :: rest => .done (.setbright (hdrNone h) v.toInt) rest
  | .setpixel, i :: c :: rest => .done (.setpixel (hdrC4 h) i.toInt (decodeColour c)) rest
  | .setrange, f :: l :: c :: rest => .done (.setrange (hdrC4 h) f.toInt l.toInt (decodeColour c)) rest
  | .fill, c :: rest => .done (.fill (hdrC4 h) (decodeColour c)) rest
  | .rotate, k :: rest => .done (.rotate (hdrNone h) (hdrDir h) k.toInt) rest
  | .lgrad, f :: l :: a :: b :: rest =>
    .done (.lgrad (hdrC4 h) f.toInt l.toInt (decodeColour a) (decodeColour b)) rest
  | .sgrad, f :: l :: rest =>
    if rest.length < hdrCnt h then .truncated
    else .done (.sgrad (hdrC4 h) (hdrRev h) (hdrRbw h) f.toInt l.toInt ((rest.take (hdrCnt h)).map decodeColour))
      (rest.drop (hdrCnt h))
  | .showFrame, rest => .done .showFrame rest
  | .readword, i :: rest => .done (.readword i.toInt) rest
  | _, _ => .truncated

/-- The decoder (R50 to R58): the first command of a list of words. -/
def decode : List Word → Decoded
  | [] => .empty
  | h :: ws =>
    match headerOpcode h with
    | none => .illFormed (illFormedReason h) ws
    | some op => decodeOperands op h ws

/-- A header word from its fields (R51). -/
def encodeHeader (op : Byte) (c4 none dir rev rbw : Bool) (cnt : Nat) : Word :=
  op ++ BitVec.ofBool c4 ++ BitVec.ofBool none ++ BitVec.ofBool dir ++ BitVec.ofBool rev ++ BitVec.ofBool rbw ++
    0#3 ++ BitVec.ofNat 16 cnt

/-- A signed scalar operand as its word (R53). -/
def encodeInt (v : Int) : Word := BitVec.ofInt 32 v

/-- A colour operand as its word (R55). -/
def encodeColour (c : Colour) : Word := c.r ++ c.g ++ c.b ++ c.w

/-- The command words of a command, header first (R51 to R55). -/
def encode : Instr → List Word
  | .config unset numLeds mode brightness resetDelay =>
    [encodeHeader 0x01#8 false unset false false false 0, encodeInt numLeds, mode, encodeInt brightness, resetDelay]
  | .setbright unset value => [encodeHeader 0x02#8 false unset false false false 0, encodeInt value]
  | .setpixel c4 index colour => [encodeHeader 0x03#8 c4 false false false false 0, encodeInt index, encodeColour colour]
  | .setrange c4 first last colour =>
    [encodeHeader 0x04#8 c4 false false false false 0, encodeInt first, encodeInt last, encodeColour colour]
  | .fill c4 colour => [encodeHeader 0x05#8 c4 false false false false 0, encodeColour colour]
  | .rotate unset right offset => [encodeHeader 0x06#8 false unset right false false 0, encodeInt offset]
  | .lgrad c4 startIndex endIndex colourA colourB =>
    [encodeHeader 0x07#8 c4 false false false false 0, encodeInt startIndex, encodeInt endIndex, encodeColour colourA,
      encodeColour colourB]
  | .sgrad c4 rev rainbow startIndex endIndex colours =>
    encodeHeader 0x08#8 c4 false false rev rainbow colours.length :: encodeInt startIndex :: encodeInt endIndex ::
      colours.map encodeColour
  | .showFrame => [encodeHeader 0x09#8 false false false false false 0]
  | .readword index => [encodeHeader 0x0A#8 false false false false false 0, encodeInt index]

/-- The command words of an instruction whose bits are `w`, bit 0 the least significant bit of the first word: the words
that `nbits` bits make, and then operand words of zeros up to the length that the header asks for. -/
def tableWords (nbits w : Nat) : List Word :=
  let bits := w % 2 ^ nbits
  let ws := (List.range ((nbits + 31) / 32)).map (fun k => BitVec.ofNat 32 (bits / 2 ^ (32 * k)))
  match ws with
  | [] => []
  | h :: ops =>
    match headerOpcode h with
    | none => ws
    | some op => ws ++ List.replicate (operandCount op h - ops.length) 0#32

/-- The instruction the decoder reads from the table's numbering of an instruction's bits. -/
def decodeTableWord (nbits w : Nat) : Option Instr :=
  match decode (tableWords nbits w) with
  | .done i _ => some i
  | _ => none

end Sys2Proof
end

