-- ==== Sys2Proof/Machine/Fetch.lean ====
section
/-! DEFINITION. What a step does around a command: the hardware reset input (R190), an ill-formed header (R57), and waiting
for the host (R176, log 1). -/

namespace Sys2Proof.Machine

/-- The state that a hardware reset leaves (R24, R190): CFG, tx_phase, line, BUSY and the traces as the spec says; every
field it leaves unspecified takes a free value; no word array exists (log 9). The words on the port, the responses given
and the collaborator's answers are the host's side and stay. -/
def hardwareReset (s : State) : State :=
  { s.releaseTx with
    cfg := false
    regs := Config.resetRegs s.freeCtr
    bright := Config.resetBright s.freeCtr
    w := Memory.zeros
    st := []
    lt := []
    rst := false }

/-- The reset input seen (R190): a hardware reset, which has no step while a frame is going out (U6). -/
def resetStep (s : State) : Host.Outcome State Fault Refusal :=
  if s.busy then .refused .resetWhileBusy else .next (hardwareReset s)

/-- An ill-formed command: CmdError, no operand words, the word after the header is the next header (R57). -/
def rejectHeader (rest : List Word) (s : State) : State := (s.setPort rest).raise .cmdError

/-- Nothing to run yet: the block keeps all its state (R176, log 1). -/
def waitForHost (s : State) : State := s

/-- The command at the head of the port. -/
def fetch (s : State) : Decoded := decode s.port

/-- The port with a command placed at its head and nothing after it, ready to be taken by the next step. -/
def presentWords (ws : List Word) (s : State) : State := { s with port := ws, busy := false, rst := false }

end Sys2Proof.Machine
end

