-- ==== Sys2Proof/Machine/Step.lean ====
section
/-! DEFINITION. One step of the block: the reset input, else a tick of a frame in progress, else the command at the head of
the port. -/

namespace Sys2Proof.Machine

/-- One step. While BUSY = 1 the port is not looked at: a command presented meanwhile is held (R135). -/
def step (s : State) : Host.Outcome State Fault Refusal :=
  if s.rst then resetStep s
  else if s.busy then .next (tick s)
  else
    match fetch s with
    | .done i rest => exec i (s.setPort rest)
    | .illFormed _ rest => .next (rejectHeader rest s)
    | .truncated => .next (waitForHost s)
    | .empty => .next (waitForHost s)

/-- The state with that instruction, and only it, on the command port, so that the next step runs it (log 2). -/
def State.withFetchWord (s : State) (nbits w : Nat) : State := presentWords (tableWords nbits w) s

end Sys2Proof.Machine
end

