-- ==== Sys2Proof/Safety.lean ====
section
/-! DEFINITION. The terms that claims use: the invariant of R25 with the consistency of the derived registers and of the
transmitter, the shapes of R54 and R57 in the rules' own words, and what two states agree on. -/

namespace Sys2Proof.Machine

/-- The timing triple consists of positive integers (R4). -/
structure Timing.Positive (t : Timing) : Prop where
  t1_pos : 1 ≤ t.t1
  t2_pos : 1 ≤ t.t2
  t3_pos : 1 ≤ t.t3

/-- The model parameters lie in the ranges of R4. -/
structure Params.InRange (p : Params) : Prop where
  nmax_pos : 1 ≤ p.nmax
  nmax_le : p.nmax ≤ 2147483647
  sk6812_pos : Timing.Positive p.sk6812

/-- What holds of a constructed block: R25 (a) to (e), with R13, R16 and R32 for the registers derived from MODE. -/
structure Configured (s : State) : Prop where
  n_pos : 1 ≤ s.regs.n
  n_le : s.regs.n ≤ s.params.nmax
  mode_legal : legalMode s.regs.mode = true
  nch_eq : s.regs.nch = s.regs.mode.length
  hasw_eq : s.regs.hasw = (s.regs.nch == 4)
  bpw_eq : s.regs.bpw = if s.regs.nch = 4 then 32 else 24
  profile_eq : s.regs.profile = if s.regs.nch = 4 then .sk6812 else .ws2812
  lanes : ∀ p c, s.regs.mode[p]? = some c → (s.regs.sh.get c).toNat = 8 * (s.regs.nch - 1 - p)
  bright_pos : s.bright ≠ 0#8
  in_array : ∀ i, s.regs.n ≤ i → Memory.read s.w i = 0#32
  top_lane : s.regs.nch = 3 → ∀ i, (Memory.read s.w i).extractLsb' 24 8 = 0#8

/-- What holds of the transmitter: BUSY and the line follow the phase (R20, R21, R25 (f)), and while a bit or the latch is
being sent its position and its count are those of a frame in progress (R19, R139). -/
structure TxConsistent (s : State) : Prop where
  busy_eq : s.busy = busyFlag s.tx.phase
  line_eq : s.line = lineLevel s.tx.phase
  cfg_of_busy : s.busy = true → s.cfg = true
  sending : s.tx.phase = .high ∨ s.tx.phase = .low →
    s.tx.idx < s.regs.n ∧ s.tx.bit < s.regs.bpw ∧ s.tx.sr = Memory.read s.w s.tx.idx ∧ 1 ≤ s.tx.cnt
  high_cnt : s.tx.phase = .high → s.tx.cnt ≤ bitHi s.timing (s.tx.sr.getLsbD s.tx.bit)
  low_cnt : s.tx.phase = .low → s.tx.cnt ≤ bitLo s.timing (s.tx.sr.getLsbD s.tx.bit)
  latching : s.tx.phase = .latch → s.tx.idx = s.regs.n ∧ 1 ≤ s.tx.cnt ∧ s.tx.cnt ≤ s.regs.rdly.toNat

/-- The invariant that every step keeps. -/
structure StateInv (s : State) : Prop where
  mem_wf : Memory.wf s.w = true
  params : Params.InRange s.params
  tx : TxConsistent s
  configured : s.cfg = true → Configured s

/-- A state without what is observation only: the traces and the responses given (R21, R22). -/
def State.eraseObs (s : State) : State := { s with st := [], lt := [], out := [] }

/-- The command is a CONFIG. -/
def IsConfig (i : Instr) : Prop := ∃ unset numLeds mode brightness resetDelay,
  i = .config unset numLeds mode brightness resetDelay

/-- The block is free to take a command: no reset asked for, no frame in progress (R135, R190). -/
def State.Ready (s : State) : Prop := s.rst = false ∧ s.busy = false

/-- The header uses only the flags that the table of R52 lists for its opcode. -/
def FlagsUsed (h : Word) : Prop :=
  (hdrC4 h = true → hdrOp h = 3 ∨ hdrOp h = 4 ∨ hdrOp h = 5 ∨ hdrOp h = 7 ∨ hdrOp h = 8) ∧
  (hdrNone h = true → hdrOp h = 1 ∨ hdrOp h = 2 ∨ hdrOp h = 6) ∧
  (hdrDir h = true → hdrOp h = 6) ∧
  (hdrRev h = true → hdrOp h = 8) ∧
  (hdrRbw h = true → hdrOp h = 8)

/-- A header is ill-formed, in the words of R57. -/
def HeaderIllFormed (h : Word) : Prop :=
  (hdrOp h = 0 ∨ 0x0B ≤ (hdrOp h).toNat) ∨ hdrZero h ≠ 0 ∨ ¬ FlagsUsed h ∨
    (hdrCnt h ≠ 0 ∧ hdrOp h ≠ 8) ∨ (hdrCnt h = 0 ∧ hdrOp h = 8)

/-- The ASCII code of a channel letter (R54). -/
def chanCode : Chan → Byte
  | .r => 0x52
  | .g => 0x47
  | .b => 0x42
  | .w => 0x57

/-- The mode word of a mode string: the letters from bits 31:24 on, padded on the right with 0x00 (R54). -/
def modeWord (m : List Chan) : Word :=
  let byte : Nat → Byte := fun p => (m[p]?.map chanCode).getD 0
  byte 0 ++ byte 1 ++ byte 2 ++ byte 3

/-- A segment of a plan writes pixel `p`: it is not skipped and `p` lies in it (R117). -/
def Covers (g : PlanSeg) (p : Nat) : Prop := g.lo < g.hi ∧ g.lo ≤ p ∧ p ≤ g.hi

/-- What R116 asks of the plan that SGRAD_PLAN returns for the arguments, as the model reads it: the bounds of every segment and
their number, P2, P3 and P4 in the rule's words; ascending `k` strictly, P1 as a bound on the width of every segment but the
last of the list, and that one as the last segment (log 7). P5 asks nothing, and P6 is about the indices. -/
structure PlanMeets (n cnt : Nat) (endIndex : Int) (rev rainbow : Bool) (segs : List PlanSeg) : Prop where
  count : segs.length ≤ cnt
  bounds : ∀ g ∈ segs, g.k < cnt ∧ g.lo ≤ g.hi ∧ g.hi < n
  ascending : segs.Pairwise (fun g g' => g.k < g'.k)
  p1 : ∀ g ∈ segs.dropLast, (g.hi : Int) - g.lo ≤ (endIndex + 1) / (cnt : Int)
  p2 : ∀ g, segs.getLast? = some g → (g.hi : Int) ≤ endIndex
  p3 : rainbow = true → ∀ g ∈ segs, g.fwd = true
  p4 : rainbow = false → rev = false → ∀ g ∈ segs, (g.fwd = true ↔ g.k = 0)

/-- What the open parameter gives for the arguments: what is settled, or else the free value (R4, R116, log 6). -/
def PlanGiven (p : Params) (args : PlanArgs) (segs : List PlanSeg) : Prop :=
  p.plans.lookup args = some (some segs) ∨ (p.plans.lookup args = none ∧ Config.sgradPlan args = some segs)

/-- Each channel of `c` lies between those of `a` and `b` (R110, R117). -/
def Between (c a b : Colour) : Prop :=
  ∀ ch : Chan, min (a.get ch).toNat (b.get ch).toNat ≤ (c.get ch).toNat ∧
    (c.get ch).toNat ≤ max (a.get ch).toNat (b.get ch).toNat

end Sys2Proof.Machine
end

