-- ==== Sys2Proof/Certificates/Slice0/Obligations.lean ====
section
/-! DEFINITION. The statements about the model, for the provers. A rule cited here may rest on a decision that the spec took and
numbers (D1 to D37 of 92_eei_decisions.md): it is still the spec's rule. What the MODEL chose is named with its log entry, and
what the spec itself marks as derived is said to be so. -/

open Sys2Proof Sys2Proof.Machine

/-! ### Encoding -/

/-- Decoding the command words of a well-formed command, whatever follows them, gives it back with the rest (R51 to R58). -/
def Obligations.DecodeOfEncode : Prop :=
  ∀ (i : Instr) (rest : List Word), WellFormed i = true → decode (encode i ++ rest) = .done i rest

/-- Whatever the decoder reads as a command is well formed, and its words are the command's encoding: no command has a
second encoding (R51 to R57, D37). -/
def Obligations.EncodeOfDecode : Prop :=
  ∀ (ws : List Word) (i : Instr) (rest : List Word), decode ws = .done i rest →
    WellFormed i = true ∧ ws = encode i ++ rest

/-- R58: the length of a command is a function of its header word alone, with the lengths of the rule. -/
def Obligations.CommandLengthFromHeader : Prop :=
  ∃ len : Word → Nat, ∀ (h : Word) (ops : List Word) (i : Instr) (rest : List Word),
    decode (h :: ops) = .done i rest →
      (h :: ops).length = len h + rest.length ∧
      len h = match i with
        | .config .. => 5
        | .setbright .. => 2
        | .setpixel .. => 3
        | .setrange .. => 4
        | .fill .. => 2
        | .rotate .. => 2
        | .lgrad .. => 5
        | .sgrad _ _ _ _ _ colours => 3 + colours.length
        | .showFrame => 1
        | .readword .. => 2

/-- R57: the decoder rejects exactly the ill-formed headers, and a step on one raises CmdError, changes no state and takes
the header word only. -/
def Obligations.IllFormedHeaderIsCmdError : Prop :=
  ∀ (h : Word) (rest : List Word),
    ((∃ why, decode (h :: rest) = .illFormed why rest) ↔ HeaderIllFormed h) ∧
    ∀ s : State, s.Ready → s.port = h :: rest → HeaderIllFormed h →
      step s = .next { s with port := rest, out := s.out ++ [⟨.cmdError, 0#32⟩] }

/-- Words written out from the spec's encodings (R51 to R55, the examples of 30_encoding.md section 8 and V90). -/
def Obligations.SpecWordsDecode : Prop :=
  decode [0x01400000#32, 0x00000004#32, 0x47524200#32, 0x00000000#32, 0x00000190#32] =
    .done (.config true 4 0x47524200#32 0 400#32) [] ∧
  decode [0x02000000#32, 0x0000012C#32] = .done (.setbright false 300) [] ∧
  decode [0x03800000#32, 0x00000001#32, 0x11223344#32] = .done (.setpixel true 1 ⟨17#8, 34#8, 51#8, 68#8⟩) [] ∧
  decode [0x04000000#32, 0x00000003#32, 0x00000001#32, 0x0000FF00#32] =
    .done (.setrange false 3 1 ⟨0#8, 0#8, 255#8, 0#8⟩) [] ∧
  decode [0x05000000#32, 0x01020300#32] = .done (.fill false ⟨1#8, 2#8, 3#8, 0#8⟩) [] ∧
  decode [0x06000000#32, 0xFFFFFFFF#32] = .done (.rotate false false (-1)) [] ∧
  decode [0x06600000#32, 0x00000000#32] = .done (.rotate true true 0) [] ∧
  decode [0x07000000#32, 0x00000000#32, 0x00000002#32, 0x00000000#32, 0xFF000000#32] =
    .done (.lgrad false 0 2 ⟨0#8, 0#8, 0#8, 0#8⟩ ⟨255#8, 0#8, 0#8, 0#8⟩) [] ∧
  decode [0x08100002#32, 0x00000000#32, 0x0000001D#32, 0xFF000000#32, 0x0000FF00#32] =
    .done (.sgrad false true false 0 29 [⟨255#8, 0#8, 0#8, 0#8⟩, ⟨0#8, 0#8, 255#8, 0#8⟩]) [] ∧
  decode [0x09000000#32] = .done .showFrame [] ∧
  decode [0x0A000000#32, 0x00000002#32] = .done (.readword 2) []

/-! ### Steps, life cycle, errors -/

/-- A step of a block that is free to take a command, whose port starts with a command, runs it with its words consumed
(R50). -/
def Obligations.StepRunsDecodedCommand : Prop :=
  ∀ (s : State) (i : Instr) (rest : List Word), s.Ready → decode s.port = .done i rest →
    step s = exec i { s with port := rest }

/-- No step faults, and the only step refused is a hardware reset while a frame is going out: ordinary data never ends a
run (R165, R169; the refusal is R190's). -/
def Obligations.OnlyResetDuringFrameStops : Prop :=
  ∀ s : State, (∃ t, step s = .next t) ∨ (s.rst = true ∧ s.busy = true ∧ step s = .refused .resetWhileBusy)

/-- MODEL (log 1): with no command word there, or operand words missing, the block waits and keeps all its state (R176). -/
def Obligations.WaitsForHost : Prop :=
  ∀ s : State, s.Ready → decode s.port = .empty ∨ decode s.port = .truncated → step s = .next s

/-- R190: what a hardware reset does; after it only CONFIG is accepted; while a frame is going out it has no step. -/
def Obligations.HardwareResetEffect : Prop :=
  (∀ s : State, s.rst = true → s.busy = false → ∃ t, step s = .next t ∧
    t.cfg = false ∧ t.tx.phase = .idle ∧ t.line = false ∧ t.busy = false ∧ t.st = [] ∧ t.lt = [] ∧
    ∀ i : Instr, ¬ IsConfig i → exec i t = .next { t with out := t.out ++ [⟨.cmdError, 0#32⟩] }) ∧
  (∀ s : State, s.rst = true → s.busy = true → step s = .refused .resetWhileBusy) ∧
  State.reset.cfg = false ∧ State.reset.tx.phase = .idle ∧ State.reset.line = false ∧ State.reset.busy = false ∧
    State.reset.st = [] ∧ State.reset.lt = []

/-- R166: CmdError is raised by an ill-formed header, by a command other than CONFIG before construction and by CONFIG after
it, and by no other command. -/
def Obligations.CmdErrorExactly : Prop :=
  (∀ (i : Instr) (s : State),
    exec i s = .next { s with out := s.out ++ [⟨.cmdError, 0#32⟩] } ↔
      (s.cfg = false ∧ ¬ IsConfig i) ∨ (s.cfg = true ∧ IsConfig i)) ∧
  ∀ (s : State) (h : Word) (rest : List Word), s.Ready → s.port = h :: rest → HeaderIllFormed h →
    step s = .next { s with port := rest, out := s.out ++ [⟨.cmdError, 0#32⟩] }

/-- R161: ConfigError is raised only by CONFIG, when the count is not positive, exceeds NMAX or the mode is not legal; then
nothing is constructed. -/
def Obligations.ConfigErrorExactly : Prop :=
  (∀ (unset : Bool) (numLeds : Int) (mode : Word) (brightness : Int) (resetDelay : Word) (s : State), s.cfg = false →
    (exec (.config unset numLeds mode brightness resetDelay) s =
        .next { s with out := s.out ++ [⟨.configError, 0#32⟩] } ↔
      numLeds ≤ 0 ∨ (s.params.nmax : Int) < numLeds ∨ validMode mode = none)) ∧
  ∀ (i : Instr) (s t : State) (ret : Word), exec i s = .next t → t.out = s.out ++ [⟨.configError, ret⟩] →
    IsConfig i ∧ s.cfg = false ∧ t.cfg = false

/-- R165: after an error nothing but the response differs, and the response carries `ret = 0`; after IoError the word array,
BRIGHT and the configuration are unchanged. -/
def Obligations.ErrorsChangeNothing : Prop :=
  ∀ (i : Instr) (s t : State) (e : Status) (ret : Word), exec i s = .next t → t.out = s.out ++ [⟨e, ret⟩] → e ≠ .ok →
    ret = 0#32 ∧
    (e ≠ .ioError → t = { s with out := t.out }) ∧
    (e = .ioError → t.w = s.w ∧ t.bright = s.bright ∧ t.cfg = s.cfg ∧ t.regs = s.regs)

/-- Which command can raise which error (R162, R163, R164 and the table of 60_exceptions.md). -/
def Obligations.WhoRaisesWhat : Prop :=
  ∀ (i : Instr) (s t : State) (e : Status) (ret : Word), exec i s = .next t → t.out = s.out ++ [⟨e, ret⟩] →
    (e = .indexError → ∃ index : Int, (index < 0 ∨ (s.regs.n : Int) ≤ index) ∧
      ((∃ c4 colour, i = .setpixel c4 index colour) ∨ i = .readword index)) ∧
    (e = .invalidRangeError → (∃ c4 f l colour, i = .setrange c4 f l colour) ∨ (∃ c4 f l a b, i = .lgrad c4 f l a b) ∨
      (∃ c4 rev rbw f l colours, i = .sgrad c4 rev rbw f l colours)) ∧
    (e = .ioError → i = .showFrame ∧ ∃ m late, s.ioAnswer = .fail m late)

/-- R56: the status codes; every command ends with one response (in tick grain SHOW responds when its frame ends); `ret` is
the brightness after the command for SETBRIGHT, the word read for READWORD, and 0 for every other command and for every
error. -/
def Obligations.EveryCommandOneResponse : Prop :=
  (Status.code .ok = 0#8 ∧ Status.code .configError = 1#8 ∧ Status.code .indexError = 2#8 ∧
    Status.code .invalidRangeError = 3#8 ∧ Status.code .ioError = 4#8 ∧ Status.code .cmdError = 5#8) ∧
  ∀ (i : Instr) (s : State), (i = .showFrame → s.cfg = true → s.grain = .symbol) →
    ∃ (t : State) (e : Status) (ret : Word), exec i s = .next t ∧ t.out = s.out ++ [⟨e, ret⟩] ∧
      (e ≠ .ok → ret = 0#32) ∧
      (e = .ok → match i with
        | .setbright _ _ => ret = t.bright.setWidth 32
        | .readword index => ret = Memory.read s.w index.toNat
        | _ => ret = 0#32)

/-! ### Construction and brightness -/

/-- R70: when CONFIG fails, and with what; what a successful CONFIG writes, and that it leaves everything else but the
transmitter's other registers (unspecified, R24, log 11). Of SH it says what the letters of MODE get; the field of an absent
letter is `AbsentLetterKeepsLane`. -/
def Obligations.ConfigConstructs : Prop :=
  (∀ (unset : Bool) (numLeds : Int) (mode : Word) (brightness : Int) (resetDelay : Word) (s : State),
    (s.cfg = true → exec (.config unset numLeds mode brightness resetDelay) s =
      .next { s with out := s.out ++ [⟨.cmdError, 0#32⟩] }) ∧
    (s.cfg = false → numLeds ≤ 0 ∨ (s.params.nmax : Int) < numLeds ∨ validMode mode = none →
      exec (.config unset numLeds mode brightness resetDelay) s =
        .next { s with out := s.out ++ [⟨.configError, 0#32⟩] })) ∧
  ∀ (unset : Bool) (numLeds : Int) (mode : Word) (brightness : Int) (resetDelay : Word) (s : State) (m : List Chan),
    s.cfg = false → 0 < numLeds → numLeds ≤ s.params.nmax → validMode mode = some m →
    ∃ t, exec (.config unset numLeds mode brightness resetDelay) s = .next t ∧
      t.cfg = true ∧ (t.regs.n : Int) = numLeds ∧ t.regs.mode = m ∧ t.regs.nch = m.length ∧
      (t.regs.hasw = true ↔ m.length = 4) ∧ t.regs.bpw = (if m.length = 4 then 32 else 24) ∧
      (∀ p c, m[p]? = some c → (t.regs.sh.get c).toNat = 8 * (m.length - 1 - p)) ∧
      t.regs.rdly = resetDelay ∧ t.regs.profile = (if m.length = 4 then .sk6812 else .ws2812) ∧
      (t.bright.toNat : Int) = (if unset then 255 else max 1 (min 255 brightness)) ∧
      (∀ a, Memory.read t.w a = 0#32) ∧ t.w = [] ∧
      t.tx.phase = .idle ∧ t.line = false ∧ t.busy = false ∧ t.st = [] ∧ t.lt = [] ∧
      t.out = s.out ++ [⟨.ok, 0#32⟩] ∧
      t.port = s.port ∧ t.ioPlan = s.ioPlan ∧ t.rst = s.rst ∧ t.grain = s.grain ∧ t.params = s.params

/-- R71 with R54: `ValidMode` holds exactly of the mode words of the permutations of R, G, B and of R, G, B, W, and finds the
mode. -/
def Obligations.ValidModeExactly : Prop :=
  (∀ (x : Word) (m : List Chan), validMode x = some m ↔
    x = modeWord m ∧ (m.Perm [.r, .g, .b] ∨ m.Perm [.r, .g, .b, .w])) ∧
  ([Chan.r, .g, .b].permutations ++ [Chan.r, .g, .b, .w].permutations).length = 30

/-- R32: in the lane table of every legal mode, the letter at position `p` of `L` has the shift `8 * (L - 1 - p)`, which for four
letters is the XOR form. -/
def Obligations.LaneRule : Prop :=
  ∀ (m : List Chan) (old : ShiftTable) (p : Nat) (c : Chan), legalMode m = true → m[p]? = some c →
    ((shiftsFor m old).get c).toNat = 8 * (m.length - 1 - p) ∧
    (m.length = 4 → ((shiftsFor m old).get c).toNat = (p ^^^ 3) * 8)

/-- R72: SETBRIGHT clamps, answers the brightness after the command, and changes nothing else; the query changes nothing. -/
def Obligations.SetbrightEffect : Prop :=
  ∀ (unset : Bool) (value : Int) (s : State),
    (s.cfg = false → exec (.setbright unset value) s = .next { s with out := s.out ++ [⟨.cmdError, 0#32⟩] }) ∧
    (s.cfg = true → unset = true →
      exec (.setbright unset value) s = .next { s with out := s.out ++ [⟨.ok, s.bright.setWidth 32⟩] }) ∧
    (s.cfg = true → unset = false → ∃ b : Byte, (b.toNat : Int) = max 1 (min 255 value) ∧
      exec (.setbright unset value) s = .next { s with bright := b, out := s.out ++ [⟨.ok, b.setWidth 32⟩] })

/-! ### Arithmetic and the pack engine -/

/-- R7: `rne` is a nearest integer, and the even one at a tie. -/
def Obligations.RneIsNearestEven : Prop :=
  ∀ (num : Int) (den : Nat), 1 ≤ den →
    2 * |num - den * rne num den| ≤ den ∧ (2 * |num - den * rne num den| = den → rne num den % 2 = 0)

/-- R81: the closed form of `scale`, its laws (the spec's own inference, "Laws [derived]"), and that it is what the 8-bit
operation holds. -/
def Obligations.ScaleIsExact : Prop :=
  ∀ c b : Nat, c ≤ 255 → 1 ≤ b → b ≤ 255 →
    scaleInt c b = rne ((c : Int) * b) 255 ∧
    scaleInt c b = ((2 * c * b + 255) / 510 : Nat) ∧
    (∀ k : Int, 2 * ((c : Int) * b) ≠ 255 * (2 * k + 1)) ∧
    0 ≤ scaleInt c b ∧ scaleInt c b ≤ c ∧
    scaleInt c 255 = c ∧ scaleInt 0 b = 0 ∧ scaleInt 255 b = b ∧
    (∀ c', c ≤ c' → c' ≤ 255 → scaleInt c b ≤ scaleInt c' b) ∧
    (∀ b', b ≤ b' → b' ≤ 255 → scaleInt c b ≤ scaleInt c b') ∧
    scaleInt c 1 = (if c ≤ 127 then 0 else 1) ∧
    ((scale (BitVec.ofNat 8 c) (BitVec.ofNat 8 b)).toNat : Int) = scaleInt c b

/-- R110: the laws of `lerp` (the spec's own inference, "Laws [derived]"), its ties, and that it is what the 8-bit operation
holds. -/
def Obligations.LerpLaws : Prop :=
  (∀ a b j d : Nat, a ≤ 255 → b ≤ 255 → j ≤ d → 1 ≤ d →
    lerpInt a b j d = rne ((a : Int) * d + ((b : Int) - a) * j) d ∧
    lerpInt a b 0 d = a ∧ lerpInt a b d d = b ∧ lerpInt a a j d = a ∧
    (min a b : Nat) ≤ lerpInt a b j d ∧ lerpInt a b j d ≤ (max a b : Nat) ∧
    (∀ j', j ≤ j' → j' ≤ d →
      (a ≤ b → lerpInt a b j d ≤ lerpInt a b j' d) ∧ (b ≤ a → lerpInt a b j' d ≤ lerpInt a b j d)) ∧
    ((lerp (BitVec.ofNat 8 a) (BitVec.ofNat 8 b) j d).toNat : Int) = lerpInt a b j d) ∧
  lerpInt 0 255 1 2 = 128 ∧ lerpInt 0 1 1 2 = 0 ∧ lerpInt 2 3 1 2 = 2 ∧ lerpInt 0 45 7 10 = 32

/-- R84: unpacking a packed word gives each channel of the mode scaled, W being 0 when the colour does not carry it; at
brightness 255 it gives the colour itself. -/
def Obligations.UnpackOfPack : Prop :=
  ∀ (s : State) (c4 : Bool) (col : Colour), Configured s →
    unpack s.regs.sh s.regs.hasw (s.pack c4 col) =
      (scale col.r s.bright, scale col.g s.bright, scale col.b s.bright,
        if s.regs.hasw then some (if c4 then scale col.w s.bright else 0#8) else none) ∧
    (s.bright = 255#8 → unpack s.regs.sh s.regs.hasw (s.pack c4 col) =
      (col.r, col.g, col.b, if s.regs.hasw then some (if c4 then col.w else 0#8) else none))

/-- R80, R200: a fourth channel given to an RGB buffer is ignored, and no channel-count mismatch raises an error: the command
does what it does with the other count. -/
def Obligations.FourthChannelIgnoredOnRgb : Prop :=
  ∀ (s : State) (index first last : Int) (col a b : Colour) (rev rbw : Bool) (cols : List Colour), s.regs.hasw = false →
    exec (.setpixel true index col) s = exec (.setpixel false index col) s ∧
    exec (.setrange true first last col) s = exec (.setrange false first last col) s ∧
    exec (.fill true col) s = exec (.fill false col) s ∧
    exec (.lgrad true first last a b) s = exec (.lgrad false first last a b) s ∧
    exec (.sgrad true rev rbw first last cols) s = exec (.sgrad false rev rbw first last cols) s

/-- R53, R55: the content of an unset operand and the low byte of a 3-channel colour are ignored. -/
def Obligations.IgnoredOperands : Prop :=
  ∀ (s : State) (numLeds x y index first last : Int) (mode delay : Word) (right rev rbw : Bool) (col a b : Colour)
    (cols : List Colour) (u v : Byte),
    exec (.config true numLeds mode x delay) s = exec (.config true numLeds mode y delay) s ∧
    exec (.setbright true x) s = exec (.setbright true y) s ∧
    exec (.rotate true right x) s = exec (.rotate true right y) s ∧
    exec (.setpixel false index { col with w := u }) s = exec (.setpixel false index col) s ∧
    exec (.setrange false first last { col with w := u }) s = exec (.setrange false first last col) s ∧
    exec (.fill false { col with w := u }) s = exec (.fill false col) s ∧
    exec (.lgrad false first last { a with w := u } { b with w := v }) s = exec (.lgrad false first last a b) s ∧
    exec (.sgrad false rev rbw first last (cols.map fun c => { c with w := u })) s =
      exec (.sgrad false rev rbw first last cols) s

/-! ### Pixel commands -/

/-- R85: SETPIXEL stores `Pack(color)` at the index and nothing else; an index outside [0, N) is an IndexError. -/
def Obligations.SetpixelEffect : Prop :=
  ∀ (c4 : Bool) (index : Int) (col : Colour) (s : State), Memory.wf s.w = true →
    (s.cfg = false → exec (.setpixel c4 index col) s = .next { s with out := s.out ++ [⟨.cmdError, 0#32⟩] }) ∧
    (s.cfg = true → index < 0 ∨ (s.regs.n : Int) ≤ index →
      exec (.setpixel c4 index col) s = .next { s with out := s.out ++ [⟨.indexError, 0#32⟩] }) ∧
    (s.cfg = true → 0 ≤ index → index < s.regs.n → ∃ m,
      exec (.setpixel c4 index col) s = .next { s with w := m, out := s.out ++ [⟨.ok, 0#32⟩] } ∧
      ∀ a : Nat, Memory.read m a = if (a : Int) = index then s.pack c4 col else Memory.read s.w a)

/-- R86: SETRANGE stores one word at every index between the endpoints, in either order, and nothing else; an endpoint
outside [0, N) is an InvalidRangeError before any write. -/
def Obligations.SetrangeEffect : Prop :=
  ∀ (c4 : Bool) (first last : Int) (col : Colour) (s : State), Memory.wf s.w = true →
    (s.cfg = false → exec (.setrange c4 first last col) s = .next { s with out := s.out ++ [⟨.cmdError, 0#32⟩] }) ∧
    (s.cfg = true → first < 0 ∨ (s.regs.n : Int) ≤ first ∨ last < 0 ∨ (s.regs.n : Int) ≤ last →
      exec (.setrange c4 first last col) s = .next { s with out := s.out ++ [⟨.invalidRangeError, 0#32⟩] }) ∧
    (s.cfg = true → 0 ≤ first → first < s.regs.n → 0 ≤ last → last < s.regs.n → ∃ m,
      exec (.setrange c4 first last col) s = .next { s with w := m, out := s.out ++ [⟨.ok, 0#32⟩] } ∧
      ∀ a : Nat, Memory.read m a =
        if min first last ≤ (a : Int) ∧ (a : Int) ≤ max first last then s.pack c4 col else Memory.read s.w a)

/-- R87: FILL stores one word at every index of [0, N) and nothing else. That it equals SETRANGE 0, N-1 is `FillIsSetrangeAll`. -/
def Obligations.FillEffect : Prop :=
  ∀ (c4 : Bool) (col : Colour) (s : State), Memory.wf s.w = true →
    (s.cfg = false → exec (.fill c4 col) s = .next { s with out := s.out ++ [⟨.cmdError, 0#32⟩] }) ∧
    (s.cfg = true → ∃ m,
      exec (.fill c4 col) s = .next { s with w := m, out := s.out ++ [⟨.ok, 0#32⟩] } ∧
      ∀ a : Nat, Memory.read m a = if a < s.regs.n then s.pack c4 col else Memory.read s.w a)

/-- R88: READWORD answers the stored word and changes nothing; an index outside [0, N) is an IndexError. -/
def Obligations.ReadwordEffect : Prop :=
  ∀ (index : Int) (s : State),
    (s.cfg = false → exec (.readword index) s = .next { s with out := s.out ++ [⟨.cmdError, 0#32⟩] }) ∧
    (s.cfg = true → index < 0 ∨ (s.regs.n : Int) ≤ index →
      exec (.readword index) s = .next { s with out := s.out ++ [⟨.indexError, 0#32⟩] }) ∧
    (s.cfg = true → 0 ≤ index → index < s.regs.n →
      exec (.readword index) s = .next { s with out := s.out ++ [⟨.ok, Memory.read s.w index.toNat⟩] })

/-- What SETPIXEL stores, READWORD reads back, whatever the brightness has become (R83, R193): the stored word keeps the
scale it was written with. -/
def Obligations.BrightnessBakedIn : Prop :=
  ∀ (c4 : Bool) (index value : Int) (col : Colour) (s : State), StateInv s → s.cfg = true → 0 ≤ index → index < s.regs.n →
    ∃ t u v, exec (.setpixel c4 index col) s = .next t ∧ exec (.setbright false value) t = .next u ∧
      exec (.readword index) u = .next v ∧ v.out = u.out ++ [⟨.ok, s.pack c4 col⟩]

/-! ### Rotation -/

/-- R100: where ROTATE moves every word: left by `k0` takes index `i` from `(i + k0) mod N`, right from `(i - k0) mod N`,
`k0` being the offset, or 1 when it is unset or 0. -/
def Obligations.RotateEffect : Prop :=
  ∀ (unset right : Bool) (offset : Int) (s : State), Memory.wf s.w = true →
    (s.cfg = false → exec (.rotate unset right offset) s = .next { s with out := s.out ++ [⟨.cmdError, 0#32⟩] }) ∧
    (s.cfg = true → ∃ m,
      exec (.rotate unset right offset) s = .next { s with w := m, out := s.out ++ [⟨.ok, 0#32⟩] } ∧
      ∀ k0 : Int, k0 = (if unset = true ∨ offset = 0 then 1 else offset) → ∀ i : Nat,
        Memory.read m i =
          if i < s.regs.n then
            Memory.read s.w (((if right then (i : Int) - k0 else (i : Int) + k0) % (s.regs.n : Int)).toNat)
          else Memory.read s.w i)

/-- R101 (a), (b), (d): a rotation permutes the words; left by `k` and then right by `k`, for every `k`, restores the array;
right by `k` is left by `-k` for every `k` but 0. -/
def Obligations.RotateInverse : Prop :=
  ∀ (k : Int) (s : State), StateInv s → s.cfg = true →
    (∃ t u, exec (.rotate false false k) s = .next t ∧ exec (.rotate false true k) t = .next u ∧ u.w = s.w ∧
      ((List.range s.regs.n).map (Memory.read t.w)).Perm ((List.range s.regs.n).map (Memory.read s.w))) ∧
    (k ≠ 0 → exec (.rotate false true k) s = exec (.rotate false false (-k)) s)

/-- R101 (c): left by `a` and then left by `b` is a left rotation by the sum modulo N, 0 standing for 1 in each. -/
def Obligations.RotateComposes : Prop :=
  ∀ (a b : Int) (s : State), StateInv s → s.cfg = true →
    ∃ t u, exec (.rotate false false a) s = .next t ∧ exec (.rotate false false b) t = .next u ∧
      ∀ i : Nat, i < s.regs.n → Memory.read u.w i =
        Memory.read s.w (((i : Int) + ((if a = 0 then 1 else a) + (if b = 0 then 1 else b))) % (s.regs.n : Int)).toNat

/-! ### Gradients -/

/-- R111: LGRAD's tests in their order, its no-op, and what it stores: colour A at the lower index, each channel interpolated
and then packed. -/
def Obligations.LgradEffect : Prop :=
  ∀ (c4 : Bool) (f l : Int) (a b : Colour) (s : State), Memory.wf s.w = true →
    (s.cfg = false → exec (.lgrad c4 f l a b) s = .next { s with out := s.out ++ [⟨.cmdError, 0#32⟩] }) ∧
    (s.cfg = true → f < 0 ∨ (s.regs.n : Int) ≤ f ∨ l < 0 ∨ (s.regs.n : Int) ≤ l →
      exec (.lgrad c4 f l a b) s = .next { s with out := s.out ++ [⟨.invalidRangeError, 0#32⟩] }) ∧
    (s.cfg = true → 0 ≤ f → f < s.regs.n → f = l →
      exec (.lgrad c4 f l a b) s = .next { s with out := s.out ++ [⟨.ok, 0#32⟩] }) ∧
    (s.cfg = true → 0 ≤ f → f < s.regs.n → 0 ≤ l → l < s.regs.n → f ≠ l → ∃ m,
      exec (.lgrad c4 f l a b) s = .next { s with w := m, out := s.out ++ [⟨.ok, 0#32⟩] } ∧
      (∀ i : Nat, (i : Int) < min f l ∨ max f l < (i : Int) → Memory.read m i = Memory.read s.w i) ∧
      ∀ i j d : Nat, (i : Int) = min f l + j → (d : Int) = max f l - min f l → j ≤ d →
        Memory.read m i = s.pack c4 ⟨lerp a.r b.r j d, lerp a.g b.g j d, lerp a.b b.b j d, lerp a.w b.w j d⟩)

/-- R111, R198: swapping the indices changes nothing; the end pixels hold exactly `Pack(colorA)` and `Pack(colorB)`; equal
colours give a constant span. -/
def Obligations.LgradSymmetryAndEnds : Prop :=
  ∀ (c4 : Bool) (f l : Int) (a b : Colour) (s : State), Memory.wf s.w = true →
    exec (.lgrad c4 f l a b) s = exec (.lgrad c4 l f a b) s ∧
    (s.cfg = true → 0 ≤ f → f < l → l < s.regs.n →
      (∃ t, exec (.lgrad c4 f l a b) s = .next t ∧
        Memory.read t.w f.toNat = s.pack c4 a ∧ Memory.read t.w l.toNat = s.pack c4 b) ∧
      ∃ t, exec (.lgrad c4 f l a a) s = .next t ∧
        ∀ i : Nat, f ≤ (i : Int) → (i : Int) ≤ l → Memory.read t.w i = s.pack c4 a)

/-- When SGRAD_PLAN is a list of segments, and which (R116): exactly when both indices are in [0, N) and the open parameter gives
a list that meets the constraints, and then it is that list; so it is invalid when an index is outside. Whatever the parameter
is, a plan has at most `n` segments inside the array, with the directions of P3 and P4. The model's own: that a parameter which
breaks the constraints counts as invalid (log 6), the width of P1, that ascending `k` is strict, and that the last segment is the
last of the list (log 7). -/
def Obligations.SgradPlanConstraints : Prop :=
  ∀ (p : Params) (n cnt : Nat) (f l : Int) (rev rainbow : Bool),
    (f < 0 ∨ (n : Int) ≤ f ∨ l < 0 ∨ (n : Int) ≤ l → sgradPlan p n cnt f l rev rainbow = none) ∧
    ∀ segs, sgradPlan p n cnt f l rev rainbow = some segs ↔
      0 ≤ f ∧ f < n ∧ 0 ≤ l ∧ l < n ∧ PlanGiven p ⟨n, cnt, f, l, rev, rainbow⟩ segs ∧
        PlanMeets n cnt l rev rainbow segs

/-- R117: SGRAD answers InvalidRangeError, with nothing written, exactly when the plan is invalid; otherwise every pixel
holds what the last segment that covers it interpolates between the colours of its pair, in its direction, and every pixel
that no segment covers is unchanged. -/
def Obligations.SgradEffect : Prop :=
  ∀ (c4 rev rbw : Bool) (f l : Int) (cols : List Colour) (s : State), Memory.wf s.w = true →
    (s.cfg = false → exec (.sgrad c4 rev rbw f l cols) s = .next { s with out := s.out ++ [⟨.cmdError, 0#32⟩] }) ∧
    (s.cfg = true → ∀ plan, plan = sgradPlan s.params s.regs.n cols.length f l rev (rbw || cols.length == 4) →
      (plan = none →
        exec (.sgrad c4 rev rbw f l cols) s = .next { s with out := s.out ++ [⟨.invalidRangeError, 0#32⟩] }) ∧
      ∀ segs, plan = some segs → ∃ m,
        exec (.sgrad c4 rev rbw f l cols) s = .next { s with w := m, out := s.out ++ [⟨.ok, 0#32⟩] } ∧
        (∀ p : Nat, (∀ g ∈ segs, ¬ Covers g p) → Memory.read m p = Memory.read s.w p) ∧
        ∀ (pre post : List PlanSeg) (g : PlanSeg) (p : Nat) (ca cb : Colour), segs = pre ++ g :: post → Covers g p →
          (∀ g' ∈ post, ¬ Covers g' p) →
          cols[g.k]? = some (if g.fwd then ca else cb) →
          cols[(g.k + 1) % cols.length]? = some (if g.fwd then cb else ca) →
          Memory.read m p = s.pack c4
            ⟨lerp ca.r cb.r (p - g.lo) (g.hi - g.lo), lerp ca.g cb.g (p - g.lo) (g.hi - g.lo),
              lerp ca.b cb.b (p - g.lo) (g.hi - g.lo), lerp ca.w cb.w (p - g.lo) (g.hi - g.lo)⟩)

/-- What can be said of SGRAD without the plan (R117): it completes with OK or InvalidRangeError, never touches a pixel
outside [0, N), is an InvalidRangeError when an index is outside [0, N), writes only words that are `Pack` of a colour whose
channels lie between those of two neighbouring list colours, and with all colours equal to `A` every word it writes is
`Pack(A)`. -/
def Obligations.SgradWithoutPlan : Prop :=
  ∀ (c4 rev rbw : Bool) (f l : Int) (cols : List Colour) (a : Colour) (s : State), Memory.wf s.w = true →
    s.cfg = true → ∃ m e, exec (.sgrad c4 rev rbw f l cols) s = .next { s with w := m, out := s.out ++ [⟨e, 0#32⟩] } ∧
      (e = .ok ∨ e = .invalidRangeError) ∧
      (f < 0 ∨ (s.regs.n : Int) ≤ f ∨ l < 0 ∨ (s.regs.n : Int) ≤ l → e = .invalidRangeError) ∧
      (e = .invalidRangeError → m = s.w) ∧
      (∀ p : Nat, s.regs.n ≤ p → Memory.read m p = Memory.read s.w p) ∧
      (∀ p : Nat, Memory.read m p = Memory.read s.w p ∨
        ∃ (k : Nat) (c ca cb : Colour), cols[k]? = some ca ∧ cols[(k + 1) % cols.length]? = some cb ∧ Between c ca cb ∧
          Memory.read m p = s.pack c4 c) ∧
      ((∀ c ∈ cols, c = a) → ∀ p : Nat, Memory.read m p = Memory.read s.w p ∨ Memory.read m p = s.pack c4 a)

/-! ### SHOW -/

/-- R132, R138: the waveform of each symbol for any timing triple, and the constants of profile WS2812. -/
def Obligations.SymbolWaveforms : Prop :=
  (∀ t : Timing,
    symbolSegs t .zero = [⟨true, t.t3⟩, ⟨false, t.t1 + t.t2⟩] ∧
    symbolSegs t .one = [⟨true, t.t3 + t.t1⟩, ⟨false, t.t2⟩] ∧
    (∀ d, symbolSegs t (.latch d) = [⟨false, d⟩]) ∧
    ticksOf (symbolSegs t .zero) = t.t1 + t.t2 + t.t3 ∧ ticksOf (symbolSegs t .one) = t.t1 + t.t2 + t.t3) ∧
  (∀ s : State, s.regs.profile = .ws2812 → s.timing = ⟨2, 5, 3⟩) ∧
  (∀ s : State, s.regs.profile = .sk6812 → s.timing = s.params.sk6812)

/-- R131, R33: the bit symbols of a frame: `N * BPW` of them, words in rising index, in each word bit BPW-1 first. -/
def Obligations.FrameBits : Prop :=
  ∀ s : State, s.frame.length = s.regs.n * s.regs.bpw ∧
    ∀ i b : Nat, i < s.regs.n → b < s.regs.bpw →
      s.frame[i * s.regs.bpw + (s.regs.bpw - 1 - b)]? =
        some (if (Memory.read s.w i).getLsbD b then .one else .zero)

/-- R130: SHOW in symbol grain. When the transmit fails: IoError, no latch, `W` unchanged, BUSY back at 0. When it goes
through: the frame and the latch are emitted, also with `RDLY = 0`,
the answer is OK, and of the rest only the transmitter's registers (idle; else unspecified, log 11) and the collaborator's
answer used up differ. -/
def Obligations.ShowSendsFrame : Prop :=
  ∀ s : State,
    (s.cfg = false → exec .showFrame s = .next { s with out := s.out ++ [⟨.cmdError, 0#32⟩] }) ∧
    (∀ m late, s.cfg = true → s.grain = .symbol → s.ioAnswer = .fail m late → ∃ t, exec .showFrame s = .next t ∧
      t.out = s.out ++ [⟨.ioError, 0#32⟩] ∧ t.busy = false ∧ t.w = s.w ∧ ∀ d, .latch d ∉ t.st.drop s.st.length) ∧
    (s.cfg = true → s.grain = .symbol → s.ioAnswer = .sent → ∃ (regs : TxRegs) (used : Nat), regs.phase = .idle ∧
      exec .showFrame s = .next { s with
        st := s.st ++ s.frame ++ [.latch s.regs.rdly.toNat]
        lt := s.lt ++ segsOf s.timing s.frame ++ [⟨false, s.regs.rdly.toNat⟩]
        tx := regs
        line := false
        busy := false
        freeCtr := used
        ioPlan := s.ioPlan.tail
        out := s.out ++ [⟨.ok, 0#32⟩] })

/-- R136: SHOW in symbol grain, when the collaborator reports a failure after `m` bit symbols: exactly those are in the
traces, no latch, the line low, IoError, and the array, BRIGHT and the configuration as before. -/
def Obligations.ShowFails : Prop :=
  ∀ (s : State) (m late : Nat), s.cfg = true → s.grain = .symbol → s.ioAnswer = .fail m late →
    m ≤ s.regs.n * s.regs.bpw →
    ∃ (sent : List Symbol) (regs : TxRegs) (used : Nat), sent.length = m ∧ sent <+: s.frame ∧ regs.phase = .idle ∧
      exec .showFrame s = .next { s with
        st := s.st ++ sent
        lt := s.lt ++ segsOf s.timing sent
        tx := regs
        line := false
        busy := false
        freeCtr := used
        ioPlan := s.ioPlan.tail
        out := s.out ++ [⟨.ioError, 0#32⟩] }

/-- R140 (the spec's own inference, "derived: from rules R132, R134"): a frame and its latch last
`N * BPW * (T1 + T2 + T3) + RDLY` ticks. -/
def Obligations.ShowDuration : Prop :=
  ∀ s t : State, s.cfg = true → s.grain = .symbol → s.ioAnswer = .sent → exec .showFrame s = .next t →
    ∃ added, t.lt = s.lt ++ added ∧
      ticksOf added = s.regs.n * s.regs.bpw * (s.timing.t1 + s.timing.t2 + s.timing.t3) + s.regs.rdly.toNat

/-- The tick machine refines the symbol-level SHOW (R139): after `N * BPW * (T1 + T2 + T3) + RDLY` ticks from acceptance it has
done exactly what the one step does, and it is busy at every tick before. -/
def Obligations.TickMachineRefinesShow : Prop :=
  ∀ s : State, StateInv s → s.cfg = true → s.busy = false → s.grain = .tick → s.ioAnswer = .sent →
    ∃ a t, exec .showFrame s = .next a ∧ exec .showFrame { s with grain := .symbol } = .next t ∧
      ticks s.showTicks a = { t with grain := .tick } ∧
      ∀ k, k < s.showTicks → (ticks k a).busy = true

/-- The same for a transmit that fails (R136, R139). The collaborator may report the failure at any tick of the SHOW: `late` ticks
after the end of the `m`-th symbol, before the next is complete, or, after the last, before the latch is over. At that tick the
tick machine has done exactly what the one step does, and it is busy at every tick before. How the tick of the report belongs
to `m` is the model's choice, log 12. -/
def Obligations.TickMachineRefinesFailedShow : Prop :=
  ∀ (s : State) (m late : Nat), StateInv s → s.cfg = true → s.busy = false → s.grain = .tick → s.ioAnswer = .fail m late →
    (m < s.regs.n * s.regs.bpw ∧ late < s.timing.t1 + s.timing.t2 + s.timing.t3) ∨
      (m = s.regs.n * s.regs.bpw ∧ late ≤ s.regs.rdly.toNat) →
    ∃ a t, exec .showFrame s = .next a ∧ exec .showFrame { s with grain := .symbol } = .next t ∧
      ticks (m * (s.timing.t1 + s.timing.t2 + s.timing.t3) + late) a = { t with grain := .tick } ∧
      ∀ k, k < m * (s.timing.t1 + s.timing.t2 + s.timing.t3) + late → (ticks k a).busy = true

/-- R139: the level of the line over the ticks of one SHOW is the level of the segments of its frame and latch: to the response
when the transmit goes through (these are the segments that SHOW appends), and to the report, after which the line is low, when
it fails (a symbol that the report cuts short has then been on the line in part; log 12). -/
def Obligations.LineFollowsLevelTrace : Prop :=
  ∀ s a : State, StateInv s → s.cfg = true → s.busy = false → s.grain = .tick → exec .showFrame s = .next a →
    (s.ioAnswer = .sent → ∀ k, k < s.showTicks →
      (ticks k a).line = levelAt (segsOf s.timing (s.frame ++ [.latch s.regs.rdly.toNat])) k) ∧
    ∀ m late, s.ioAnswer = .fail m late →
      (m < s.regs.n * s.regs.bpw ∧ late < s.timing.t1 + s.timing.t2 + s.timing.t3) ∨
        (m = s.regs.n * s.regs.bpw ∧ late ≤ s.regs.rdly.toNat) →
      (∀ k, k < m * (s.timing.t1 + s.timing.t2 + s.timing.t3) + late →
        (ticks k a).line = levelAt (segsOf s.timing (s.frame ++ [.latch s.regs.rdly.toNat])) k) ∧
      (ticks (m * (s.timing.t1 + s.timing.t2 + s.timing.t3) + late) a).line = false

/-- R135: while BUSY = 1 a step accepts no command: the words on the port are held, and nothing of the array, BRIGHT or the
configuration changes. -/
def Obligations.BusyHoldsCommands : Prop :=
  ∀ s : State, s.rst = false → s.busy = true → ∃ t, step s = .next t ∧ t.port = s.port ∧ t.w = s.w ∧
    t.bright = s.bright ∧ t.cfg = s.cfg ∧ t.regs = s.regs ∧ t.params = s.params ∧ t.ioPlan = s.ioPlan

/-- R135: the hold always ends: from every state of the invariant in which a frame is going out, the block is free again, with
the same words on the port, after at most the length of a whole SHOW. -/
def Obligations.HoldEnds : Prop :=
  ∀ s : State, StateInv s → s.rst = false → s.busy = true → ∃ k t, k ≤ s.showTicks ∧
    Host.Core.run Sys2Proof.core k s = .next t ∧ t.busy = false ∧ t.port = s.port

/-! ### Whole-machine rules -/

/-- The invariant holds after reset. -/
def Obligations.ResetMeetsInv : Prop := StateInv State.reset

/-- Every step keeps the invariant: R25, the canonical form of the array, the consistency of the registers derived from MODE
and of the transmitter. -/
def Obligations.StepKeepsInv : Prop := ∀ s t : State, StateInv s → step s = .next t → StateInv t

/-- The configuration is immutable: once constructed, no step but a hardware reset changes CFG, N, MODE, SH, RDLY, PROFILE or
the model parameters (R11 to R16). -/
def Obligations.ConfigurationImmutable : Prop :=
  ∀ s t : State, s.cfg = true → s.rst = false → step s = .next t →
    t.cfg = true ∧ t.regs = s.regs ∧ t.params = s.params

/-- BRIGHT is written by CONFIG and SETBRIGHT only, and SETBRIGHT changes no word (R15). -/
def Obligations.BrightWriters : Prop :=
  ∀ s t : State, s.rst = false → step s = .next t → t.bright ≠ s.bright →
    ∃ i rest, decode s.port = .done i rest ∧ (IsConfig i ∨ ∃ unset value, i = .setbright unset value ∧ t.w = s.w)

/-- BRIGHT is never read by ROTATE, READWORD or SHOW (R15): they do the same under every brightness. -/
def Obligations.BrightNotReadBy : Prop :=
  ∀ (i : Instr) (s t : State) (b : Byte),
    i = .showFrame ∨ (∃ unset right offset, i = .rotate unset right offset) ∨ (∃ index, i = .readword index) →
    exec i s = .next t → exec i { s with bright := b } = .next { t with bright := b }

/-- The word array is written by CONFIG, SETPIXEL, SETRANGE, FILL, LGRAD, SGRAD and ROTATE only, and never while a frame is going
out (R17, R38). -/
def Obligations.ArrayWriters : Prop :=
  ∀ s t : State, s.rst = false → step s = .next t → t.w ≠ s.w →
    s.busy = false ∧ ∃ i rest, decode s.port = .done i rest ∧ i ≠ .showFrame ∧
      (∀ unset value, i ≠ .setbright unset value) ∧ ∀ index, i ≠ .readword index

/-- The traces grow only inside SHOW and are emptied only by CONFIG or a hardware reset (R22). -/
def Obligations.TracesGrowOnlyInShow : Prop :=
  ∀ s t : State, s.rst = false → step s = .next t →
    (t.st = s.st ∧ t.lt = s.lt) ∨
    (∃ syms, t.st = s.st ++ syms ∧ t.lt = s.lt ++ segsOf s.timing syms ∧
      (s.busy = true ∨ ∃ rest, decode s.port = .done .showFrame rest)) ∨
    (t.st = [] ∧ t.lt = [] ∧ ∃ i rest, decode s.port = .done i rest ∧ IsConfig i)

/-- The traces and the responses are observation only (R21, R22): no command reads them. -/
def Obligations.ObservationNotRead : Prop :=
  ∀ (i : Instr) (s s' t : State), s.eraseObs = s'.eraseObs → exec i s = .next t →
    ∃ t' rs, exec i s' = .next t' ∧ t.eraseObs = t'.eraseObs ∧ t.out = s.out ++ rs ∧ t'.out = s'.out ++ rs

/-! ### Clauses apart: inferences of the spec, and readings of the model -/

/-- MODEL (log 9): after a hardware reset the block is ready to take a command, and the host's side is kept: the words on the
port, the responses, the collaborator's answers, the grain and the parameters. So a CONFIG that waits on the port is what the
next step runs, and a good one constructs the block (R190: "After it only CONFIG is accepted"). -/
def Obligations.ResetBlockIsReady : Prop :=
  ∀ s : State, s.rst = true → s.busy = false → ∃ t, step s = .next t ∧ t.Ready ∧
    t.port = s.port ∧ t.out = s.out ∧ t.ioPlan = s.ioPlan ∧ t.grain = s.grain ∧ t.params = s.params ∧
    ∀ (unset : Bool) (numLeds : Int) (mode : Word) (brightness : Int) (resetDelay : Word) (rest : List Word) (m : List Chan),
      decode s.port = .done (.config unset numLeds mode brightness resetDelay) rest → 0 < numLeds →
      numLeds ≤ s.params.nmax → validMode mode = some m →
      ∃ u, step t = .next u ∧ u.cfg = true ∧ u.regs.mode = m ∧ u.port = rest ∧ u.out = s.out ++ [⟨.ok, 0#32⟩]

/-- MODEL (log 17, DEDUCED from R70's "for each letter c at position p of MODE"): a CONFIG that constructs leaves SH of a letter
that is not in MODE as it was. -/
def Obligations.AbsentLetterKeepsLane : Prop :=
  ∀ (unset : Bool) (numLeds : Int) (mode : Word) (brightness : Int) (resetDelay : Word) (s : State) (m : List Chan),
    s.cfg = false → 0 < numLeds → numLeds ≤ s.params.nmax → validMode mode = some m →
    ∃ t, exec (.config unset numLeds mode brightness resetDelay) s = .next t ∧
      ∀ c, c ∉ m → t.regs.sh.get c = s.regs.sh.get c

/-- FILL equals SETRANGE 0, N-1: the spec's own inference ("Equal to `SETRANGE 0, N−1, color` [derived: from rule R86]"). -/
def Obligations.FillIsSetrangeAll : Prop :=
  ∀ (c4 : Bool) (col : Colour) (s : State), 1 ≤ s.regs.n →
    exec (.fill c4 col) s = exec (.setrange c4 0 ((s.regs.n : Int) - 1) col) s
end

