-- ==== Sys2Proof/Laws/Arith.lean ====
section
/-! SUPPORT. Rounding, clamping, scaling and interpolation (R7, R81, R110): what each computes, said once. -/

namespace Sys2Proof.Machine

/-- The three cases of `rne`, with the quotient and the remainder named. -/
theorem rne_cases (num : Int) {den : Nat} (hd : 1 ≤ den) : ∃ q r : Int, num = den * q + r ∧ 0 ≤ r ∧ r < den ∧
    ((2 * r < den ∧ rne num den = q) ∨ ((den : Int) < 2 * r ∧ rne num den = q + 1) ∨
      (2 * r = den ∧ q % 2 = 0 ∧ rne num den = q) ∨ (2 * r = den ∧ q % 2 ≠ 0 ∧ rne num den = q + 1)) := by
  have hpos : (0 : Int) < den := by omega
  refine ⟨num / den, num % den, (Int.mul_ediv_add_emod num den).symm, Int.emod_nonneg _ hpos.ne',
    Int.emod_lt_of_pos _ hpos, ?_⟩
  by_cases h1 : 2 * (num % (den : Int)) < den
  · exact .inl ⟨h1, by simp [rne, h1]⟩
  · by_cases h2 : (den : Int) < 2 * (num % (den : Int))
    · exact .inr (.inl ⟨h2, by simp [rne, h1, h2]⟩)
    · by_cases h3 : num / (den : Int) % 2 = 0
      · exact .inr (.inr (.inl ⟨by omega, h3, by simp only [rne, if_neg h1, if_neg h2, if_pos h3]⟩))
      · exact .inr (.inr (.inr ⟨by omega, h3, by simp only [rne, if_neg h1, if_neg h2, if_neg h3]⟩))

/-- `rne` is within half a unit of the quotient. -/
theorem rne_near (num : Int) {den : Nat} (hd : 1 ≤ den) :
    -(den : Int) ≤ 2 * (num - den * rne num den) ∧ 2 * (num - den * rne num den) ≤ den := by
  obtain ⟨q, r, rfl, h0, h1, h⟩ := rne_cases num hd
  rcases h with ⟨h, e⟩ | ⟨h, e⟩ | ⟨h, -, e⟩ | ⟨h, -, e⟩ <;> rw [e] <;>
    (try rw [mul_add]) <;> constructor <;> omega

/-- An integer strictly within half a unit of the quotient is `rne`. -/
theorem rne_eq_of_near {num k : Int} {den : Nat} (hd : 1 ≤ den) (h1 : -(den : Int) < 2 * (num - den * k))
    (h2 : 2 * (num - den * k) < den) : rne num den = k := by
  obtain ⟨h3, h4⟩ := rne_near num hd
  have hpos : (0 : Int) < den := by omega
  have a1 : (den : Int) * (rne num den - k) < den * 1 := by rw [mul_sub]; omega
  have a2 : (den : Int) * (k - rne num den) < den * 1 := by rw [mul_sub]; omega
  have b1 := lt_of_mul_lt_mul_left a1 hpos.le
  have b2 := lt_of_mul_lt_mul_left a2 hpos.le
  omega

/-- `rne` of an exact quotient. -/
theorem rne_mul (k : Int) {den : Nat} (hd : 1 ≤ den) : rne (den * k) den = k :=
  rne_eq_of_near hd (by simp; omega) (by simp; omega)

/-- `rne` is monotone in the numerator. -/
theorem rne_mono {num num' : Int} {den : Nat} (hd : 1 ≤ den) (h : num ≤ num') : rne num den ≤ rne num' den := by
  have hpos : (0 : Int) < den := by omega
  obtain ⟨q, r, rfl, h0, h1, hc⟩ := rne_cases num hd
  obtain ⟨q', r', rfl, h0', h1', hc'⟩ := rne_cases num' hd
  have hq : q ≤ q' := by
    by_contra hlt
    have : (den : Int) * (q' + 1) ≤ den * q := mul_le_mul_of_nonneg_left (by omega) hpos.le
    rw [mul_add] at this
    omega
  rcases eq_or_lt_of_le hq with rfl | hlt
  · rcases hc with ⟨_, e⟩ | ⟨_, e⟩ | ⟨_, _, e⟩ | ⟨_, _, e⟩ <;> rcases hc' with ⟨_, e'⟩ | ⟨_, e'⟩ | ⟨_, _, e'⟩ | ⟨_, _, e'⟩ <;>
      rw [e, e'] <;> omega
  · have hle : rne (den * q + r) den ≤ q + 1 := by rcases hc with ⟨_, e⟩ | ⟨_, e⟩ | ⟨_, _, e⟩ | ⟨_, _, e⟩ <;> omega
    have hge : q' ≤ rne (den * q' + r') den := by
      rcases hc' with ⟨_, e⟩ | ⟨_, e⟩ | ⟨_, _, e⟩ | ⟨_, _, e⟩ <;> omega
    omega

/-- An 8-bit result holds an integer of 0 to 255 as it is. -/
theorem toNat_ofInt8 {v : Int} (h0 : 0 ≤ v) (h1 : v ≤ 255) : ((BitVec.ofInt 8 v).toNat : Int) = v := by
  rw [BitVec.toNat_ofInt]
  have : v % 256 = v := Int.emod_eq_of_lt h0 (by omega)
  simp [this, h0]

/-- A clamped brightness, as an integer (R7). -/
theorem toNat_clampBright (v : Int) : ((clampBright v).toNat : Int) = max 1 (min 255 v) := by
  have hc : clamp v 1 255 = max 1 (min 255 v) := by
    unfold clamp
    split_ifs <;> omega
  rw [clampBright, toNat_ofInt8] <;> rw [hc] <;> omega

/-- A clamped brightness is never 0 (R15). -/
theorem clampBright_ne_zero (v : Int) : clampBright v ≠ 0#8 := by
  intro e
  have := toNat_clampBright v
  rw [e] at this
  simp at this
  omega

/-- The closed form of `scale` (R81). -/
theorem scaleInt_eq {c b : Nat} : scaleInt c b = ((2 * c * b + 255) / 510 : Nat) := by
  refine rne_eq_of_near (by norm_num) ?_ ?_ <;> push_cast <;>
    rw [show (2 : Int) * c * b + 255 = 2 * (c * b) + 255 by ring] <;> generalize (c : Int) * b = x <;> omega

/-- `scale` never exceeds the channel (R81). -/
theorem scaleInt_le {c b : Nat} (hb : b ≤ 255) : scaleInt c b ≤ c := by
  rw [scaleInt_eq]
  have : c * b ≤ c * 255 := Nat.mul_le_mul_left _ hb
  rw [show 2 * c * b = 2 * (c * b) by ring]
  omega

theorem scaleInt_nonneg (c b : Nat) : 0 ≤ scaleInt c b := by rw [scaleInt_eq]; omega

/-- The 8-bit `scale` holds the integer one. -/
theorem toNat_scale (c b : Byte) : ((scale c b).toNat : Int) = scaleInt c.toNat b.toNat := by
  have h1 := scaleInt_le (c := c.toNat) (b := b.toNat) (by have := b.isLt; omega)
  have h2 := c.isLt
  exact toNat_ofInt8 (scaleInt_nonneg _ _) (by omega)

/-- At brightness 255 `scale` is the identity (R81). -/
theorem scale_255 (c : Byte) : scale c 255#8 = c := by
  apply BitVec.eq_of_toNat_eq
  have h := toNat_scale c 255#8
  rw [scaleInt_eq] at h
  simp only [BitVec.toNat_ofNat] at h
  omega

/-- `lerp` at the lower end (R110). -/
theorem lerpInt_zero (a b : Nat) {d : Nat} (hd : 1 ≤ d) : lerpInt a b 0 d = a := by
  rw [lerpInt, show (a : Int) * d + ((b : Int) - a) * (0 : Nat) = d * a by push_cast; ring]
  exact rne_mul _ hd

/-- `lerp` at the upper end (R110). -/
theorem lerpInt_self (a b : Nat) {d : Nat} (hd : 1 ≤ d) : lerpInt a b d d = b := by
  rw [lerpInt, show (a : Int) * d + ((b : Int) - a) * d = d * b by ring]
  exact rne_mul _ hd

/-- `lerp` between equal values (R110). -/
theorem lerpInt_same (a j : Nat) {d : Nat} (hd : 1 ≤ d) : lerpInt a a j d = a := by
  rw [lerpInt, show (a : Int) * d + ((a : Int) - a) * j = d * a by ring]
  exact rne_mul _ hd

/-- `lerp` is monotone in its position (R110). -/
theorem lerpInt_mono {a b j j' d : Nat} (hd : 1 ≤ d) (hj : j ≤ j') :
    (a ≤ b → lerpInt a b j d ≤ lerpInt a b j' d) ∧ (b ≤ a → lerpInt a b j' d ≤ lerpInt a b j d) := by
  have hj' : (j : Int) ≤ j' := by omega
  constructor <;> intro h <;> apply rne_mono hd
  · have := mul_le_mul_of_nonneg_left hj' (show (0 : Int) ≤ (b : Int) - a by omega)
    linarith
  · have := mul_le_mul_of_nonpos_left hj' (show ((b : Int) - a) ≤ 0 by omega)
    linarith

/-- `lerp` stays between its end values (R110). -/
theorem lerpInt_bounds {a b j d : Nat} (hj : j ≤ d) (hd : 1 ≤ d) :
    (min a b : Nat) ≤ lerpInt a b j d ∧ lerpInt a b j d ≤ (max a b : Nat) := by
  have h0 := lerpInt_mono (a := a) (b := b) hd (Nat.zero_le j)
  have h1 := lerpInt_mono (a := a) (b := b) hd hj
  rw [lerpInt_zero a b hd] at h0
  rw [lerpInt_self a b hd] at h1
  rcases le_total a b with h | h
  · have := h0.1 h; have := h1.1 h; constructor <;> omega
  · have := h0.2 h; have := h1.2 h; constructor <;> omega

/-- The 8-bit `lerp` holds the integer one. -/
theorem toNat_lerp (a b : Byte) {j d : Nat} (hj : j ≤ d) (hd : 1 ≤ d) :
    ((lerp a b j d).toNat : Int) = lerpInt a.toNat b.toNat j d := by
  obtain ⟨h1, h2⟩ := lerpInt_bounds (a := a.toNat) (b := b.toNat) hj hd
  have := a.isLt
  have := b.isLt
  exact toNat_ofInt8 (by omega) (by omega)

/-- An interpolated channel lies between the two (R110). -/
theorem lerp_between (a b : Byte) {j d : Nat} (hj : j ≤ d) (hd : 1 ≤ d) :
    min a.toNat b.toNat ≤ (lerp a b j d).toNat ∧ (lerp a b j d).toNat ≤ max a.toNat b.toNat := by
  have h := toNat_lerp a b hj hd
  have := lerpInt_bounds (a := a.toNat) (b := b.toNat) hj hd
  omega

theorem lerp_zero (a b : Byte) {d : Nat} (hd : 1 ≤ d) : lerp a b 0 d = a :=
  BitVec.eq_of_toNat_eq (by have := toNat_lerp a b (Nat.zero_le d) hd; rw [lerpInt_zero _ _ hd] at this; omega)

theorem lerp_self (a b : Byte) {d : Nat} (hd : 1 ≤ d) : lerp a b d d = b :=
  BitVec.eq_of_toNat_eq (by have := toNat_lerp a b le_rfl hd; rw [lerpInt_self _ _ hd] at this; omega)

theorem lerp_same (a : Byte) {j d : Nat} (hj : j ≤ d) (hd : 1 ≤ d) : lerp a a j d = a :=
  BitVec.eq_of_toNat_eq (by have := toNat_lerp a a hj hd; rw [lerpInt_same _ _ hd] at this; omega)

/-- The residue of R7, as an integer. -/
theorem modN_cast (a : Int) {n : Nat} (hn : 1 ≤ n) : (modN a n : Int) = a % n :=
  Int.toNat_of_nonneg (Int.emod_nonneg _ (by omega))

theorem modN_lt (a : Int) {n : Nat} (hn : 1 ≤ n) : modN a n < n := by
  have := modN_cast a hn
  have := Int.emod_lt_of_pos a (show (0 : Int) < n by omega)
  omega

end Sys2Proof.Machine
end

