-- ==== Sys2Proof/Laws/Decode.lean ====
section
/-! SUPPORT. The header word field by field: what the encoder puts in and the decoder's masks test (R51, R52), and the operand
words both ways (R53, R55). -/

namespace Sys2Proof

theorem word_eq_iff (x y : Word) : x = y ↔ ∀ i < 32, x.getLsbD i = y.getLsbD i :=
  ⟨fun h _ _ => h ▸ rfl, fun h => BitVec.eq_of_getLsbD_eq h⟩

theorem byte_eq_iff (x y : Byte) : x = y ↔ ∀ i < 8, x.getLsbD i = y.getLsbD i :=
  ⟨fun h _ _ => h ▸ rfl, fun h => BitVec.eq_of_getLsbD_eq h⟩

theorem bv3_eq_iff (x y : BitVec 3) : x = y ↔ ∀ i < 3, x.getLsbD i = y.getLsbD i :=
  ⟨fun h _ _ => h ▸ rfl, fun h => BitVec.eq_of_getLsbD_eq h⟩

theorem hdrCnt_eq_zero_iff (h : Word) : hdrCnt h = 0 ↔ ∀ i < 16, h.getLsbD i = false := by
  constructor
  · intro e i hi
    have e' : h.extractLsb' 0 16 = 0#16 := BitVec.eq_of_toNat_eq e
    have : (h.extractLsb' 0 16).getLsbD i = false := by rw [e']; simp
    simpa [hi] using this
  · intro e
    have : h.extractLsb' 0 16 = 0#16 := BitVec.eq_of_getLsbD_eq (fun i hi => by simp [hi, e i hi])
    simp [hdrCnt, this]

theorem hdrCnt_lt (h : Word) : hdrCnt h < 65536 := (h.extractLsb' 0 16).isLt

/-! The rows of R52, as conditions on the fields of R51. -/

theorem row_config (h : Word) : h &&& 0xFFBFFFFF#32 = 0x01000000#32 ↔
    hdrOp h = 1#8 ∧ hdrC4 h = false ∧ hdrDir h = false ∧ hdrRev h = false ∧ hdrRbw h = false ∧ hdrZero h = 0#3 ∧ hdrCnt h = 0 := by
  rw [word_eq_iff, byte_eq_iff, bv3_eq_iff, hdrCnt_eq_zero_iff]
  simp only [Nat.forall_lt_succ_right, Nat.not_lt_zero, hdrOp, hdrZero, hdrC4, hdrDir, hdrRev, hdrRbw]
  simp [BitVec.getLsbD_extractLsb', -BitVec.getLsbD_eq_getElem]
  tauto

theorem row_setbright (h : Word) : h &&& 0xFFBFFFFF#32 = 0x02000000#32 ↔
    hdrOp h = 2#8 ∧ hdrC4 h = false ∧ hdrDir h = false ∧ hdrRev h = false ∧ hdrRbw h = false ∧ hdrZero h = 0#3 ∧ hdrCnt h = 0 := by
  rw [word_eq_iff, byte_eq_iff, bv3_eq_iff, hdrCnt_eq_zero_iff]
  simp only [Nat.forall_lt_succ_right, Nat.not_lt_zero, hdrOp, hdrZero, hdrC4, hdrDir, hdrRev, hdrRbw]
  simp [BitVec.getLsbD_extractLsb', -BitVec.getLsbD_eq_getElem]
  tauto

theorem row_setpixel (h : Word) : h &&& 0xFF7FFFFF#32 = 0x03000000#32 ↔
    hdrOp h = 3#8 ∧ hdrNone h = false ∧ hdrDir h = false ∧ hdrRev h = false ∧ hdrRbw h = false ∧ hdrZero h = 0#3 ∧ hdrCnt h = 0 := by
  rw [word_eq_iff, byte_eq_iff, bv3_eq_iff, hdrCnt_eq_zero_iff]
  simp only [Nat.forall_lt_succ_right, Nat.not_lt_zero, hdrOp, hdrZero, hdrNone, hdrDir, hdrRev, hdrRbw]
  simp [BitVec.getLsbD_extractLsb', -BitVec.getLsbD_eq_getElem]
  tauto

theorem row_setrange (h : Word) : h &&& 0xFF7FFFFF#32 = 0x04000000#32 ↔
    hdrOp h = 4#8 ∧ hdrNone h = false ∧ hdrDir h = false ∧ hdrRev h = false ∧ hdrRbw h = false ∧ hdrZero h = 0#3 ∧ hdrCnt h = 0 := by
  rw [word_eq_iff, byte_eq_iff, bv3_eq_iff, hdrCnt_eq_zero_iff]
  simp only [Nat.forall_lt_succ_right, Nat.not_lt_zero, hdrOp, hdrZero, hdrNone, hdrDir, hdrRev, hdrRbw]
  simp [BitVec.getLsbD_extractLsb', -BitVec.getLsbD_eq_getElem]
  tauto

theorem row_fill (h : Word) : h &&& 0xFF7FFFFF#32 = 0x05000000#32 ↔
    hdrOp h = 5#8 ∧ hdrNone h = false ∧ hdrDir h = false ∧ hdrRev h = false ∧ hdrRbw h = false ∧ hdrZero h = 0#3 ∧ hdrCnt h = 0 := by
  rw [word_eq_iff, byte_eq_iff, bv3_eq_iff, hdrCnt_eq_zero_iff]
  simp only [Nat.forall_lt_succ_right, Nat.not_lt_zero, hdrOp, hdrZero, hdrNone, hdrDir, hdrRev, hdrRbw]
  simp [BitVec.getLsbD_extractLsb', -BitVec.getLsbD_eq_getElem]
  tauto

theorem row_rotate (h : Word) : h &&& 0xFF9FFFFF#32 = 0x06000000#32 ↔
    hdrOp h = 6#8 ∧ hdrC4 h = false ∧ hdrRev h = false ∧ hdrRbw h = false ∧ hdrZero h = 0#3 ∧ hdrCnt h = 0 := by
  rw [word_eq_iff, byte_eq_iff, bv3_eq_iff, hdrCnt_eq_zero_iff]
  simp only [Nat.forall_lt_succ_right, Nat.not_lt_zero, hdrOp, hdrZero, hdrC4, hdrRev, hdrRbw]
  simp [BitVec.getLsbD_extractLsb', -BitVec.getLsbD_eq_getElem]
  tauto

theorem row_lgrad (h : Word) : h &&& 0xFF7FFFFF#32 = 0x07000000#32 ↔
    hdrOp h = 7#8 ∧ hdrNone h = false ∧ hdrDir h = false ∧ hdrRev h = false ∧ hdrRbw h = false ∧ hdrZero h = 0#3 ∧ hdrCnt h = 0 := by
  rw [word_eq_iff, byte_eq_iff, bv3_eq_iff, hdrCnt_eq_zero_iff]
  simp only [Nat.forall_lt_succ_right, Nat.not_lt_zero, hdrOp, hdrZero, hdrNone, hdrDir, hdrRev, hdrRbw]
  simp [BitVec.getLsbD_extractLsb', -BitVec.getLsbD_eq_getElem]
  tauto

theorem row_sgrad (h : Word) : h &&& 0xFF670000#32 = 0x08000000#32 ↔
    hdrOp h = 8#8 ∧ hdrNone h = false ∧ hdrDir h = false ∧ hdrZero h = 0#3 := by
  rw [word_eq_iff, byte_eq_iff, bv3_eq_iff]
  simp only [Nat.forall_lt_succ_right, Nat.not_lt_zero, hdrOp, hdrZero, hdrNone, hdrDir]
  simp [BitVec.getLsbD_extractLsb', -BitVec.getLsbD_eq_getElem]
  tauto

theorem row_showFrame (h : Word) : h &&& 0xFFFFFFFF#32 = 0x09000000#32 ↔
    hdrOp h = 9#8 ∧ hdrC4 h = false ∧ hdrNone h = false ∧ hdrDir h = false ∧ hdrRev h = false ∧ hdrRbw h = false ∧ hdrZero h = 0#3 ∧ hdrCnt h = 0 := by
  rw [word_eq_iff, byte_eq_iff, bv3_eq_iff, hdrCnt_eq_zero_iff]
  simp only [Nat.forall_lt_succ_right, Nat.not_lt_zero, hdrOp, hdrZero, hdrC4, hdrNone, hdrDir, hdrRev, hdrRbw]
  simp [BitVec.getLsbD_extractLsb', -BitVec.getLsbD_eq_getElem]
  tauto

theorem row_readword (h : Word) : h &&& 0xFFFFFFFF#32 = 0x0A000000#32 ↔
    hdrOp h = 10#8 ∧ hdrC4 h = false ∧ hdrNone h = false ∧ hdrDir h = false ∧ hdrRev h = false ∧ hdrRbw h = false ∧ hdrZero h = 0#3 ∧ hdrCnt h = 0 := by
  rw [word_eq_iff, byte_eq_iff, bv3_eq_iff, hdrCnt_eq_zero_iff]
  simp only [Nat.forall_lt_succ_right, Nat.not_lt_zero, hdrOp, hdrZero, hdrC4, hdrNone, hdrDir, hdrRev, hdrRbw]
  simp [BitVec.getLsbD_extractLsb', -BitVec.getLsbD_eq_getElem]
  tauto

theorem find_bind_cons {α β : Type} (p : α → Bool) (a : α) (l : List α) (f : α → Option β) :
    ((a :: l).find? p).bind f = if p a = true then f a else (l.find? p).bind f := by
  by_cases h : p a = true <;> simp [List.find?, h]

/-- The row that a header selects, by its fields (R52, R57). -/
theorem headerOpcode_eq (h : Word) : headerOpcode h =
    if hdrOp h = 1#8 ∧ hdrC4 h = false ∧ hdrDir h = false ∧ hdrRev h = false ∧ hdrRbw h = false ∧ hdrZero h = 0#3 ∧ hdrCnt h = 0 then some .config else
    if hdrOp h = 2#8 ∧ hdrC4 h = false ∧ hdrDir h = false ∧ hdrRev h = false ∧ hdrRbw h = false ∧ hdrZero h = 0#3 ∧ hdrCnt h = 0 then some .setbright else
    if hdrOp h = 3#8 ∧ hdrNone h = false ∧ hdrDir h = false ∧ hdrRev h = false ∧ hdrRbw h = false ∧ hdrZero h = 0#3 ∧ hdrCnt h = 0 then some .setpixel else
    if hdrOp h = 4#8 ∧ hdrNone h = false ∧ hdrDir h = false ∧ hdrRev h = false ∧ hdrRbw h = false ∧ hdrZero h = 0#3 ∧ hdrCnt h = 0 then some .setrange else
    if hdrOp h = 5#8 ∧ hdrNone h = false ∧ hdrDir h = false ∧ hdrRev h = false ∧ hdrRbw h = false ∧ hdrZero h = 0#3 ∧ hdrCnt h = 0 then some .fill else
    if hdrOp h = 6#8 ∧ hdrC4 h = false ∧ hdrRev h = false ∧ hdrRbw h = false ∧ hdrZero h = 0#3 ∧ hdrCnt h = 0 then some .rotate else
    if hdrOp h = 7#8 ∧ hdrNone h = false ∧ hdrDir h = false ∧ hdrRev h = false ∧ hdrRbw h = false ∧ hdrZero h = 0#3 ∧ hdrCnt h = 0 then some .lgrad else
    if hdrOp h = 8#8 ∧ hdrNone h = false ∧ hdrDir h = false ∧ hdrZero h = 0#3 then (if hdrCnt h = 0 then none else some .sgrad) else
    if hdrOp h = 9#8 ∧ hdrC4 h = false ∧ hdrNone h = false ∧ hdrDir h = false ∧ hdrRev h = false ∧ hdrRbw h = false ∧ hdrZero h = 0#3 ∧ hdrCnt h = 0 then some .showFrame else
    if hdrOp h = 10#8 ∧ hdrC4 h = false ∧ hdrNone h = false ∧ hdrDir h = false ∧ hdrRev h = false ∧ hdrRbw h = false ∧ hdrZero h = 0#3 ∧ hdrCnt h = 0 then some .readword else
    none := by
  simp only [headerOpcode, opRows, find_bind_cons, beq_iff_eq, row_config, row_setbright, row_setpixel, row_setrange, row_fill, row_rotate, row_lgrad, row_sgrad, row_showFrame, row_readword]
  simp

/-- The bits of an encoded header (R51). -/
theorem encodeHeader_getLsbD (op : Byte) (c4 none dir rev rbw : Bool) (cnt k : Nat) :
    (encodeHeader op c4 none dir rev rbw cnt).getLsbD k =
      if k < 16 then cnt.testBit k
      else if k < 19 then false
      else if k = 19 then rbw
      else if k = 20 then rev
      else if k = 21 then dir
      else if k = 22 then none
      else if k = 23 then c4
      else op.getLsbD (k - 24) := by
  unfold encodeHeader
  simp only [BitVec.getLsbD_append, BitVec.getLsbD_ofBool, BitVec.getLsbD_ofNat]
  by_cases h0 : k < 16
  · simp [h0]
  · by_cases h1 : k < 19
    · simp [h0, h1, show k - 16 < 3 by omega]
    · by_cases h2 : k < 24
      · interval_cases k <;> simp
      · have e1 : ¬ k - 16 < 3 := by omega
        have e2 : ¬ k - 16 - 3 < 1 := by omega
        have e3 : ¬ k - 16 - 3 - 1 < 1 := by omega
        have e4 : ¬ k - 16 - 3 - 1 - 1 < 1 := by omega
        have e5 : ¬ k - 16 - 3 - 1 - 1 - 1 < 1 := by omega
        have e6 : ¬ k - 16 - 3 - 1 - 1 - 1 - 1 < 1 := by omega
        simp only [h0, e1, e2, e3, e4, e5, e6, if_false, h1, show k ≠ 19 by omega, show k ≠ 20 by omega,
          show k ≠ 21 by omega, show k ≠ 22 by omega, show k ≠ 23 by omega]
        congr 1

section fields
variable (op : Byte) (c4 none dir rev rbw : Bool) (cnt : Nat)

@[simp] theorem hdrC4_encodeHeader : hdrC4 (encodeHeader op c4 none dir rev rbw cnt) = c4 := by
  rw [hdrC4, encodeHeader_getLsbD]; simp

@[simp] theorem hdrNone_encodeHeader : hdrNone (encodeHeader op c4 none dir rev rbw cnt) = none := by
  rw [hdrNone, encodeHeader_getLsbD]; simp

@[simp] theorem hdrDir_encodeHeader : hdrDir (encodeHeader op c4 none dir rev rbw cnt) = dir := by
  rw [hdrDir, encodeHeader_getLsbD]; simp

@[simp] theorem hdrRev_encodeHeader : hdrRev (encodeHeader op c4 none dir rev rbw cnt) = rev := by
  rw [hdrRev, encodeHeader_getLsbD]; simp

@[simp] theorem hdrRbw_encodeHeader : hdrRbw (encodeHeader op c4 none dir rev rbw cnt) = rbw := by
  rw [hdrRbw, encodeHeader_getLsbD]; simp

@[simp] theorem hdrZero_encodeHeader : hdrZero (encodeHeader op c4 none dir rev rbw cnt) = 0#3 := by
  apply BitVec.eq_of_getLsbD_eq
  intro i hi
  simp only [hdrZero, BitVec.getLsbD_extractLsb', encodeHeader_getLsbD]
  simp [hi, show ¬ 16 + i < 16 by omega, show 16 + i < 19 by omega]

@[simp] theorem hdrOp_encodeHeader : hdrOp (encodeHeader op c4 none dir rev rbw cnt) = op := by
  apply BitVec.eq_of_getLsbD_eq
  intro i hi
  simp only [hdrOp, BitVec.getLsbD_extractLsb', encodeHeader_getLsbD]
  simp [hi, show ¬ 24 + i < 16 by omega, show ¬ 24 + i < 19 by omega, show 24 + i ≠ 19 by omega,
    show 24 + i ≠ 20 by omega, show 24 + i ≠ 21 by omega, show 24 + i ≠ 22 by omega, show 24 + i ≠ 23 by omega]

theorem hdrCnt_encodeHeader (h : cnt < 65536) : hdrCnt (encodeHeader op c4 none dir rev rbw cnt) = cnt := by
  apply Nat.eq_of_testBit_eq
  intro i
  simp only [hdrCnt, BitVec.testBit_toNat, BitVec.getLsbD_extractLsb', encodeHeader_getLsbD]
  by_cases hi : i < 16
  · simp [hi]
  · have h2 : 2 ^ 16 ≤ 2 ^ i := Nat.pow_le_pow_right (by norm_num) (Nat.le_of_not_lt hi)
    have h3 : cnt.testBit i = false := Nat.testBit_lt_two_pow (lt_of_lt_of_le h h2)
    simp [hi, h3]

/-- A header word is the encoding of its own fields when its reserved bits are zero. -/
theorem encodeHeader_fields (h : Word) (hz : hdrZero h = 0#3) :
    encodeHeader (hdrOp h) (hdrC4 h) (hdrNone h) (hdrDir h) (hdrRev h) (hdrRbw h) (hdrCnt h) = h := by
  apply BitVec.eq_of_getLsbD_eq
  intro i hi
  rw [encodeHeader_getLsbD]
  rw [bv3_eq_iff] at hz
  simp only [hdrZero, BitVec.getLsbD_extractLsb'] at hz
  by_cases h1 : i < 16
  · simp only [h1, if_true, hdrCnt, BitVec.testBit_toNat, BitVec.getLsbD_extractLsb']
    simp
  · by_cases h2 : i < 19
    · have := hz (i - 16) (by omega)
      simp only [show i - 16 < 3 by omega, decide_true, Bool.true_and, show 16 + (i - 16) = i by omega] at this
      rw [if_neg h1, if_pos h2, this]; simp
    · by_cases h3 : i < 24
      · interval_cases i <;> simp [hdrRbw, hdrRev, hdrDir, hdrNone, hdrC4]
      · rw [if_neg h1, if_neg h2, if_neg (by omega), if_neg (by omega), if_neg (by omega), if_neg (by omega),
          if_neg (by omega)]
        simp only [hdrOp, BitVec.getLsbD_extractLsb', show 24 + (i - 24) = i by omega, show i - 24 < 8 by omega]
        simp

end fields

/-! What an encoded header selects (R52, R57). -/

@[simp] theorem headerOpcode_config (unset : Bool) :
    headerOpcode (encodeHeader 1#8 false unset false false false 0) = some .config := by
  simp [headerOpcode_eq, hdrCnt_encodeHeader _ _ _ _ _ _ 0 (by decide)]

@[simp] theorem headerOpcode_setbright (unset : Bool) :
    headerOpcode (encodeHeader 2#8 false unset false false false 0) = some .setbright := by
  simp [headerOpcode_eq, hdrCnt_encodeHeader _ _ _ _ _ _ 0 (by decide)]

@[simp] theorem headerOpcode_setpixel (c4 : Bool) :
    headerOpcode (encodeHeader 3#8 c4 false false false false 0) = some .setpixel := by
  simp [headerOpcode_eq, hdrCnt_encodeHeader _ _ _ _ _ _ 0 (by decide)]

@[simp] theorem headerOpcode_setrange (c4 : Bool) :
    headerOpcode (encodeHeader 4#8 c4 false false false false 0) = some .setrange := by
  simp [headerOpcode_eq, hdrCnt_encodeHeader _ _ _ _ _ _ 0 (by decide)]

@[simp] theorem headerOpcode_fill (c4 : Bool) :
    headerOpcode (encodeHeader 5#8 c4 false false false false 0) = some .fill := by
  simp [headerOpcode_eq, hdrCnt_encodeHeader _ _ _ _ _ _ 0 (by decide)]

@[simp] theorem headerOpcode_rotate (unset dir : Bool) :
    headerOpcode (encodeHeader 6#8 false unset dir false false 0) = some .rotate := by
  simp [headerOpcode_eq, hdrCnt_encodeHeader _ _ _ _ _ _ 0 (by decide)]

@[simp] theorem headerOpcode_lgrad (c4 : Bool) :
    headerOpcode (encodeHeader 7#8 c4 false false false false 0) = some .lgrad := by
  simp [headerOpcode_eq, hdrCnt_encodeHeader _ _ _ _ _ _ 0 (by decide)]

@[simp] theorem headerOpcode_showFrame :
    headerOpcode (encodeHeader 9#8 false false false false false 0) = some .showFrame := by
  simp [headerOpcode_eq, hdrCnt_encodeHeader _ _ _ _ _ _ 0 (by decide)]

@[simp] theorem headerOpcode_readword :
    headerOpcode (encodeHeader 10#8 false false false false false 0) = some .readword := by
  simp [headerOpcode_eq, hdrCnt_encodeHeader _ _ _ _ _ _ 0 (by decide)]

@[simp] theorem headerOpcode_sgrad (c4 rev rbw : Bool) {cnt : Nat} (h0 : 1 ≤ cnt) (h1 : cnt ≤ 65535) :
    headerOpcode (encodeHeader 8#8 c4 false false rev rbw cnt) = some .sgrad := by
  have h2 : hdrCnt (encodeHeader 8#8 c4 false false rev rbw cnt) = cnt :=
    hdrCnt_encodeHeader _ _ _ _ _ _ cnt (by omega)
  simp [headerOpcode_eq, h2]
  omega

/-! The header that the encoder makes is the only one of its command with those flags (R57, D37). -/

theorem headerOpcode_some {h : Word} {op : Opcode} (ho : headerOpcode h = some op) :
    ∃ r ∈ opRows, r.op = op ∧ h &&& r.mask = r.pattern ∧ (op = .sgrad → hdrCnt h ≠ 0) := by
  obtain ⟨r, hr, hop⟩ := Option.bind_eq_some_iff.1 ho
  split_ifs at hop with hc
  obtain rfl : r.op = op := by simpa using hop
  exact ⟨r, List.mem_of_find?_eq_some hr, rfl, by simpa using List.find?_some hr, fun e h0 => hc ⟨e, h0⟩⟩

theorem header_config {h : Word} (ho : headerOpcode h = some .config) :
    encodeHeader 1#8 false (hdrNone h) false false false 0 = h := by
  obtain ⟨r, hr, he, hm, -⟩ := headerOpcode_some ho
  simp only [opRows, List.mem_cons, List.not_mem_nil, or_false] at hr
  rcases hr with rfl | rfl | rfl | rfl | rfl | rfl | rfl | rfl | rfl | rfl <;> cases he
  obtain ⟨e1, e2, e3, e4, e5, hz, e0⟩ := (row_config h).1 hm
  have key := encodeHeader_fields h hz
  rwa [e1, e2, e3, e4, e5, e0] at key

theorem header_setbright {h : Word} (ho : headerOpcode h = some .setbright) :
    encodeHeader 2#8 false (hdrNone h) false false false 0 = h := by
  obtain ⟨r, hr, he, hm, -⟩ := headerOpcode_some ho
  simp only [opRows, List.mem_cons, List.not_mem_nil, or_false] at hr
  rcases hr with rfl | rfl | rfl | rfl | rfl | rfl | rfl | rfl | rfl | rfl <;> cases he
  obtain ⟨e1, e2, e3, e4, e5, hz, e0⟩ := (row_setbright h).1 hm
  have key := encodeHeader_fields h hz
  rwa [e1, e2, e3, e4, e5, e0] at key

theorem header_setpixel {h : Word} (ho : headerOpcode h = some .setpixel) :
    encodeHeader 3#8 (hdrC4 h) false false false false 0 = h := by
  obtain ⟨r, hr, he, hm, -⟩ := headerOpcode_some ho
  simp only [opRows, List.mem_cons, List.not_mem_nil, or_false] at hr
  rcases hr with rfl | rfl | rfl | rfl | rfl | rfl | rfl | rfl | rfl | rfl <;> cases he
  obtain ⟨e1, e2, e3, e4, e5, hz, e0⟩ := (row_setpixel h).1 hm
  have key := encodeHeader_fields h hz
  rwa [e1, e2, e3, e4, e5, e0] at key

theorem header_setrange {h : Word} (ho : headerOpcode h = some .setrange) :
    encodeHeader 4#8 (hdrC4 h) false false false false 0 = h := by
  obtain ⟨r, hr, he, hm, -⟩ := headerOpcode_some ho
  simp only [opRows, List.mem_cons, List.not_mem_nil, or_false] at hr
  rcases hr with rfl | rfl | rfl | rfl | rfl | rfl | rfl | rfl | rfl | rfl <;> cases he
  obtain ⟨e1, e2, e3, e4, e5, hz, e0⟩ := (row_setrange h).1 hm
  have key := encodeHeader_fields h hz
  rwa [e1, e2, e3, e4, e5, e0] at key

theorem header_fill {h : Word} (ho : headerOpcode h = some .fill) :
    encodeHeader 5#8 (hdrC4 h) false false false false 0 = h := by
  obtain ⟨r, hr, he, hm, -⟩ := headerOpcode_some ho
  simp only [opRows, List.mem_cons, List.not_mem_nil, or_false] at hr
  rcases hr with rfl | rfl | rfl | rfl | rfl | rfl | rfl | rfl | rfl | rfl <;> cases he
  obtain ⟨e1, e2, e3, e4, e5, hz, e0⟩ := (row_fill h).1 hm
  have key := encodeHeader_fields h hz
  rwa [e1, e2, e3, e4, e5, e0] at key

theorem header_rotate {h : Word} (ho : headerOpcode h = some .rotate) :
    encodeHeader 6#8 false (hdrNone h) (hdrDir h) false false 0 = h := by
  obtain ⟨r, hr, he, hm, -⟩ := headerOpcode_some ho
  simp only [opRows, List.mem_cons, List.not_mem_nil, or_false] at hr
  rcases hr with rfl | rfl | rfl | rfl | rfl | rfl | rfl | rfl | rfl | rfl <;> cases he
  obtain ⟨e1, e2, e3, e4, hz, e0⟩ := (row_rotate h).1 hm
  have key := encodeHeader_fields h hz
  rwa [e1, e2, e3, e4, e0] at key

theorem header_lgrad {h : Word} (ho : headerOpcode h = some .lgrad) :
    encodeHeader 7#8 (hdrC4 h) false false false false 0 = h := by
  obtain ⟨r, hr, he, hm, -⟩ := headerOpcode_some ho
  simp only [opRows, List.mem_cons, List.not_mem_nil, or_false] at hr
  rcases hr with rfl | rfl | rfl | rfl | rfl | rfl | rfl | rfl | rfl | rfl <;> cases he
  obtain ⟨e1, e2, e3, e4, e5, hz, e0⟩ := (row_lgrad h).1 hm
  have key := encodeHeader_fields h hz
  rwa [e1, e2, e3, e4, e5, e0] at key

theorem header_sgrad {h : Word} (ho : headerOpcode h = some .sgrad) :
    encodeHeader 8#8 (hdrC4 h) false false (hdrRev h) (hdrRbw h) (hdrCnt h) = h ∧ 1 ≤ hdrCnt h := by
  obtain ⟨r, hr, he, hm, hc⟩ := headerOpcode_some ho
  simp only [opRows, List.mem_cons, List.not_mem_nil, or_false] at hr
  rcases hr with rfl | rfl | rfl | rfl | rfl | rfl | rfl | rfl | rfl | rfl <;> cases he
  obtain ⟨e1, e2, e3, hz⟩ := (row_sgrad h).1 hm
  have key := encodeHeader_fields h hz
  rw [e1, e2, e3] at key
  exact ⟨key, Nat.pos_of_ne_zero (hc rfl)⟩

theorem header_showFrame {h : Word} (ho : headerOpcode h = some .showFrame) :
    encodeHeader 9#8 false false false false false 0 = h := by
  obtain ⟨r, hr, he, hm, -⟩ := headerOpcode_some ho
  simp only [opRows, List.mem_cons, List.not_mem_nil, or_false] at hr
  rcases hr with rfl | rfl | rfl | rfl | rfl | rfl | rfl | rfl | rfl | rfl <;> cases he
  obtain ⟨e1, e2, e3, e4, e5, e6, hz, e0⟩ := (row_showFrame h).1 hm
  have key := encodeHeader_fields h hz
  rwa [e1, e2, e3, e4, e5, e6, e0] at key

theorem header_readword {h : Word} (ho : headerOpcode h = some .readword) :
    encodeHeader 10#8 false false false false false 0 = h := by
  obtain ⟨r, hr, he, hm, -⟩ := headerOpcode_some ho
  simp only [opRows, List.mem_cons, List.not_mem_nil, or_false] at hr
  rcases hr with rfl | rfl | rfl | rfl | rfl | rfl | rfl | rfl | rfl | rfl <;> cases he
  obtain ⟨e1, e2, e3, e4, e5, e6, hz, e0⟩ := (row_readword h).1 hm
  have key := encodeHeader_fields h hz
  rwa [e1, e2, e3, e4, e5, e6, e0] at key

/-! Operand words. -/

theorem encodeInt_toInt (x : Word) : encodeInt x.toInt = x := by simp [encodeInt]

theorem toInt_encodeInt {v : Int} (h : InSext32 v) : (encodeInt v).toInt = v := by
  obtain ⟨h1, h2⟩ := h
  rw [encodeInt, BitVec.toInt_ofInt]
  exact Int.bmod_eq_of_le (by norm_num; omega) (by norm_num; omega)

theorem inSext32_toInt (x : Word) : InSext32 x.toInt := by
  have h1 := BitVec.le_toInt x
  have h2 := BitVec.toInt_lt (x := x)
  norm_num at h1 h2
  exact ⟨by omega, by omega⟩

theorem decodeColour_encodeColour (c : Colour) : decodeColour (encodeColour c) = c := by
  obtain ⟨r, g, b, w⟩ := c
  simp only [decodeColour, encodeColour, Colour.mk.injEq]
  refine ⟨?_, ?_, ?_, ?_⟩ <;> apply BitVec.eq_of_getLsbD_eq <;> intro i hi <;>
    simp only [BitVec.getLsbD_extractLsb', BitVec.getLsbD_append]
  · simp [hi, show ¬ 24 + i < 8 by omega, show ¬ 24 + i - 8 < 8 by omega, show ¬ 24 + i - 8 - 8 < 8 by omega,
      show 24 + i - 8 - 8 - 8 = i by omega]
  · simp [hi, show ¬ 16 + i < 8 by omega, show ¬ 16 + i - 8 < 8 by omega,
      show 16 + i - 8 - 8 = i by omega]
  · simp [hi, show ¬ 8 + i < 8 by omega, show 8 + i - 8 = i by omega]
  · simp [hi]

theorem encodeColour_decodeColour (x : Word) : encodeColour (decodeColour x) = x := by
  apply BitVec.eq_of_getLsbD_eq
  intro i hi
  simp only [decodeColour, encodeColour, BitVec.getLsbD_extractLsb', BitVec.getLsbD_append]
  by_cases h1 : i < 8
  · simp [h1]
  · by_cases h2 : i < 16
    · simp [h1, show i - 8 < 8 by omega, show 8 + (i - 8) = i by omega]
    · by_cases h3 : i < 24
      · simp [h1, show ¬ i - 8 < 8 by omega, show i - 8 - 8 < 8 by omega, show 16 + (i - 8 - 8) = i by omega]
      · simp [h1, show ¬ i - 8 < 8 by omega, show ¬ i - 8 - 8 < 8 by omega, show i - 8 - 8 - 8 < 8 by omega,
          show 24 + (i - 8 - 8 - 8) = i by omega]

end Sys2Proof
end

