-- ==== Sys2Proof/Laws/Memory.lean ====
section
/-! SUPPORT. What the operations over the word array do: read after write, and the canonical form kept. -/

namespace Sys2Proof.Machine

/-- The canonical form as a proposition. -/
theorem Memory.wf_iff (m : Memory) :
    Memory.wf m = true ↔ m.Pairwise (fun p q => p.1 < q.1) ∧ ∀ p ∈ m, p.2 ≠ 0#32 := by
  simp [Memory.wf]

theorem Memory.wf_zeros : Memory.wf Memory.zeros = true := by decide

@[simp] theorem Memory.read_nil (i : Nat) : Memory.read [] i = 0#32 := rfl

@[simp] theorem Memory.read_zeros (i : Nat) : Memory.read Memory.zeros i = 0#32 := rfl

theorem Memory.wf_tail {p : Nat × Word} {m : Memory} (h : Memory.wf (p :: m) = true) : Memory.wf m = true := by
  rw [Memory.wf_iff] at h ⊢
  exact ⟨(List.pairwise_cons.1 h.1).2, fun q hq => h.2 q (List.mem_cons_of_mem _ hq)⟩

/-- An index below every listed one reads as zero. -/
theorem Memory.read_eq_zero_of_lt {m : Memory} {i : Nat} (h : ∀ p ∈ m, i < p.1) : Memory.read m i = 0#32 := by
  induction m with
  | nil => rfl
  | cons p m ih =>
    obtain ⟨a, v⟩ := p
    have ha : i < a := h (a, v) List.mem_cons_self
    simp [Memory.read, Nat.ne_of_gt ha, ih (fun q hq => h q (List.mem_cons_of_mem _ hq))]

/-- In canonical form a listed index reads as its word. -/
theorem Memory.read_of_mem {m : Memory} (h : Memory.wf m = true) {a : Nat} {v : Word} (hm : (a, v) ∈ m) :
    Memory.read m a = v := by
  induction m with
  | nil => cases hm
  | cons p m ih =>
    obtain ⟨b, x⟩ := p
    rcases List.mem_cons.1 hm with heq | hm'
    · cases heq; simp [Memory.read]
    · have hb : b < a := (List.pairwise_cons.1 ((Memory.wf_iff _).1 h).1).1 (a, v) hm'
      simp [Memory.read, Nat.ne_of_lt hb, ih (Memory.wf_tail h) hm']

/-- Every index listed after a write was listed before or is the one written. -/
theorem Memory.mem_write {m : Memory} {i : Nat} {v : Word} {p : Nat × Word} (hp : p ∈ Memory.write m i v) :
    p ∈ m ∨ (p = (i, v) ∧ v ≠ 0#32) := by
  induction m with
  | nil =>
    by_cases hv : v = 0#32 <;> simp_all [Memory.write]
  | cons q m ih =>
    obtain ⟨a, x⟩ := q
    simp only [Memory.write] at hp
    split_ifs at hp <;> simp_all
    · tauto
    · tauto
    · rcases hp with rfl | hp
      · simp
      · rcases ih hp with h | h <;> simp [h]

/-- A write keeps the canonical form. -/
theorem Memory.wf_write {m : Memory} (h : Memory.wf m = true) (i : Nat) (v : Word) :
    Memory.wf (Memory.write m i v) = true := by
  induction m with
  | nil => by_cases hv : v = 0#32 <;> simp [Memory.write, Memory.wf, hv]
  | cons q m ih =>
    obtain ⟨a, x⟩ := q
    have ht := ih (Memory.wf_tail h)
    rw [Memory.wf_iff] at h ht ⊢
    obtain ⟨hs, hn⟩ := h
    obtain ⟨hlt, hs'⟩ := List.pairwise_cons.1 hs
    simp only [Memory.write]
    split_ifs with h1 h2 h3 h4
    · exact ⟨hs, hn⟩
    · refine ⟨List.pairwise_cons.2 ⟨?_, hs⟩, ?_⟩
      · intro p hp
        rcases List.mem_cons.1 hp with rfl | hp
        · exact h1
        · exact h1.trans (hlt p hp)
      · intro p hp
        rcases List.mem_cons.1 hp with rfl | hp
        · exact h2
        · exact hn p hp
    · exact ⟨hs', fun p hp => hn p (List.mem_cons_of_mem _ hp)⟩
    · subst h3
      refine ⟨List.pairwise_cons.2 ⟨hlt, hs'⟩, ?_⟩
      intro p hp
      rcases List.mem_cons.1 hp with rfl | hp
      · exact h4
      · exact hn p (List.mem_cons_of_mem _ hp)
    · refine ⟨List.pairwise_cons.2 ⟨?_, ht.1⟩, ?_⟩
      · intro p hp
        rcases Memory.mem_write hp with hp | ⟨rfl, -⟩
        · exact hlt p hp
        · simp only; omega
      · intro p hp
        rcases List.mem_cons.1 hp with rfl | hp
        · exact hn _ List.mem_cons_self
        · exact ht.2 p hp

/-- A read after a write: the word written at its index, every other word as before. -/
theorem Memory.read_write {m : Memory} (h : Memory.wf m = true) (i : Nat) (v : Word) (j : Nat) :
    Memory.read (Memory.write m i v) j = if j = i then v else Memory.read m j := by
  induction m with
  | nil =>
    by_cases hv : v = 0#32
    · simp [Memory.write, hv]
    · by_cases hj : j = i
      · simp [Memory.write, hv, Memory.read, hj]
      · simp [Memory.write, hv, Memory.read, hj, Ne.symm hj]
  | cons q m ih =>
    obtain ⟨a, x⟩ := q
    have ht := ih (Memory.wf_tail h)
    have hlt := (List.pairwise_cons.1 ((Memory.wf_iff _).1 h).1).1
    by_cases h1 : i < a
    · have hz : Memory.read ((a, x) :: m) i = 0#32 :=
        Memory.read_eq_zero_of_lt fun p hp => by
          rcases List.mem_cons.1 hp with rfl | hp
          · exact h1
          · exact h1.trans (hlt p hp)
      by_cases hv : v = 0#32
      · by_cases hj : j = i
        · subst hj; simp [Memory.write, h1, hv, hz]
        · simp [Memory.write, h1, hv, hj]
      · by_cases hj : j = i
        · subst hj; simp [Memory.write, h1, hv, Memory.read]
        · simp [Memory.write, h1, hv, Memory.read, hj, Ne.symm hj]
    · by_cases h2 : i = a
      · subst h2
        have hz : Memory.read m i = 0#32 := Memory.read_eq_zero_of_lt hlt
        by_cases hv : v = 0#32
        · by_cases hj : j = i
          · subst hj; simp [Memory.write, hv, hz]
          · simp [Memory.write, hv, Memory.read, hj, Ne.symm hj]
        · by_cases hj : j = i
          · subst hj; simp [Memory.write, hv, Memory.read]
          · simp [Memory.write, hv, Memory.read, hj, Ne.symm hj]
      · by_cases hj : a = j
        · subst hj; simp [Memory.write, h1, h2, Memory.read, Ne.symm h2]
        · simp [Memory.write, h1, h2, Memory.read, hj, ht]

/-- A span of writes keeps the canonical form. -/
theorem Memory.wf_writeSpan {m : Memory} (h : Memory.wf m = true) (lo cnt : Nat) (f : Nat → Word) :
    Memory.wf (Memory.writeSpan m lo cnt f) = true := by
  induction cnt with
  | zero => exact h
  | succ cnt ih => exact Memory.wf_write ih _ _

/-- A read after a span of writes. -/
theorem Memory.read_writeSpan {m : Memory} (h : Memory.wf m = true) (lo cnt : Nat) (f : Nat → Word) (j : Nat) :
    Memory.read (Memory.writeSpan m lo cnt f) j = if lo ≤ j ∧ j < lo + cnt then f j else Memory.read m j := by
  induction cnt with
  | zero => simp [Memory.writeSpan]
  | succ cnt ih =>
    rw [Memory.writeSpan, Memory.read_write (Memory.wf_writeSpan h lo cnt f), ih]
    by_cases hj : j = lo + cnt
    · subst hj; simp
    · by_cases hc : lo ≤ j ∧ j < lo + cnt
      · rw [if_neg hj, if_pos hc, if_pos ⟨hc.1, by omega⟩]
      · rw [if_neg hj, if_neg hc, if_neg (by omega)]

/-- Two arrays in canonical form that read alike everywhere are equal. -/
theorem Memory.ext_read {m m' : Memory} (h : Memory.wf m = true) (h' : Memory.wf m' = true)
    (heq : ∀ i, Memory.read m i = Memory.read m' i) : m = m' := by
  have key : ∀ {a b : Memory}, Memory.wf a = true → Memory.wf b = true →
      (∀ i, Memory.read a i = Memory.read b i) → ∀ p ∈ a, p ∈ b := by
    intro a b ha hb hab p hp
    obtain ⟨i, v⟩ := p
    have hv : v ≠ 0#32 := ((Memory.wf_iff a).1 ha).2 _ hp
    have hr : Memory.read b i = v := by rw [← hab, Memory.read_of_mem ha hp]
    by_contra hn
    have : ∀ {c : Memory}, (∀ q ∈ c, q ∈ b) → Memory.read c i = v → ∃ q ∈ c, q = (i, v) := by
      intro c
      induction c with
      | nil => intro _ hc; exact absurd hc.symm hv
      | cons q c ih =>
        obtain ⟨x, y⟩ := q
        intro hsub hc
        by_cases hx : x = i
        · subst hx
          have : y = v := by simpa [Memory.read] using hc
          exact ⟨(x, y), List.mem_cons_self, by rw [this]⟩
        · obtain ⟨q, hq, rfl⟩ := ih (fun q hq => hsub q (List.mem_cons_of_mem _ hq))
            (by simpa [Memory.read, hx] using hc)
          exact ⟨_, List.mem_cons_of_mem _ hq, rfl⟩
    obtain ⟨q, hq, rfl⟩ := this (fun q hq => hq) hr
    exact hn hq
  refine List.Perm.eq_of_pairwise (le := fun p q : Nat × Word => p.1 < q.1) ?_ ((Memory.wf_iff m).1 h).1
    ((Memory.wf_iff m').1 h').1 ?_
  · intro a b _ _ hab hba; omega
  · have nd : ∀ {a : Memory}, Memory.wf a = true → a.Nodup := fun ha =>
      ((Memory.wf_iff _).1 ha).1.imp (fun hlt e => by subst e; omega)
    exact (List.perm_ext_iff_of_nodup (nd h) (nd h')).2 fun p =>
      ⟨key h h' heq p, key h' h (fun i => (heq i).symm) p⟩

end Sys2Proof.Machine
end

