-- ==== Sys2Proof/Laws/State.lean ====
section
/-! SUPPORT. One lemma for each field of the state and each update, so that no proof unfolds a record update. -/

namespace Sys2Proof.Machine

variable (s : State)

@[simp] theorem State.answer_eq (v : Word) : s.answer v = s.respond .ok v := rfl
@[simp] theorem State.raise_eq (e : Status) : s.raise e = s.respond e 0#32 := rfl

@[simp] theorem State.respond_cfg (status : Status) (ret : Word) : (s.respond status ret).cfg = s.cfg := rfl
@[simp] theorem State.respond_regs (status : Status) (ret : Word) : (s.respond status ret).regs = s.regs := rfl
@[simp] theorem State.respond_bright (status : Status) (ret : Word) : (s.respond status ret).bright = s.bright := rfl
@[simp] theorem State.respond_w (status : Status) (ret : Word) : (s.respond status ret).w = s.w := rfl
@[simp] theorem State.respond_tx (status : Status) (ret : Word) : (s.respond status ret).tx = s.tx := rfl
@[simp] theorem State.respond_line (status : Status) (ret : Word) : (s.respond status ret).line = s.line := rfl
@[simp] theorem State.respond_busy (status : Status) (ret : Word) : (s.respond status ret).busy = s.busy := rfl
@[simp] theorem State.respond_st (status : Status) (ret : Word) : (s.respond status ret).st = s.st := rfl
@[simp] theorem State.respond_lt (status : Status) (ret : Word) : (s.respond status ret).lt = s.lt := rfl
@[simp] theorem State.respond_port (status : Status) (ret : Word) : (s.respond status ret).port = s.port := rfl
@[simp] theorem State.respond_out (status : Status) (ret : Word) : (s.respond status ret).out = s.out ++ [⟨status, ret⟩] := rfl
@[simp] theorem State.respond_ioPlan (status : Status) (ret : Word) : (s.respond status ret).ioPlan = s.ioPlan := rfl
@[simp] theorem State.respond_rst (status : Status) (ret : Word) : (s.respond status ret).rst = s.rst := rfl
@[simp] theorem State.respond_grain (status : Status) (ret : Word) : (s.respond status ret).grain = s.grain := rfl
@[simp] theorem State.respond_params (status : Status) (ret : Word) : (s.respond status ret).params = s.params := rfl
@[simp] theorem State.respond_freeCtr (status : Status) (ret : Word) : (s.respond status ret).freeCtr = s.freeCtr := rfl
@[simp] theorem State.respond_timing (status : Status) (ret : Word) : (s.respond status ret).timing = s.timing := rfl

@[simp] theorem State.setW_cfg (m : Memory) : (s.setW m).cfg = s.cfg := rfl
@[simp] theorem State.setW_regs (m : Memory) : (s.setW m).regs = s.regs := rfl
@[simp] theorem State.setW_bright (m : Memory) : (s.setW m).bright = s.bright := rfl
@[simp] theorem State.setW_w (m : Memory) : (s.setW m).w = m := rfl
@[simp] theorem State.setW_tx (m : Memory) : (s.setW m).tx = s.tx := rfl
@[simp] theorem State.setW_line (m : Memory) : (s.setW m).line = s.line := rfl
@[simp] theorem State.setW_busy (m : Memory) : (s.setW m).busy = s.busy := rfl
@[simp] theorem State.setW_st (m : Memory) : (s.setW m).st = s.st := rfl
@[simp] theorem State.setW_lt (m : Memory) : (s.setW m).lt = s.lt := rfl
@[simp] theorem State.setW_port (m : Memory) : (s.setW m).port = s.port := rfl
@[simp] theorem State.setW_out (m : Memory) : (s.setW m).out = s.out := rfl
@[simp] theorem State.setW_ioPlan (m : Memory) : (s.setW m).ioPlan = s.ioPlan := rfl
@[simp] theorem State.setW_rst (m : Memory) : (s.setW m).rst = s.rst := rfl
@[simp] theorem State.setW_grain (m : Memory) : (s.setW m).grain = s.grain := rfl
@[simp] theorem State.setW_params (m : Memory) : (s.setW m).params = s.params := rfl
@[simp] theorem State.setW_freeCtr (m : Memory) : (s.setW m).freeCtr = s.freeCtr := rfl
@[simp] theorem State.setW_timing (m : Memory) : (s.setW m).timing = s.timing := rfl

@[simp] theorem State.setBright_cfg (v : Byte) : (s.setBright v).cfg = s.cfg := rfl
@[simp] theorem State.setBright_regs (v : Byte) : (s.setBright v).regs = s.regs := rfl
@[simp] theorem State.setBright_bright (v : Byte) : (s.setBright v).bright = v := rfl
@[simp] theorem State.setBright_w (v : Byte) : (s.setBright v).w = s.w := rfl
@[simp] theorem State.setBright_tx (v : Byte) : (s.setBright v).tx = s.tx := rfl
@[simp] theorem State.setBright_line (v : Byte) : (s.setBright v).line = s.line := rfl
@[simp] theorem State.setBright_busy (v : Byte) : (s.setBright v).busy = s.busy := rfl
@[simp] theorem State.setBright_st (v : Byte) : (s.setBright v).st = s.st := rfl
@[simp] theorem State.setBright_lt (v : Byte) : (s.setBright v).lt = s.lt := rfl
@[simp] theorem State.setBright_port (v : Byte) : (s.setBright v).port = s.port := rfl
@[simp] theorem State.setBright_out (v : Byte) : (s.setBright v).out = s.out := rfl
@[simp] theorem State.setBright_ioPlan (v : Byte) : (s.setBright v).ioPlan = s.ioPlan := rfl
@[simp] theorem State.setBright_rst (v : Byte) : (s.setBright v).rst = s.rst := rfl
@[simp] theorem State.setBright_grain (v : Byte) : (s.setBright v).grain = s.grain := rfl
@[simp] theorem State.setBright_params (v : Byte) : (s.setBright v).params = s.params := rfl
@[simp] theorem State.setBright_freeCtr (v : Byte) : (s.setBright v).freeCtr = s.freeCtr := rfl
@[simp] theorem State.setBright_timing (v : Byte) : (s.setBright v).timing = s.timing := rfl

@[simp] theorem State.setRegs_cfg (r : ConfigRegs) : (s.setRegs r).cfg = s.cfg := rfl
@[simp] theorem State.setRegs_regs (r : ConfigRegs) : (s.setRegs r).regs = r := rfl
@[simp] theorem State.setRegs_bright (r : ConfigRegs) : (s.setRegs r).bright = s.bright := rfl
@[simp] theorem State.setRegs_w (r : ConfigRegs) : (s.setRegs r).w = s.w := rfl
@[simp] theorem State.setRegs_tx (r : ConfigRegs) : (s.setRegs r).tx = s.tx := rfl
@[simp] theorem State.setRegs_line (r : ConfigRegs) : (s.setRegs r).line = s.line := rfl
@[simp] theorem State.setRegs_busy (r : ConfigRegs) : (s.setRegs r).busy = s.busy := rfl
@[simp] theorem State.setRegs_st (r : ConfigRegs) : (s.setRegs r).st = s.st := rfl
@[simp] theorem State.setRegs_lt (r : ConfigRegs) : (s.setRegs r).lt = s.lt := rfl
@[simp] theorem State.setRegs_port (r : ConfigRegs) : (s.setRegs r).port = s.port := rfl
@[simp] theorem State.setRegs_out (r : ConfigRegs) : (s.setRegs r).out = s.out := rfl
@[simp] theorem State.setRegs_ioPlan (r : ConfigRegs) : (s.setRegs r).ioPlan = s.ioPlan := rfl
@[simp] theorem State.setRegs_rst (r : ConfigRegs) : (s.setRegs r).rst = s.rst := rfl
@[simp] theorem State.setRegs_grain (r : ConfigRegs) : (s.setRegs r).grain = s.grain := rfl
@[simp] theorem State.setRegs_params (r : ConfigRegs) : (s.setRegs r).params = s.params := rfl
@[simp] theorem State.setRegs_freeCtr (r : ConfigRegs) : (s.setRegs r).freeCtr = s.freeCtr := rfl

@[simp] theorem State.setCfg_cfg (c : Bool) : (s.setCfg c).cfg = c := rfl
@[simp] theorem State.setCfg_regs (c : Bool) : (s.setCfg c).regs = s.regs := rfl
@[simp] theorem State.setCfg_bright (c : Bool) : (s.setCfg c).bright = s.bright := rfl
@[simp] theorem State.setCfg_w (c : Bool) : (s.setCfg c).w = s.w := rfl
@[simp] theorem State.setCfg_tx (c : Bool) : (s.setCfg c).tx = s.tx := rfl
@[simp] theorem State.setCfg_line (c : Bool) : (s.setCfg c).line = s.line := rfl
@[simp] theorem State.setCfg_busy (c : Bool) : (s.setCfg c).busy = s.busy := rfl
@[simp] theorem State.setCfg_st (c : Bool) : (s.setCfg c).st = s.st := rfl
@[simp] theorem State.setCfg_lt (c : Bool) : (s.setCfg c).lt = s.lt := rfl
@[simp] theorem State.setCfg_port (c : Bool) : (s.setCfg c).port = s.port := rfl
@[simp] theorem State.setCfg_out (c : Bool) : (s.setCfg c).out = s.out := rfl
@[simp] theorem State.setCfg_ioPlan (c : Bool) : (s.setCfg c).ioPlan = s.ioPlan := rfl
@[simp] theorem State.setCfg_rst (c : Bool) : (s.setCfg c).rst = s.rst := rfl
@[simp] theorem State.setCfg_grain (c : Bool) : (s.setCfg c).grain = s.grain := rfl
@[simp] theorem State.setCfg_params (c : Bool) : (s.setCfg c).params = s.params := rfl
@[simp] theorem State.setCfg_freeCtr (c : Bool) : (s.setCfg c).freeCtr = s.freeCtr := rfl
@[simp] theorem State.setCfg_timing (c : Bool) : (s.setCfg c).timing = s.timing := rfl

@[simp] theorem State.setPort_cfg (ws : List Word) : (s.setPort ws).cfg = s.cfg := rfl
@[simp] theorem State.setPort_regs (ws : List Word) : (s.setPort ws).regs = s.regs := rfl
@[simp] theorem State.setPort_bright (ws : List Word) : (s.setPort ws).bright = s.bright := rfl
@[simp] theorem State.setPort_w (ws : List Word) : (s.setPort ws).w = s.w := rfl
@[simp] theorem State.setPort_tx (ws : List Word) : (s.setPort ws).tx = s.tx := rfl
@[simp] theorem State.setPort_line (ws : List Word) : (s.setPort ws).line = s.line := rfl
@[simp] theorem State.setPort_busy (ws : List Word) : (s.setPort ws).busy = s.busy := rfl
@[simp] theorem State.setPort_st (ws : List Word) : (s.setPort ws).st = s.st := rfl
@[simp] theorem State.setPort_lt (ws : List Word) : (s.setPort ws).lt = s.lt := rfl
@[simp] theorem State.setPort_port (ws : List Word) : (s.setPort ws).port = ws := rfl
@[simp] theorem State.setPort_out (ws : List Word) : (s.setPort ws).out = s.out := rfl
@[simp] theorem State.setPort_ioPlan (ws : List Word) : (s.setPort ws).ioPlan = s.ioPlan := rfl
@[simp] theorem State.setPort_rst (ws : List Word) : (s.setPort ws).rst = s.rst := rfl
@[simp] theorem State.setPort_grain (ws : List Word) : (s.setPort ws).grain = s.grain := rfl
@[simp] theorem State.setPort_params (ws : List Word) : (s.setPort ws).params = s.params := rfl
@[simp] theorem State.setPort_freeCtr (ws : List Word) : (s.setPort ws).freeCtr = s.freeCtr := rfl
@[simp] theorem State.setPort_timing (ws : List Word) : (s.setPort ws).timing = s.timing := rfl

@[simp] theorem State.clearTraces_cfg : s.clearTraces.cfg = s.cfg := rfl
@[simp] theorem State.clearTraces_regs : s.clearTraces.regs = s.regs := rfl
@[simp] theorem State.clearTraces_bright : s.clearTraces.bright = s.bright := rfl
@[simp] theorem State.clearTraces_w : s.clearTraces.w = s.w := rfl
@[simp] theorem State.clearTraces_tx : s.clearTraces.tx = s.tx := rfl
@[simp] theorem State.clearTraces_line : s.clearTraces.line = s.line := rfl
@[simp] theorem State.clearTraces_busy : s.clearTraces.busy = s.busy := rfl
@[simp] theorem State.clearTraces_st : s.clearTraces.st = [] := rfl
@[simp] theorem State.clearTraces_lt : s.clearTraces.lt = [] := rfl
@[simp] theorem State.clearTraces_port : s.clearTraces.port = s.port := rfl
@[simp] theorem State.clearTraces_out : s.clearTraces.out = s.out := rfl
@[simp] theorem State.clearTraces_ioPlan : s.clearTraces.ioPlan = s.ioPlan := rfl
@[simp] theorem State.clearTraces_rst : s.clearTraces.rst = s.rst := rfl
@[simp] theorem State.clearTraces_grain : s.clearTraces.grain = s.grain := rfl
@[simp] theorem State.clearTraces_params : s.clearTraces.params = s.params := rfl
@[simp] theorem State.clearTraces_freeCtr : s.clearTraces.freeCtr = s.freeCtr := rfl
@[simp] theorem State.clearTraces_timing : s.clearTraces.timing = s.timing := rfl

@[simp] theorem State.setPhase_cfg (p : TxPhase) : (s.setPhase p).cfg = s.cfg := rfl
@[simp] theorem State.setPhase_regs (p : TxPhase) : (s.setPhase p).regs = s.regs := rfl
@[simp] theorem State.setPhase_bright (p : TxPhase) : (s.setPhase p).bright = s.bright := rfl
@[simp] theorem State.setPhase_w (p : TxPhase) : (s.setPhase p).w = s.w := rfl
@[simp] theorem State.setPhase_tx (p : TxPhase) : (s.setPhase p).tx = { s.tx with phase := p } := rfl
@[simp] theorem State.setPhase_line (p : TxPhase) : (s.setPhase p).line = lineLevel p := rfl
@[simp] theorem State.setPhase_busy (p : TxPhase) : (s.setPhase p).busy = busyFlag p := rfl
@[simp] theorem State.setPhase_st (p : TxPhase) : (s.setPhase p).st = s.st := rfl
@[simp] theorem State.setPhase_lt (p : TxPhase) : (s.setPhase p).lt = s.lt := rfl
@[simp] theorem State.setPhase_port (p : TxPhase) : (s.setPhase p).port = s.port := rfl
@[simp] theorem State.setPhase_out (p : TxPhase) : (s.setPhase p).out = s.out := rfl
@[simp] theorem State.setPhase_ioPlan (p : TxPhase) : (s.setPhase p).ioPlan = s.ioPlan := rfl
@[simp] theorem State.setPhase_rst (p : TxPhase) : (s.setPhase p).rst = s.rst := rfl
@[simp] theorem State.setPhase_grain (p : TxPhase) : (s.setPhase p).grain = s.grain := rfl
@[simp] theorem State.setPhase_params (p : TxPhase) : (s.setPhase p).params = s.params := rfl
@[simp] theorem State.setPhase_freeCtr (p : TxPhase) : (s.setPhase p).freeCtr = s.freeCtr := rfl
@[simp] theorem State.setPhase_timing (p : TxPhase) : (s.setPhase p).timing = s.timing := rfl

@[simp] theorem State.releaseTx_cfg : s.releaseTx.cfg = s.cfg := rfl
@[simp] theorem State.releaseTx_regs : s.releaseTx.regs = s.regs := rfl
@[simp] theorem State.releaseTx_bright : s.releaseTx.bright = s.bright := rfl
@[simp] theorem State.releaseTx_w : s.releaseTx.w = s.w := rfl
@[simp] theorem State.releaseTx_phase : s.releaseTx.tx.phase = .idle := rfl
@[simp] theorem State.releaseTx_fail : s.releaseTx.tx.fail = none := rfl
@[simp] theorem State.releaseTx_line : s.releaseTx.line = false := rfl
@[simp] theorem State.releaseTx_busy : s.releaseTx.busy = false := rfl
@[simp] theorem State.releaseTx_st : s.releaseTx.st = s.st := rfl
@[simp] theorem State.releaseTx_lt : s.releaseTx.lt = s.lt := rfl
@[simp] theorem State.releaseTx_port : s.releaseTx.port = s.port := rfl
@[simp] theorem State.releaseTx_out : s.releaseTx.out = s.out := rfl
@[simp] theorem State.releaseTx_ioPlan : s.releaseTx.ioPlan = s.ioPlan := rfl
@[simp] theorem State.releaseTx_rst : s.releaseTx.rst = s.rst := rfl
@[simp] theorem State.releaseTx_grain : s.releaseTx.grain = s.grain := rfl
@[simp] theorem State.releaseTx_params : s.releaseTx.params = s.params := rfl
@[simp] theorem State.releaseTx_freeCtr : s.releaseTx.freeCtr = s.freeCtr + 1 := rfl
@[simp] theorem State.releaseTx_timing : s.releaseTx.timing = s.timing := rfl

@[simp] theorem State.setCnt_cfg (c : Nat) : (s.setCnt c).cfg = s.cfg := rfl
@[simp] theorem State.setCnt_regs (c : Nat) : (s.setCnt c).regs = s.regs := rfl
@[simp] theorem State.setCnt_bright (c : Nat) : (s.setCnt c).bright = s.bright := rfl
@[simp] theorem State.setCnt_w (c : Nat) : (s.setCnt c).w = s.w := rfl
@[simp] theorem State.setCnt_tx (c : Nat) : (s.setCnt c).tx = { s.tx with cnt := c } := rfl
@[simp] theorem State.setCnt_line (c : Nat) : (s.setCnt c).line = s.line := rfl
@[simp] theorem State.setCnt_busy (c : Nat) : (s.setCnt c).busy = s.busy := rfl
@[simp] theorem State.setCnt_st (c : Nat) : (s.setCnt c).st = s.st := rfl
@[simp] theorem State.setCnt_lt (c : Nat) : (s.setCnt c).lt = s.lt := rfl
@[simp] theorem State.setCnt_port (c : Nat) : (s.setCnt c).port = s.port := rfl
@[simp] theorem State.setCnt_out (c : Nat) : (s.setCnt c).out = s.out := rfl
@[simp] theorem State.setCnt_ioPlan (c : Nat) : (s.setCnt c).ioPlan = s.ioPlan := rfl
@[simp] theorem State.setCnt_rst (c : Nat) : (s.setCnt c).rst = s.rst := rfl
@[simp] theorem State.setCnt_grain (c : Nat) : (s.setCnt c).grain = s.grain := rfl
@[simp] theorem State.setCnt_params (c : Nat) : (s.setCnt c).params = s.params := rfl
@[simp] theorem State.setCnt_freeCtr (c : Nat) : (s.setCnt c).freeCtr = s.freeCtr := rfl
@[simp] theorem State.setCnt_timing (c : Nat) : (s.setCnt c).timing = s.timing := rfl

@[simp] theorem State.setPos_cfg (idx bit : Nat) (sr : Word) : (s.setPos idx bit sr).cfg = s.cfg := rfl
@[simp] theorem State.setPos_regs (idx bit : Nat) (sr : Word) : (s.setPos idx bit sr).regs = s.regs := rfl
@[simp] theorem State.setPos_bright (idx bit : Nat) (sr : Word) : (s.setPos idx bit sr).bright = s.bright := rfl
@[simp] theorem State.setPos_w (idx bit : Nat) (sr : Word) : (s.setPos idx bit sr).w = s.w := rfl
@[simp] theorem State.setPos_tx (idx bit : Nat) (sr : Word) : (s.setPos idx bit sr).tx = { s.tx with idx := idx, bit := bit, sr := sr } := rfl
@[simp] theorem State.setPos_line (idx bit : Nat) (sr : Word) : (s.setPos idx bit sr).line = s.line := rfl
@[simp] theorem State.setPos_busy (idx bit : Nat) (sr : Word) : (s.setPos idx bit sr).busy = s.busy := rfl
@[simp] theorem State.setPos_st (idx bit : Nat) (sr : Word) : (s.setPos idx bit sr).st = s.st := rfl
@[simp] theorem State.setPos_lt (idx bit : Nat) (sr : Word) : (s.setPos idx bit sr).lt = s.lt := rfl
@[simp] theorem State.setPos_port (idx bit : Nat) (sr : Word) : (s.setPos idx bit sr).port = s.port := rfl
@[simp] theorem State.setPos_out (idx bit : Nat) (sr : Word) : (s.setPos idx bit sr).out = s.out := rfl
@[simp] theorem State.setPos_ioPlan (idx bit : Nat) (sr : Word) : (s.setPos idx bit sr).ioPlan = s.ioPlan := rfl
@[simp] theorem State.setPos_rst (idx bit : Nat) (sr : Word) : (s.setPos idx bit sr).rst = s.rst := rfl
@[simp] theorem State.setPos_grain (idx bit : Nat) (sr : Word) : (s.setPos idx bit sr).grain = s.grain := rfl
@[simp] theorem State.setPos_params (idx bit : Nat) (sr : Word) : (s.setPos idx bit sr).params = s.params := rfl
@[simp] theorem State.setPos_freeCtr (idx bit : Nat) (sr : Word) : (s.setPos idx bit sr).freeCtr = s.freeCtr := rfl
@[simp] theorem State.setPos_timing (idx bit : Nat) (sr : Word) : (s.setPos idx bit sr).timing = s.timing := rfl

@[simp] theorem State.setFail_cfg (m : Option Nat) : (s.setFail m).cfg = s.cfg := rfl
@[simp] theorem State.setFail_regs (m : Option Nat) : (s.setFail m).regs = s.regs := rfl
@[simp] theorem State.setFail_bright (m : Option Nat) : (s.setFail m).bright = s.bright := rfl
@[simp] theorem State.setFail_w (m : Option Nat) : (s.setFail m).w = s.w := rfl
@[simp] theorem State.setFail_tx (m : Option Nat) : (s.setFail m).tx = { s.tx with fail := m } := rfl
@[simp] theorem State.setFail_line (m : Option Nat) : (s.setFail m).line = s.line := rfl
@[simp] theorem State.setFail_busy (m : Option Nat) : (s.setFail m).busy = s.busy := rfl
@[simp] theorem State.setFail_st (m : Option Nat) : (s.setFail m).st = s.st := rfl
@[simp] theorem State.setFail_lt (m : Option Nat) : (s.setFail m).lt = s.lt := rfl
@[simp] theorem State.setFail_port (m : Option Nat) : (s.setFail m).port = s.port := rfl
@[simp] theorem State.setFail_out (m : Option Nat) : (s.setFail m).out = s.out := rfl
@[simp] theorem State.setFail_ioPlan (m : Option Nat) : (s.setFail m).ioPlan = s.ioPlan := rfl
@[simp] theorem State.setFail_rst (m : Option Nat) : (s.setFail m).rst = s.rst := rfl
@[simp] theorem State.setFail_grain (m : Option Nat) : (s.setFail m).grain = s.grain := rfl
@[simp] theorem State.setFail_params (m : Option Nat) : (s.setFail m).params = s.params := rfl
@[simp] theorem State.setFail_freeCtr (m : Option Nat) : (s.setFail m).freeCtr = s.freeCtr := rfl
@[simp] theorem State.setFail_timing (m : Option Nat) : (s.setFail m).timing = s.timing := rfl

@[simp] theorem State.popIo_cfg : s.popIo.cfg = s.cfg := rfl
@[simp] theorem State.popIo_regs : s.popIo.regs = s.regs := rfl
@[simp] theorem State.popIo_bright : s.popIo.bright = s.bright := rfl
@[simp] theorem State.popIo_w : s.popIo.w = s.w := rfl
@[simp] theorem State.popIo_tx : s.popIo.tx = s.tx := rfl
@[simp] theorem State.popIo_line : s.popIo.line = s.line := rfl
@[simp] theorem State.popIo_busy : s.popIo.busy = s.busy := rfl
@[simp] theorem State.popIo_st : s.popIo.st = s.st := rfl
@[simp] theorem State.popIo_lt : s.popIo.lt = s.lt := rfl
@[simp] theorem State.popIo_port : s.popIo.port = s.port := rfl
@[simp] theorem State.popIo_out : s.popIo.out = s.out := rfl
@[simp] theorem State.popIo_ioPlan : s.popIo.ioPlan = s.ioPlan.tail := rfl
@[simp] theorem State.popIo_rst : s.popIo.rst = s.rst := rfl
@[simp] theorem State.popIo_grain : s.popIo.grain = s.grain := rfl
@[simp] theorem State.popIo_params : s.popIo.params = s.params := rfl
@[simp] theorem State.popIo_freeCtr : s.popIo.freeCtr = s.freeCtr := rfl
@[simp] theorem State.popIo_timing : s.popIo.timing = s.timing := rfl

@[simp] theorem State.emit_cfg (syms : List Symbol) : (s.emit syms).cfg = s.cfg := rfl
@[simp] theorem State.emit_regs (syms : List Symbol) : (s.emit syms).regs = s.regs := rfl
@[simp] theorem State.emit_bright (syms : List Symbol) : (s.emit syms).bright = s.bright := rfl
@[simp] theorem State.emit_w (syms : List Symbol) : (s.emit syms).w = s.w := rfl
@[simp] theorem State.emit_tx (syms : List Symbol) : (s.emit syms).tx = s.tx := rfl
@[simp] theorem State.emit_line (syms : List Symbol) : (s.emit syms).line = s.line := rfl
@[simp] theorem State.emit_busy (syms : List Symbol) : (s.emit syms).busy = s.busy := rfl
@[simp] theorem State.emit_st (syms : List Symbol) : (s.emit syms).st = s.st ++ syms := rfl
@[simp] theorem State.emit_lt (syms : List Symbol) : (s.emit syms).lt = s.lt ++ segsOf s.timing syms := rfl
@[simp] theorem State.emit_port (syms : List Symbol) : (s.emit syms).port = s.port := rfl
@[simp] theorem State.emit_out (syms : List Symbol) : (s.emit syms).out = s.out := rfl
@[simp] theorem State.emit_ioPlan (syms : List Symbol) : (s.emit syms).ioPlan = s.ioPlan := rfl
@[simp] theorem State.emit_rst (syms : List Symbol) : (s.emit syms).rst = s.rst := rfl
@[simp] theorem State.emit_grain (syms : List Symbol) : (s.emit syms).grain = s.grain := rfl
@[simp] theorem State.emit_params (syms : List Symbol) : (s.emit syms).params = s.params := rfl
@[simp] theorem State.emit_freeCtr (syms : List Symbol) : (s.emit syms).freeCtr = s.freeCtr := rfl
@[simp] theorem State.emit_timing (syms : List Symbol) : (s.emit syms).timing = s.timing := rfl

@[simp] theorem busyFlag_idle : busyFlag .idle = false := rfl
@[simp] theorem lineLevel_idle : lineLevel .idle = false := rfl

end Sys2Proof.Machine
end

