-- ==== Sys2Proof/Laws/Paint.lean ====
section
/-! SUPPORT. Said once for the commands that store words: what `Pack` ignores, what a rotation, a painted span and a plan leave
at an index, and that a plan meets its constraints (R82, R100, R111, R116, R117). -/

namespace Sys2Proof.Machine

/-- The life-cycle guard: two bodies that agree on a constructed block are one command. -/
theorem whenConstructed_congr {s : State} {f g : State → State} (h : s.cfg = true → f s = g s) :
    s.whenConstructed f = s.whenConstructed g := by
  unfold State.whenConstructed
  split_ifs with hc
  · exact h hc
  · rfl

/-- Without a W lane neither C4 nor the fourth channel matters (R80). -/
theorem pack_of_hasw_false {s : State} (h : s.regs.hasw = false) (c4 c4' : Bool) {col col' : Colour} (hr : col.r = col'.r)
    (hg : col.g = col'.g) (hb : col.b = col'.b) : s.pack c4 col = s.pack c4' col' := by
  simp [State.pack, packWith, h, hr, hg, hb]

/-- Without C4 the fourth channel does not matter (R55, R80). -/
theorem pack_of_c4_false (s : State) {col col' : Colour} (hr : col.r = col'.r) (hg : col.g = col'.g) (hb : col.b = col'.b) :
    s.pack false col = s.pack false col' := by
  simp [State.pack, packWith, hr, hg, hb]

/-- The W channel that `lerpColour` leaves out is one that `Pack` does not read. -/
theorem pack_lerpColour (s : State) (c4 : Bool) (a b : Colour) (j d : Nat) :
    s.pack c4 (lerpColour c4 a b j d) = s.pack c4 ⟨lerp a.r b.r j d, lerp a.g b.g j d, lerp a.b b.b j d, lerp a.w b.w j d⟩ := by
  cases c4
  · exact pack_of_c4_false s rfl rfl rfl
  · rfl

/-- A colour interpolated with itself packs as itself (R110, R117). -/
theorem pack_lerp_same (s : State) (c4 : Bool) (a : Colour) {j d : Nat} (hj : j ≤ d) (hd : 1 ≤ d) :
    s.pack c4 (lerpColour c4 a a j d) = s.pack c4 a := by
  rw [pack_lerpColour]
  simp [lerp_same _ hj hd]

theorem wf_rotated {m : Memory} (h : Memory.wf m = true) (right : Bool) (k n : Nat) :
    Memory.wf (rotated right k n m) = true := Memory.wf_writeSpan h _ _ _

/-- What a rotation leaves at an index (R100). -/
theorem read_rotated {m : Memory} (h : Memory.wf m = true) (right : Bool) (k n i : Nat) :
    Memory.read (rotated right k n m) i =
      if i < n then Memory.read m (if right then modN ((i : Int) - k) n else modN ((i : Int) + k) n)
      else Memory.read m i := by
  rw [rotated, Memory.read_writeSpan h]
  simp

/-- The reduced offset may be put back unreduced. -/
theorem modN_add_modN (i k : Int) {n : Nat} (hn : 1 ≤ n) :
    modN (i + modN k n) n = ((i + k) % (n : Int)).toNat := by
  rw [modN, modN_cast k hn, Int.add_emod_emod]

theorem modN_sub_modN (i k : Int) {n : Nat} (hn : 1 ≤ n) :
    modN (i - modN k n) n = ((i - k) % (n : Int)).toNat := by
  rw [modN, modN_cast k hn, Int.sub_emod, Int.emod_emod_of_dvd _ (dvd_refl _), ← Int.sub_emod]

theorem wf_paint {m : Memory} (h : Memory.wf m = true) (s : State) (c4 : Bool) (ca cb : Colour) (lo hi : Nat) :
    Memory.wf (s.paint c4 ca cb lo hi m) = true := Memory.wf_writeSpan h _ _ _

/-- What a painted span leaves at an index (R111, R117). -/
theorem read_paint {m : Memory} (h : Memory.wf m = true) (s : State) (c4 : Bool) (ca cb : Colour) {lo hi : Nat} (hl : lo ≤ hi)
    (i : Nat) :
    Memory.read (s.paint c4 ca cb lo hi m) i =
      if lo ≤ i ∧ i ≤ hi then s.pack c4 (lerpColour c4 ca cb (i - lo) (hi - lo)) else Memory.read m i := by
  rw [State.paint, Memory.read_writeSpan h]
  simp only [show lo ≤ i ∧ i < lo + (hi - lo + 1) ↔ lo ≤ i ∧ i ≤ hi by omega]

theorem wf_paintSeg {m : Memory} (h : Memory.wf m = true) (s : State) (c4 : Bool) (cols : List Colour) (g : PlanSeg) :
    Memory.wf (s.paintSeg c4 cols m g) = true := by
  simp only [State.paintSeg]
  split_ifs
  · exact h
  all_goals exact wf_paint h _ _ _ _ _ _

/-- What one segment leaves at an index (R117). -/
theorem read_paintSeg {m : Memory} (h : Memory.wf m = true) (s : State) (c4 : Bool) (cols : List Colour) {g : PlanSeg}
    (hl : g.lo ≤ g.hi) (i : Nat) :
    (¬ Covers g i → Memory.read (s.paintSeg c4 cols m g) i = Memory.read m i) ∧
    (Covers g i → Memory.read (s.paintSeg c4 cols m g) i = s.pack c4
      (lerpColour c4 (colourAt cols (if g.fwd then g.k else (g.k + 1) % cols.length))
        (colourAt cols (if g.fwd then (g.k + 1) % cols.length else g.k)) (i - g.lo) (g.hi - g.lo))) := by
  unfold Covers
  simp only [State.paintSeg]
  by_cases he : g.lo = g.hi
  · rw [if_pos he]
    exact ⟨fun _ => rfl, fun hc => absurd he (by omega)⟩
  · rw [if_neg he]
    cases g.fwd <;> simp only [if_true, Bool.false_eq_true, if_false] <;> rw [read_paint h _ _ _ _ hl] <;>
      refine ⟨fun hc => if_neg (by omega), fun hc => if_pos (by omega)⟩

theorem wf_paintPlan (segs : List PlanSeg) {m : Memory} (h : Memory.wf m = true) (s : State) (c4 : Bool) (cols : List Colour) :
    Memory.wf (segs.foldl (s.paintSeg c4 cols) m) = true := by
  induction segs generalizing m with
  | nil => exact h
  | cons g segs ih => exact ih (wf_paintSeg h _ _ _ _)

/-- A pixel that no segment covers is left as it was (R117). -/
theorem read_paintPlan_of_not_covered (segs : List PlanSeg) {m : Memory} (h : Memory.wf m = true) (s : State) (c4 : Bool)
    (cols : List Colour) (hl : ∀ g ∈ segs, g.lo ≤ g.hi) (i : Nat) (hc : ∀ g ∈ segs, ¬ Covers g i) :
    Memory.read (segs.foldl (s.paintSeg c4 cols) m) i = Memory.read m i := by
  induction segs generalizing m with
  | nil => rfl
  | cons g segs ih =>
    rw [List.foldl_cons, ih (wf_paintSeg h _ _ _ _) (fun g' hg => hl g' (List.mem_cons_of_mem _ hg))
      (fun g' hg => hc g' (List.mem_cons_of_mem _ hg))]
    exact (read_paintSeg h s c4 cols (hl g List.mem_cons_self) i).1 (hc g List.mem_cons_self)

theorem colourAt_of_getElem? {cols : List Colour} {k : Nat} {c : Colour} (h : cols[k]? = some c) : colourAt cols k = c := by
  simp [colourAt, List.getD, h]

/-- A plan that is not invalid met the range test and the constraints (R116). -/
theorem sgradPlan_some {p : Params} {n cnt : Nat} {f l : Int} {rev rbw : Bool} {segs : List PlanSeg}
    (h : sgradPlan p n cnt f l rev rbw = some segs) :
    (0 ≤ f ∧ f < n ∧ 0 ≤ l ∧ l < n) ∧ planOk n cnt l rev rbw segs = true := by
  unfold sgradPlan at h
  split_ifs at h with hr
  cases hc : rawPlan p ⟨n, cnt, f, l, rev, rbw⟩ with
  | none => rw [hc] at h; cases h
  | some x =>
    rw [hc] at h
    simp only at h
    split_ifs at h with hp
    cases h
    exact ⟨hr, hp⟩

theorem segWidths_iff (cnt : Nat) (l : Int) : ∀ segs : List PlanSeg, segWidths cnt l segs = true ↔
    (∀ g ∈ segs.dropLast, (g.hi : Int) - g.lo ≤ (l + 1) / (cnt : Int)) ∧ ∀ g, segs.getLast? = some g → (g.hi : Int) ≤ l
  | [] => by simp [segWidths]
  | [g] => by simp [segWidths]
  | g :: g' :: gs => by
    have ih := segWidths_iff cnt l (g' :: gs)
    rw [segWidths, Bool.and_eq_true, decide_eq_true_eq, ih, List.dropLast_cons_cons, List.forall_mem_cons,
      List.getLast?_cons_cons, and_assoc, segWidth]
    simp

theorem segDirection_iff (rev rainbow : Bool) (g : PlanSeg) : segDirection rev rainbow g = true ↔
    (rainbow = true → g.fwd = true) ∧ (rainbow = false → rev = false → (g.fwd = true ↔ g.k = 0)) := by
  cases rainbow <;> cases rev <;> cases h : g.fwd <;> simp [segDirection, h]

/-- The constraints as the model computes them are those of R116 in its words; that there are at most `n` segments follows. -/
theorem planOk_iff (n cnt : Nat) (l : Int) (rev rainbow : Bool) (segs : List PlanSeg) :
    planOk n cnt l rev rainbow segs = true ↔ PlanMeets n cnt l rev rainbow segs := by
  simp only [planOk, Bool.and_eq_true, List.all_eq_true, segInBounds, segAscending, decide_eq_true_eq, segDirection_iff,
    segWidths_iff]
  constructor
  · rintro ⟨⟨⟨h1, h2⟩, h3⟩, h4, h5⟩
    refine ⟨?_, h1, h3, h4, h5, fun hr g hg => (h2 g hg).1 hr, fun hr hv g hg => (h2 g hg).2 hr hv⟩
    have hn : (segs.map PlanSeg.k).Nodup := List.pairwise_map.2 (h3.imp fun h => h.ne)
    have hs : segs.map PlanSeg.k ⊆ List.range cnt := by
      intro k hk
      obtain ⟨g, hg, rfl⟩ := List.mem_map.1 hk
      exact List.mem_range.2 (h1 g hg).1
    simpa using (List.subperm_of_subset hn hs).length_le
  · intro h
    exact ⟨⟨⟨h.bounds, fun g hg => ⟨fun hr => h.p3 hr g hg, fun hr hv => h.p4 hr hv g hg⟩⟩, h.ascending⟩, h.p1, h.p2⟩

/-- Every segment of a plan lies in the array and picks a colour (R116). -/
theorem planOk_bounds {n cnt : Nat} {l : Int} {rev rbw : Bool} {segs : List PlanSeg} (h : planOk n cnt l rev rbw segs = true) :
    ∀ g ∈ segs, g.k < cnt ∧ g.lo ≤ g.hi ∧ g.hi < n := ((planOk_iff _ _ _ _ _ _).1 h).bounds

/-- The open parameter before its constraints (R116, log 6). -/
theorem rawPlan_eq_some (p : Params) (args : PlanArgs) (segs : List PlanSeg) :
    rawPlan p args = some segs ↔ PlanGiven p args segs := by
  unfold rawPlan PlanGiven
  cases h : p.plans.lookup args <;> simp

end Sys2Proof.Machine
end

