-- ==== Sys2Proof/Laws/Exec.lean ====
section
/-! SUPPORT. Said once: the life-cycle guard, the index test, the oracle, and what a step can be (R50, R135, R166, R190). -/

namespace Sys2Proof.Machine

theorem whenConstructed_true {s : State} (h : s.cfg = true) (k : State → State) : s.whenConstructed k = k s := by
  simp [State.whenConstructed, h]

theorem whenConstructed_false {s : State} (h : s.cfg = false) (k : State → State) :
    s.whenConstructed k = s.respond .cmdError 0#32 := by
  simp [State.whenConstructed, h]

/-- The index test of R34. -/
theorem inRange_iff (s : State) (i : Int) : s.inRange i = true ↔ 0 ≤ i ∧ i < s.regs.n := by
  simp [State.inRange]

theorem inRange_false_iff (s : State) (i : Int) : s.inRange i = false ↔ i < 0 ∨ (s.regs.n : Int) ≤ i := by
  rw [← Bool.not_eq_true, inRange_iff]
  omega

/-- A response as an update of the record. -/
theorem respond_eq (s : State) (e : Status) (v : Word) : s.respond e v = { s with out := s.out ++ [⟨e, v⟩] } := rfl

/-- What a step is: the reset input, a tick, a command, an ill-formed header, or a wait. -/
theorem step_cases (s : State) :
    (s.rst = true ∧ step s = resetStep s) ∨
    (s.rst = false ∧ s.busy = true ∧ step s = .next (tick s)) ∨
    (s.rst = false ∧ s.busy = false ∧
      ((∃ i rest, decode s.port = .done i rest ∧ step s = exec i (s.setPort rest)) ∨
       (∃ why rest, decode s.port = .illFormed why rest ∧ step s = .next (rejectHeader rest s)) ∨
       ((decode s.port = .truncated ∨ decode s.port = .empty) ∧ step s = .next s))) := by
  cases hr : s.rst
  · cases hb : s.busy
    · refine .inr (.inr ⟨rfl, rfl, ?_⟩)
      cases hd : decode s.port with
      | done i rest => exact .inl ⟨i, rest, rfl, by simp [step, hr, hb, fetch, hd]⟩
      | illFormed why rest => exact .inr (.inl ⟨why, rest, rfl, by simp [step, hr, hb, fetch, hd]⟩)
      | truncated => exact .inr (.inr ⟨.inl rfl, by simp [step, hr, hb, fetch, hd, waitForHost]⟩)
      | empty => exact .inr (.inr ⟨.inr rfl, by simp [step, hr, hb, fetch, hd, waitForHost]⟩)
    · exact .inr (.inl ⟨rfl, rfl, by simp [step, hr, hb]⟩)
  · exact .inl ⟨rfl, by simp [step, hr]⟩

/-- The step of a block that is free to take a command and has one. -/
theorem step_done {s : State} (hr : s.rst = false) (hb : s.busy = false) {i : Instr} {rest : List Word}
    (hd : decode s.port = .done i rest) : step s = exec i (s.setPort rest) := by
  simp [step, hr, hb, fetch, hd]

/-- Every command answers a next state. -/
theorem exec_next (i : Instr) (s : State) : ∃ t, exec i s = .next t := by
  cases i <;> exact ⟨_, rfl⟩

/-- What a command that writes the array may make of it: the canonical form stays, nothing changes outside [0, N), and every
word is one that was in the array or the packing of a colour (R38, R82). -/
structure StoresWords (s : State) (m : Memory) : Prop where
  wf : Memory.wf s.w = true → Memory.wf m = true
  outside : Memory.wf s.w = true → ∀ i, s.regs.n ≤ i → Memory.read m i = Memory.read s.w i
  word : Memory.wf s.w = true → ∀ i, (∃ j, Memory.read m i = Memory.read s.w j) ∨ ∃ c4 col, Memory.read m i = s.pack c4 col

theorem StoresWords.same (s : State) : StoresWords s s.w := ⟨id, fun _ _ _ => rfl, fun _ i => .inl ⟨i, rfl⟩⟩

theorem StoresWords.writeSpan {s : State} (lo cnt : Nat) (f : Nat → Word) (hb : lo + cnt ≤ s.regs.n)
    (hf : ∀ i, lo ≤ i → i < lo + cnt → (∃ j, f i = Memory.read s.w j) ∨ ∃ c4 col, f i = s.pack c4 col) :
    StoresWords s (Memory.writeSpan s.w lo cnt f) where
  wf h := Memory.wf_writeSpan h _ _ _
  outside h i hi := by rw [Memory.read_writeSpan h, if_neg (by omega)]
  word h i := by
    rw [Memory.read_writeSpan h]
    split_ifs with hc
    · exact hf i hc.1 hc.2
    · exact .inl ⟨i, rfl⟩

theorem StoresWords.write {s : State} {i : Nat} (hi : i < s.regs.n) (c4 : Bool) (col : Colour) :
    StoresWords s (Memory.write s.w i (s.pack c4 col)) where
  wf h := Memory.wf_write h _ _
  outside h j hj := by rw [Memory.read_write h, if_neg (by omega)]
  word h j := by
    rw [Memory.read_write h]
    split_ifs
    · exact .inr ⟨c4, col, rfl⟩
    · exact .inl ⟨j, rfl⟩

theorem StoresWords.rotated (s : State) (right : Bool) (k : Nat) :
    StoresWords s (rotated right k s.regs.n s.w) :=
  .writeSpan 0 _ _ (by omega) fun _ _ _ => .inl ⟨_, rfl⟩

theorem StoresWords.paint {s : State} {lo hi : Nat} (hl : lo ≤ hi) (hh : hi < s.regs.n) (c4 : Bool) (ca cb : Colour) :
    StoresWords s (s.paint c4 ca cb lo hi s.w) :=
  .writeSpan lo _ _ (by omega) fun _ _ _ => .inr ⟨_, _, rfl⟩

theorem StoresWords.plan {s : State} (c4 : Bool) (cols : List Colour) (segs : List PlanSeg)
    (hb : ∀ g ∈ segs, g.lo ≤ g.hi ∧ g.hi < s.regs.n) : StoresWords s (segs.foldl (s.paintSeg c4 cols) s.w) where
  wf h := wf_paintPlan _ h _ _ _
  outside h i hi := read_paintPlan_of_not_covered _ h _ _ _ (fun g hg => (hb g hg).1) _
    fun g hg hc => by have := (hb g hg).2; unfold Covers at hc; omega
  word h i := by
    suffices ∀ m, Memory.wf m = true →
        ((∃ j, Memory.read m i = Memory.read s.w j) ∨ ∃ c4 col, Memory.read m i = s.pack c4 col) →
        ((∃ j, Memory.read (segs.foldl (s.paintSeg c4 cols) m) i = Memory.read s.w j) ∨
          ∃ c4' col, Memory.read (segs.foldl (s.paintSeg c4 cols) m) i = s.pack c4' col) from
      this s.w h (.inl ⟨i, rfl⟩)
    clear h
    induction segs with
    | nil => exact fun _ _ h => h
    | cons g segs ih =>
      intro m hm h
      refine ih (fun g' hg => hb g' (List.mem_cons_of_mem _ hg)) _ (wf_paintSeg hm _ _ _ _) ?_
      obtain ⟨h1, h2⟩ := read_paintSeg hm s c4 cols (hb g List.mem_cons_self).1 i
      by_cases hc : Covers g i
      · exact .inr ⟨_, _, h2 hc⟩
      · rw [h1 hc]; exact h

/-- Everything a command can do: an error, which changes nothing but the response (R165), with the command and the condition
that raise it (60_exceptions.md), or the effect of its kind. -/
inductive Effect (i : Instr) (s : State) : State → Prop where
  | cmdError (h : (s.cfg = false ∧ ¬ IsConfig i) ∨ (s.cfg = true ∧ IsConfig i)) : Effect i s (s.respond .cmdError 0#32)
  | configError (h0 : s.cfg = false) (hi : IsConfig i) : Effect i s (s.respond .configError 0#32)
  | indexError (hc : s.cfg = true) (index : Int) (hr : s.inRange index = false)
      (hi : (∃ c4 colour, i = .setpixel c4 index colour) ∨ i = .readword index) :
      Effect i s (s.respond .indexError 0#32)
  | rangeError (hc : s.cfg = true)
      (hi : (∃ c4 f l colour, i = .setrange c4 f l colour) ∨ (∃ c4 f l a b, i = .lgrad c4 f l a b) ∨
        (∃ c4 rev rbw f l colours, i = .sgrad c4 rev rbw f l colours)) :
      Effect i s (s.respond .invalidRangeError 0#32)
  | shown (hi : i = .showFrame) (hc : s.cfg = true) (hg : s.grain = .symbol) : Effect i s (showSymbols s)
  | accepted (hi : i = .showFrame) (hc : s.cfg = true) (hg : s.grain = .tick) : Effect i s (acceptShow s)
  | brightness (b : Byte) (hi : ∃ u v, i = .setbright u v) (hc : s.cfg = true) (hb : b = s.bright ∨ b ≠ 0#8) :
      Effect i s ((s.setBright b).respond .ok (b.setWidth 32))
  | words (m : Memory) (hc : s.cfg = true) (hn : ¬ IsConfig i) (hs : i ≠ .showFrame) (hb : ∀ u v, i ≠ .setbright u v)
      (hr : ∀ j, i ≠ .readword j) (hm : StoresWords s m) : Effect i s ((s.setW m).respond .ok 0#32)
  | read (index : Int) (hi : i = .readword index) (hc : s.cfg = true) (hr : s.inRange index = true) :
      Effect i s (s.respond .ok (Memory.read s.w index.toNat))
  | constructed (n : Int) (m : List Chan) (b : Byte) (d : Word) (h0 : s.cfg = false) (hi : IsConfig i) (hp : 0 < n)
      (hn : n ≤ s.params.nmax) (hm : legalMode m = true) (hb : b ≠ 0#8) :
      Effect i s ((construct n.toNat m b d s).respond .ok 0#32)

theorem validMode_legal {x : Word} {m : List Chan} (h : validMode x = some m) : legalMode m = true := by
  unfold validMode at h
  repeat (split at h; · cases h)
  split_ifs at h with hl
  cases h
  exact hl

/-- A command does one of these. -/
theorem exec_effect {i : Instr} {s t : State} (h : exec i s = .next t) : Effect i s t := by
  cases i with
  | config u n m b d =>
    have hi : IsConfig (.config u n m b d) := ⟨_, _, _, _, _, rfl⟩
    simp only [exec, execConfig, Host.Outcome.next.injEq, State.answer_eq, State.raise_eq] at h
    by_cases h1 : s.cfg = true
    · rw [if_pos h1] at h; exact h ▸ .cmdError (.inr ⟨h1, hi⟩)
    · have h0 : s.cfg = false := by simpa using h1
      rw [if_neg h1] at h
      by_cases h2 : n ≤ 0
      · rw [if_pos h2] at h; exact h ▸ .configError h0 hi
      · rw [if_neg h2] at h
        by_cases h3 : (s.params.nmax : Int) < n
        · rw [if_pos h3] at h; exact h ▸ .configError h0 hi
        · rw [if_neg h3] at h
          cases hm : validMode m with
          | none => rw [hm] at h; exact h ▸ .configError h0 hi
          | some x =>
            rw [hm] at h
            subst h
            refine .constructed n x _ d h0 hi (by omega) (by omega) (validMode_legal hm) ?_
            split_ifs
            · decide
            · exact clampBright_ne_zero b
  | setbright u v =>
    simp only [exec, execSetbright, Host.Outcome.next.injEq, State.answer_eq] at h
    cases hc : s.cfg
    · rw [whenConstructed_false hc] at h; exact h ▸ .cmdError (.inl ⟨hc, by simp [IsConfig]⟩)
    · rw [whenConstructed_true hc] at h
      split_ifs at h
      · exact h ▸ .brightness s.bright ⟨u, v, rfl⟩ hc (.inl rfl)
      · exact h ▸ .brightness _ ⟨u, v, rfl⟩ hc (.inr (clampBright_ne_zero v))
  | setpixel c4 ix col =>
    simp only [exec, execSetpixel, Host.Outcome.next.injEq, State.answer_eq, State.raise_eq] at h
    cases hc : s.cfg
    · rw [whenConstructed_false hc] at h; exact h ▸ .cmdError (.inl ⟨hc, by simp [IsConfig]⟩)
    · rw [whenConstructed_true hc] at h
      split_ifs at h with h1
      · obtain ⟨h2, h3⟩ := (inRange_iff s ix).1 h1
        exact h ▸ .words _ hc (by simp [IsConfig]) (by simp) (by simp) (by simp) (.write (by omega) _ _)
      · exact h ▸ .indexError hc ix (by simpa using h1) (.inl ⟨_, _, rfl⟩)
  | setrange c4 f l col =>
    simp only [exec, execSetrange, Host.Outcome.next.injEq, State.answer_eq, State.raise_eq] at h
    cases hc : s.cfg
    · rw [whenConstructed_false hc] at h; exact h ▸ .cmdError (.inl ⟨hc, by simp [IsConfig]⟩)
    · rw [whenConstructed_true hc] at h
      split_ifs at h with h1
      · rw [Bool.and_eq_true, inRange_iff, inRange_iff] at h1
        exact h ▸ .words _ hc (by simp [IsConfig]) (by simp) (by simp) (by simp)
          (.writeSpan _ _ _ (by omega) fun _ _ _ => .inr ⟨_, _, rfl⟩)
      · exact h ▸ .rangeError hc (.inl ⟨_, _, _, _, rfl⟩)
  | fill c4 col =>
    simp only [exec, execFill, Host.Outcome.next.injEq, State.answer_eq] at h
    cases hc : s.cfg
    · rw [whenConstructed_false hc] at h; exact h ▸ .cmdError (.inl ⟨hc, by simp [IsConfig]⟩)
    · rw [whenConstructed_true hc] at h
      exact h ▸ .words _ hc (by simp [IsConfig]) (by simp) (by simp) (by simp)
        (.writeSpan _ _ _ (by omega) fun _ _ _ => .inr ⟨_, _, rfl⟩)
  | rotate u r k =>
    simp only [exec, execRotate, Host.Outcome.next.injEq, State.answer_eq] at h
    cases hc : s.cfg
    · rw [whenConstructed_false hc] at h; exact h ▸ .cmdError (.inl ⟨hc, by simp [IsConfig]⟩)
    · rw [whenConstructed_true hc] at h
      exact h ▸ .words _ hc (by simp [IsConfig]) (by simp) (by simp) (by simp) (.rotated s _ _)
  | lgrad c4 f l a b =>
    simp only [exec, execLgrad, Host.Outcome.next.injEq, State.answer_eq, State.raise_eq] at h
    cases hc : s.cfg
    · rw [whenConstructed_false hc] at h; exact h ▸ .cmdError (.inl ⟨hc, by simp [IsConfig]⟩)
    · rw [whenConstructed_true hc] at h
      split_ifs at h with h1
      · exact h ▸ .words s.w hc (by simp [IsConfig]) (by simp) (by simp) (by simp) (.same s)
      · rw [Bool.and_eq_true, inRange_iff, inRange_iff] at h1
        exact h ▸ .words _ hc (by simp [IsConfig]) (by simp) (by simp) (by simp) (.paint (by omega) (by omega) _ _ _)
      · exact h ▸ .rangeError hc (.inr (.inl ⟨_, _, _, _, _, rfl⟩))
  | sgrad c4 rv rb f l cs =>
    simp only [exec, execSgrad, Host.Outcome.next.injEq, State.answer_eq, State.raise_eq] at h
    cases hc : s.cfg
    · rw [whenConstructed_false hc] at h; exact h ▸ .cmdError (.inl ⟨hc, by simp [IsConfig]⟩)
    · rw [whenConstructed_true hc] at h
      split at h
      · exact h ▸ .rangeError hc (.inr (.inr ⟨_, _, _, _, _, _, rfl⟩))
      · next segs hp =>
        exact h ▸ .words _ hc (by simp [IsConfig]) (by simp) (by simp) (by simp)
          (.plan _ _ _ fun g hg => (planOk_bounds (sgradPlan_some hp).2 g hg).2)
  | showFrame =>
    simp only [exec, execShow, Host.Outcome.next.injEq] at h
    cases hc : s.cfg
    · rw [whenConstructed_false hc] at h; exact h ▸ .cmdError (.inl ⟨hc, by simp [IsConfig]⟩)
    · rw [whenConstructed_true hc] at h
      cases hg : s.grain
      · rw [hg] at h; exact h ▸ .shown rfl hc hg
      · rw [hg] at h; exact h ▸ .accepted rfl hc hg
  | readword ix =>
    simp only [exec, execReadword, Host.Outcome.next.injEq, State.answer_eq, State.raise_eq] at h
    cases hc : s.cfg
    · rw [whenConstructed_false hc] at h; exact h ▸ .cmdError (.inl ⟨hc, by simp [IsConfig]⟩)
    · rw [whenConstructed_true hc] at h
      split_ifs at h with h1
      · exact h ▸ .read ix rfl hc h1
      · exact h ▸ .indexError hc ix (by simpa using h1) (.inr rfl)

end Sys2Proof.Machine
end

