-- ==== Sys2Proof/Laws/Pack.lean ====
section
/-! SUPPORT. Lanes, modes and the pack engine (R31, R32, R71, R82, R84). -/

namespace Sys2Proof.Machine

/-- The legal modes are the permutations of R, G, B and of R, G, B, W (R71). -/
theorem legalMode_iff (m : List Chan) : legalMode m = true ↔ m.Perm [.r, .g, .b] ∨ m.Perm [.r, .g, .b, .w] := by
  have hall : ∀ c : Chan, c ∈ [Chan.r, .g, .b, .w] := by intro c; cases c <;> decide
  constructor
  · intro h
    simp only [legalMode, Bool.and_eq_true, Bool.or_eq_true, decide_eq_true_eq, beq_iff_eq, Bool.not_eq_true',
      List.contains_eq_mem, decide_eq_false_iff_not] at h
    obtain ⟨hn, ⟨h3, hw⟩ | h4⟩ := h
    · left
      refine (List.perm_of_nodup_nodup_toFinset_eq hn (by decide) ?_)
      apply Finset.eq_of_subset_of_card_le
      · intro c hc
        rw [List.mem_toFinset] at hc
        cases c <;> first | decide | exact absurd hc hw
      · rw [List.toFinset_card_of_nodup hn, h3]; decide
    · right
      refine (List.perm_of_nodup_nodup_toFinset_eq hn (by decide) ?_)
      apply Finset.eq_of_subset_of_card_le
      · intro c _; rw [List.mem_toFinset]; exact hall c
      · rw [List.toFinset_card_of_nodup hn, h4]; decide
  · rintro (h | h)
    · have h1 := h.nodup_iff.2 (by decide)
      have h2 := h.length_eq
      have h3 : Chan.w ∉ m := fun hw => absurd (h.mem_iff.1 hw) (by decide)
      simp [legalMode, h1, h2, h3]
    · have h1 := h.nodup_iff.2 (by decide)
      have h2 := h.length_eq
      simp [legalMode, h1, h2]

/-- Where a channel stands in the three-letter and four-letter modes. -/
theorem legalMode_cases {m : List Chan} (h : legalMode m = true) :
    (m.length = 3 ∧ .r ∈ m ∧ .g ∈ m ∧ .b ∈ m ∧ .w ∉ m) ∨ (m.length = 4 ∧ ∀ c, c ∈ m) := by
  rcases (legalMode_iff m).1 h with h | h
  · left
    exact ⟨h.length_eq, h.mem_iff.2 (by decide), h.mem_iff.2 (by decide), h.mem_iff.2 (by decide),
      fun hw => absurd (h.mem_iff.1 hw) (by decide)⟩
  · right
    exact ⟨h.length_eq, fun c => h.mem_iff.2 (by cases c <;> decide)⟩

/-- The lane rule (R32). -/
theorem toNat_laneShift {len p : Nat} (h : len ≤ 4) : (laneShift len p).toNat = 8 * (len - 1 - p) := by
  rw [laneShift, BitVec.toNat_ofNat, Nat.mod_eq_of_lt (by omega)]

theorem ShiftTable.get_set (t : ShiftTable) (c d : Chan) (v : BitVec 5) :
    (t.set c v).get d = if d = c then v else t.get d := by
  cases c <;> cases d <;> rfl

theorem foldl_set_get (f : Nat → BitVec 5) (m : List Chan) (k : Nat) (t : ShiftTable) (hn : m.Nodup) :
    (∀ p c, m[p]? = some c → (((m.zipIdx k).foldl (fun t cp => t.set cp.1 (f cp.2)) t).get c) = f (k + p)) ∧
    ∀ c, c ∉ m → (((m.zipIdx k).foldl (fun t cp => t.set cp.1 (f cp.2)) t).get c) = t.get c := by
  induction m generalizing k t with
  | nil => simp
  | cons d m ih =>
    obtain ⟨hd, hn'⟩ := List.nodup_cons.1 hn
    obtain ⟨ih1, ih2⟩ := ih (k + 1) (t.set d (f k)) hn'
    simp only [List.zipIdx_cons, List.foldl_cons]
    constructor
    · intro p c hp
      cases p with
      | zero =>
        obtain rfl : d = c := by simpa using hp
        rw [ih2 d hd, ShiftTable.get_set]; simp
      | succ p => rw [ih1 p c (by simpa using hp)]; congr 1; omega
    · intro c hc
      rw [ih2 c (fun h => hc (List.mem_cons_of_mem _ h)), ShiftTable.get_set,
        if_neg (fun (e : c = d) => hc (e ▸ List.mem_cons_self))]

/-- What the table of a mode holds: the lane rule for each letter, the old field for a letter that does not occur. -/
theorem shiftsFor_get {m : List Chan} (hn : m.Nodup) (hl : m.length ≤ 4) (old : ShiftTable) :
    (∀ p c, m[p]? = some c → ((shiftsFor m old).get c).toNat = 8 * (m.length - 1 - p)) ∧
    ∀ c, c ∉ m → (shiftsFor m old).get c = old.get c := by
  obtain ⟨h1, h2⟩ := foldl_set_get (laneShift m.length) m 0 old hn
  refine ⟨fun p c hp => ?_, h2⟩
  rw [shiftsFor, h1 p c hp, toNat_laneShift hl]
  simp

/-- One bit of a value in its lane. -/
theorem getLsbD_inLane (v : Byte) (sh : BitVec 5) {i : Nat} (hi : i < 32) :
    (inLane v sh).getLsbD i = (decide (sh.toNat ≤ i) && v.getLsbD (i - sh.toNat)) := by
  simp only [inLane, BitVec.getLsbD_shiftLeft, BitVec.getLsbD_setWidth, hi, decide_true, Bool.true_and]
  by_cases h : sh.toNat ≤ i
  · have : i - sh.toNat < 32 := by omega
    simp [h, this, show ¬ i < sh.toNat by omega]
  · simp [h, show i < sh.toNat by omega]

/-- A lane read back. -/
theorem extract_inLane_same (v : Byte) (sh : BitVec 5) (h : sh.toNat ≤ 24) :
    (inLane v sh).extractLsb' sh.toNat 8 = v := by
  apply BitVec.eq_of_getLsbD_eq
  intro i hi
  rw [BitVec.getLsbD_extractLsb', getLsbD_inLane _ _ (by omega)]
  simp [hi]

/-- Another lane reads as zero. -/
theorem extract_inLane_other (v : Byte) (sh : BitVec 5) {k : Nat} (hk : k ≤ 24)
    (h : sh.toNat + 8 ≤ k ∨ k + 8 ≤ sh.toNat) : (inLane v sh).extractLsb' k 8 = 0#8 := by
  apply BitVec.eq_of_getLsbD_eq
  intro i hi
  rw [BitVec.getLsbD_extractLsb', getLsbD_inLane _ _ (by omega)]
  rcases h with h | h
  · rw [BitVec.getLsbD_of_ge v _ (by omega)]; simp
  · simp [show ¬ sh.toNat ≤ k + i by omega]

theorem extract_or (x y : Word) (k : Nat) :
    (x ||| y).extractLsb' k 8 = x.extractLsb' k 8 ||| y.extractLsb' k 8 := by
  apply BitVec.eq_of_getLsbD_eq
  intro i hi
  simp [hi]

/-- The lanes of a legal mode are pairwise disjoint and lie in the word (R25 (c)). -/
theorem lanes_disjoint {m : List Chan} (hm : legalMode m = true) {sh : ShiftTable}
    (hl : ∀ p c, m[p]? = some c → (sh.get c).toNat = 8 * (m.length - 1 - p)) {c d : Chan} (hc : c ∈ m) (hd : d ∈ m)
    (hcd : c ≠ d) : (sh.get c).toNat ≤ 24 ∧ ((sh.get c).toNat + 8 ≤ (sh.get d).toNat ∨
      (sh.get d).toNat + 8 ≤ (sh.get c).toNat) := by
  obtain ⟨p, hp, rfl⟩ := List.mem_iff_getElem.1 hc
  obtain ⟨q, hq, rfl⟩ := List.mem_iff_getElem.1 hd
  have hpq : p ≠ q := fun e => hcd (by subst e; rfl)
  rw [hl p _ (List.getElem?_eq_getElem hp), hl q _ (List.getElem?_eq_getElem hq)]
  have : m.length ≤ 4 := by rcases legalMode_cases hm with h | h <;> omega
  omega

theorem lane_le {m : List Chan} {sh : ShiftTable}
    (hl : ∀ p c, m[p]? = some c → (sh.get c).toNat = 8 * (m.length - 1 - p)) {c : Chan} (hc : c ∈ m) :
    (sh.get c).toNat + 8 ≤ 8 * m.length := by
  obtain ⟨p, hp, rfl⟩ := List.mem_iff_getElem.1 hc
  rw [hl p _ (List.getElem?_eq_getElem hp)]
  omega

/-- The top lane of a packed word is zero on an RGB buffer (R25 (d), R82). -/
theorem packWith_top_lane {m : List Chan} (hm : legalMode m = true) (h3 : m.length = 3) {sh : ShiftTable}
    (hl : ∀ p c, m[p]? = some c → (sh.get c).toNat = 8 * (m.length - 1 - p)) (bright : Byte) (c4 : Bool) (col : Colour) :
    (packWith bright sh false c4 col).extractLsb' 24 8 = 0#8 := by
  rcases legalMode_cases hm with ⟨-, hr, hg, hb, -⟩ | ⟨h4, -⟩
  · have h1 := lane_le hl hr
    have h2 := lane_le hl hg
    have h4 := lane_le hl hb
    simp only [ShiftTable.get] at h1 h2 h4
    simp only [packWith, extract_or, Bool.false_eq_true, if_false]
    rw [extract_inLane_other _ _ le_rfl (by omega), extract_inLane_other _ _ le_rfl (by omega),
      extract_inLane_other _ _ le_rfl (by omega)]
    rfl
  · omega

end Sys2Proof.Machine
end

