-- ==== Sys2Proof/Laws/PerInstr.lean ====
section
/-! SUPPORT. Statements about every command as syntax, one lemma for each constructor: the header that the encoder writes selects
the command's row and asks for exactly the operand words that follow it (R52, R58). -/

namespace Sys2Proof.Laws.EncodeLength

/-- The header of a well-formed command asks for the operand words that its encoding has (R58). -/
def Statement (i : Instr) : Prop :=
  WellFormed i = true → ∃ h ops op, encode i = h :: ops ∧ headerOpcode h = some op ∧ ops.length = operandCount op h

theorem config (unset : Bool) (numLeds : Int) (mode : Word) (brightness : Int) (resetDelay : Word) :
    Statement (.config unset numLeds mode brightness resetDelay) :=
  fun _ => ⟨_, _, _, rfl, headerOpcode_config unset, rfl⟩

theorem setbright (unset : Bool) (value : Int) : Statement (.setbright unset value) :=
  fun _ => ⟨_, _, _, rfl, headerOpcode_setbright unset, rfl⟩

theorem setpixel (c4 : Bool) (index : Int) (colour : Colour) : Statement (.setpixel c4 index colour) :=
  fun _ => ⟨_, _, _, rfl, headerOpcode_setpixel c4, rfl⟩

theorem setrange (c4 : Bool) (first last : Int) (colour : Colour) : Statement (.setrange c4 first last colour) :=
  fun _ => ⟨_, _, _, rfl, headerOpcode_setrange c4, rfl⟩

theorem fill (c4 : Bool) (colour : Colour) : Statement (.fill c4 colour) :=
  fun _ => ⟨_, _, _, rfl, headerOpcode_fill c4, rfl⟩

theorem rotate (unset right : Bool) (offset : Int) : Statement (.rotate unset right offset) :=
  fun _ => ⟨_, _, _, rfl, headerOpcode_rotate unset right, rfl⟩

theorem lgrad (c4 : Bool) (startIndex endIndex : Int) (colourA colourB : Colour) :
    Statement (.lgrad c4 startIndex endIndex colourA colourB) :=
  fun _ => ⟨_, _, _, rfl, headerOpcode_lgrad c4, rfl⟩

theorem sgrad (c4 rev rainbow : Bool) (startIndex endIndex : Int) (colours : List Colour) :
    Statement (.sgrad c4 rev rainbow startIndex endIndex colours) := by
  intro h
  simp only [WellFormed, Bool.and_eq_true, decide_eq_true_eq] at h
  refine ⟨_, _, _, rfl, headerOpcode_sgrad c4 rev rainbow h.1.2 h.2, ?_⟩
  rw [operandCount, hdrCnt_encodeHeader _ _ _ _ _ _ _ (by omega)]
  simp
  omega

theorem showFrame : Statement .showFrame := fun _ => ⟨_, _, _, rfl, headerOpcode_showFrame, rfl⟩

theorem readword (index : Int) : Statement (.readword index) := fun _ => ⟨_, _, _, rfl, headerOpcode_readword, rfl⟩

end Sys2Proof.Laws.EncodeLength
end

