-- ==== Sys2Proof/Laws/Transmit.lean ====
section
/-! SUPPORT. Said once for the transmitter: what SHOW does at the symbol level, its acceptance by the tick machine, and what
one tick can be (R130 to R140). -/

namespace Sys2Proof.Machine

/-- SHOW at the symbol level when the transmit goes through (R130, R131). -/
theorem showSymbols_sent {s : State} (h : s.ioAnswer = .sent) :
    showSymbols s = { s with
      st := s.st ++ s.frame ++ [.latch s.regs.rdly.toNat]
      lt := s.lt ++ segsOf s.timing s.frame ++ [⟨false, s.regs.rdly.toNat⟩]
      tx := s.releaseTx.tx
      line := false
      busy := false
      freeCtr := s.freeCtr + 1
      ioPlan := s.ioPlan.tail
      out := s.out ++ [⟨.ok, 0#32⟩] } := by
  unfold showSymbols
  rw [h]
  rfl

/-- SHOW at the symbol level when the collaborator fails after `m` bit symbols (R136). -/
theorem showSymbols_fail {s : State} {m late : Nat} (h : s.ioAnswer = .fail m late) :
    showSymbols s = { s with
      st := s.st ++ s.frame.take m
      lt := s.lt ++ segsOf s.timing (s.frame.take m)
      tx := s.releaseTx.tx
      line := false
      busy := false
      freeCtr := s.freeCtr + 1
      ioPlan := s.ioPlan.tail
      out := s.out ++ [⟨.ioError, 0#32⟩] } := by
  unfold showSymbols
  rw [h]
  rfl

/-- Either of the two. -/
theorem showSymbols_cases (s : State) :
    (s.ioAnswer = .sent ∧ (showSymbols s).out = s.out ++ [⟨.ok, 0#32⟩]) ∨
    (∃ m late, s.ioAnswer = .fail m late ∧ (showSymbols s).out = s.out ++ [⟨.ioError, 0#32⟩]) := by
  cases h : s.ioAnswer with
  | sent => exact .inl ⟨rfl, by rw [showSymbols_sent h]⟩
  | fail m late => exact .inr ⟨m, late, rfl, by rw [showSymbols_fail h]⟩

/-- The acceptance of SHOW by the tick machine: the failure that is reported at once, or the first bit (R136, R139). -/
theorem acceptShow_cases (s : State) :
    (∃ m late, s.ioAnswer = .fail m late ∧ s.reportTick s.ioAnswer = some 0 ∧ acceptShow s = endFailed s.popIo) ∨
    (s.reportTick s.ioAnswer ≠ some 0 ∧
      acceptShow s = startBit 0 (s.regs.bpw - 1) (Memory.read s.w 0) (s.popIo.setFail (s.reportTick s.ioAnswer))) := by
  unfold acceptShow
  split
  · next h =>
    left
    cases ha : s.ioAnswer with
    | sent => rw [ha] at h; cases h
    | fail m late => exact ⟨m, late, rfl, ha ▸ h, rfl⟩
  · next h => exact .inr ⟨h, rfl⟩

@[simp] theorem startBit_out (i b : Nat) (x : Word) (s : State) : (startBit i b x s).out = s.out := rfl
@[simp] theorem startBit_busy (i b : Nat) (x : Word) (s : State) : (startBit i b x s).busy = true := rfl
@[simp] theorem endFailed_out (s : State) : (endFailed s).out = s.out ++ [⟨.ioError, 0#32⟩] := rfl
@[simp] theorem endSent_out (s : State) : (endSent s).out = s.out ++ [⟨.ok, 0#32⟩] := rfl

/-- What a tick does not write: the configuration, the array, BRIGHT and the host's side (R135, R139). -/
structure SameBlock (s t : State) : Prop where
  cfg : t.cfg = s.cfg
  regs : t.regs = s.regs
  bright : t.bright = s.bright
  w : t.w = s.w
  port : t.port = s.port
  rst : t.rst = s.rst
  grain : t.grain = s.grain
  params : t.params = s.params
  ioPlan : t.ioPlan = s.ioPlan

theorem SameBlock.refl (s : State) : SameBlock s s := ⟨rfl, rfl, rfl, rfl, rfl, rfl, rfl, rfl, rfl⟩

theorem SameBlock.trans {s t u : State} (h : SameBlock s t) (k : SameBlock t u) : SameBlock s u :=
  ⟨k.cfg.trans h.cfg, k.regs.trans h.regs, k.bright.trans h.bright, k.w.trans h.w, k.port.trans h.port,
    k.rst.trans h.rst, k.grain.trans h.grain, k.params.trans h.params, k.ioPlan.trans h.ioPlan⟩

/-- The timing in force is the configuration's. -/
theorem SameBlock.timing {s t : State} (h : SameBlock s t) : t.timing = s.timing := by
  simp [State.timing, h.regs, h.params]

/-- The length of a SHOW is the configuration's. -/
theorem SameBlock.showTicks {s t : State} (h : SameBlock s t) : t.showTicks = s.showTicks := by
  simp [State.showTicks, h.regs, h.timing]

/-- The frame is the configuration's and the array's. -/
theorem SameBlock.frame {s t : State} (h : SameBlock s t) : t.frame = s.frame := by
  simp [State.frame, h.regs, h.w]

theorem startBit_same (i b : Nat) (x : Word) (s : State) : SameBlock s (startBit i b x s) :=
  ⟨rfl, rfl, rfl, rfl, rfl, rfl, rfl, rfl, rfl⟩

theorem endHigh_same (s : State) : SameBlock s (endHigh s) :=
  ⟨rfl, rfl, rfl, rfl, rfl, rfl, rfl, rfl, rfl⟩

theorem endSent_same (s : State) : SameBlock s (endSent s) :=
  ⟨rfl, rfl, rfl, rfl, rfl, rfl, rfl, rfl, rfl⟩

theorem nextBit_same (s : State) : SameBlock s (nextBit s) := by
  simp only [nextBit]
  split_ifs <;> exact ⟨rfl, rfl, rfl, rfl, rfl, rfl, rfl, rfl, rfl⟩

theorem emitBit_same (s : State) : SameBlock s (emitBit s) := ⟨rfl, rfl, rfl, rfl, rfl, rfl, rfl, rfl, rfl⟩

theorem endBit_same (s : State) : SameBlock s (endBit s) := (emitBit_same s).trans (nextBit_same _)

theorem countDown_same {e : State → State} (he : ∀ s, SameBlock s (e s)) (s : State) : SameBlock s (countDown e s) := by
  unfold countDown
  split_ifs
  · exact ⟨rfl, rfl, rfl, rfl, rfl, rfl, rfl, rfl, rfl⟩
  · exact SameBlock.trans (t := s.setCnt 0) ⟨rfl, rfl, rfl, rfl, rfl, rfl, rfl, rfl, rfl⟩ (he _)

theorem advance_same (s : State) : SameBlock s (advance s) := by
  unfold advance
  split
  · exact .refl s
  · exact countDown_same endHigh_same s
  · exact countDown_same endBit_same s
  · exact countDown_same endSent_same s

theorem reportFailure_same (s : State) : SameBlock s (reportFailure s) := by
  unfold reportFailure
  split_ifs <;> exact ⟨rfl, rfl, rfl, rfl, rfl, rfl, rfl, rfl, rfl⟩

/-- What a tick is: nothing in IDLE, an advance, or the report of a failure (R139). -/
theorem tick_cases (s : State) :
    (s.tx.phase = .idle ∧ tick s = s) ∨
    (s.tx.phase ≠ .idle ∧ s.tx.fail = none ∧ tick s = advance s) ∨
    (s.tx.phase ≠ .idle ∧ ∃ left, s.tx.fail = some left ∧ 2 ≤ left ∧ tick s = advance (s.setFail (some (left - 1)))) ∨
    (s.tx.phase ≠ .idle ∧ ∃ left, s.tx.fail = some left ∧ left ≤ 1 ∧ tick s = reportFailure s) := by
  by_cases hp : s.tx.phase = .idle
  · exact .inl ⟨hp, by rw [tick, if_pos hp]⟩
  · cases hf : s.tx.fail with
    | none => exact .inr (.inl ⟨hp, rfl, by rw [tick, if_neg hp, hf]⟩)
    | some left =>
      by_cases hl : left ≤ 1
      · exact .inr (.inr (.inr ⟨hp, left, rfl, hl, by rw [tick, if_neg hp, hf]; exact if_pos hl⟩))
      · exact .inr (.inr (.inl ⟨hp, left, rfl, by omega, by rw [tick, if_neg hp, hf]; exact if_neg hl⟩))

/-- What one tick leaves unchanged (R135, R139). -/
theorem tick_same (s : State) : SameBlock s (tick s) := by
  rcases tick_cases s with ⟨-, e⟩ | ⟨-, -, e⟩ | ⟨-, left, -, -, e⟩ | ⟨-, left, -, -, e⟩ <;> rw [e]
  · exact .refl s
  · exact advance_same s
  · exact SameBlock.trans (t := s.setFail (some (left - 1))) ⟨rfl, rfl, rfl, rfl, rfl, rfl, rfl, rfl, rfl⟩ (advance_same _)
  · exact reportFailure_same s

/-- What any number of ticks leaves unchanged. -/
theorem ticks_same (k : Nat) (s : State) : SameBlock s (ticks k s) := by
  induction k generalizing s with
  | zero => exact .refl s
  | succ k ih => exact (tick_same s).trans (ih _)

theorem ticks_add (j k : Nat) (s : State) : ticks (j + k) s = ticks k (ticks j s) := by
  induction j generalizing s with
  | zero => rw [Nat.zero_add]; rfl
  | succ j ih => rw [Nat.succ_add]; exact ih _

/-- Where a phase ends (R139). -/
def phaseEnd : TxPhase → State → State
  | .idle => id
  | .high => endHigh
  | .low => endBit
  | .latch => endSent

/-- An advance, in one line: the count goes down, or the phase ends. -/
theorem advance_eq (s : State) : advance s = if s.tx.phase = .idle then s else countDown (phaseEnd s.tx.phase) s := by
  cases h : s.tx.phase <;> simp [advance, h, phaseEnd]

/-- A tick with no report: the report comes nearer, and the transmitter advances. -/
theorem tick_no_report {s : State} (hp : s.tx.phase ≠ .idle) (hf : ∀ left, s.tx.fail = some left → 1 < left) :
    tick s = countDown (phaseEnd s.tx.phase) (s.setFail (s.tx.fail.map (· - 1))) := by
  have hs : ∀ f, (s.setFail f).tx.phase = s.tx.phase := fun _ => rfl
  cases h : s.tx.fail with
  | none =>
    rw [tick, if_neg hp]
    simp only [h, Option.map_none]
    rw [show s.setFail none = s by rw [← h]; rfl]
    exact (advance_eq s).trans (if_neg hp)
  | some left =>
    rw [tick, if_neg hp, h, Option.map_some]
    refine (if_neg (by have := hf left h; omega)).trans ?_
    rw [advance_eq, hs, if_neg hp]

/-- A tick that neither ends a phase nor reports a failure: the counts go down. -/
theorem tick_count {s : State} (hp : s.tx.phase ≠ .idle) (hc : 1 < s.tx.cnt) (hf : ∀ left, s.tx.fail = some left → 1 < left) :
    tick s = (s.setCnt (s.tx.cnt - 1)).setFail (s.tx.fail.map (· - 1)) := by
  rw [tick_no_report hp hf]
  exact (if_pos hc).trans rfl

/-- A tick that ends a phase and reports no failure. -/
theorem tick_end {s : State} (hp : s.tx.phase ≠ .idle) (hc : s.tx.cnt ≤ 1) (hf : ∀ left, s.tx.fail = some left → 1 < left) :
    tick s = phaseEnd s.tx.phase ((s.setCnt 0).setFail (s.tx.fail.map (· - 1))) := by
  rw [tick_no_report hp hf]
  exact (if_neg (show ¬ 1 < s.tx.cnt from not_lt.2 hc)).trans rfl

/-- The ticks of one phase, up to its last, with no report in between: only the counts differ. -/
theorem ticks_count {s : State} (hp : s.tx.phase ≠ .idle) (k : Nat) (hk : k < s.tx.cnt)
    (hf : ∀ left, s.tx.fail = some left → k < left) :
    ticks k s = (s.setCnt (s.tx.cnt - k)).setFail (s.tx.fail.map (· - k)) := by
  induction k generalizing s with
  | zero => cases h : s.tx.fail <;> simp [ticks, State.setFail, State.setCnt, ← h]
  | succ k ih =>
    rw [ticks, tick_count hp (by omega) (fun left h => by have := hf left h; omega), ih (by simpa using hp) (by simp; omega)]
    · cases h : s.tx.fail <;> simp [State.setFail, State.setCnt] <;> omega
    · intro left h
      cases hs : s.tx.fail with
      | none => simp [hs] at h
      | some l =>
        have := hf l hs
        simp [hs] at h
        omega

/-- A whole phase with no report of a failure: after as many ticks as its count says, its end. -/
theorem ticks_phase {s : State} (hp : s.tx.phase ≠ .idle) (hc : 1 ≤ s.tx.cnt)
    (hf : ∀ left, s.tx.fail = some left → s.tx.cnt < left) :
    ticks s.tx.cnt s = phaseEnd s.tx.phase ((s.setCnt 0).setFail (s.tx.fail.map (· - s.tx.cnt))) := by
  obtain ⟨k, hk⟩ : ∃ k, s.tx.cnt = k + 1 := ⟨s.tx.cnt - 1, by omega⟩
  rw [hk, ticks_add, ticks_count hp k (by omega) (fun left h => by have := hf left h; omega), hk]
  rw [show k + 1 - k = 1 by omega]
  refine (tick_end (s := (s.setCnt 1).setFail (s.tx.fail.map (· - k))) hp le_rfl ?_).trans ?_
  · intro left h
    obtain ⟨l, hl, rfl⟩ := Option.map_eq_some_iff.1 (show s.tx.fail.map (· - k) = some left from h)
    have := hf l hl
    omega
  · cases hs : s.tx.fail <;> rfl

/-- The ticks of a bit, whatever its value (R132). -/
theorem bit_ticks (t : Timing) (b : Bool) : bitHi t b + bitLo t b = t.t1 + t.t2 + t.t3 := by
  cases b <;> simp [bitHi, bitLo] <;> omega

theorem bitHi_pos {t : Timing} (h : Timing.Positive t) (b : Bool) : 1 ≤ bitHi t b := by
  have := h.t3_pos
  cases b <;> simp [bitHi] <;> omega

theorem bitLo_pos {t : Timing} (h : Timing.Positive t) (b : Bool) : 1 ≤ bitLo t b := by
  have := h.t2_pos
  cases b <;> simp [bitLo] <;> omega

/-- A duration is not negative, and durations add up (R4). -/
theorem nanoseconds_nonneg (t : Nat) : 0 ≤ nanoseconds t :=
  mul_nonneg (Nat.cast_nonneg t) (le_of_lt Config.tickNs.2)

theorem nanoseconds_add (t u : Nat) : nanoseconds (t + u) = nanoseconds t + nanoseconds u := by
  simp [nanoseconds, add_mul]

/-- The timing in force is positive (R4, R138). -/
theorem timing_positive {s : State} (h : Params.InRange s.params) : Timing.Positive s.timing := by
  unfold State.timing
  split
  · exact ⟨by decide, by decide, by decide⟩
  · exact h.sk6812_pos

end Sys2Proof.Machine
end

