-- ==== Sys2Proof/Tests/Slice0.lean ====
section
/-! SUPPORT. The model's own tests: ill-formed terms refused, words written out from the spec, small steps with the results of
spec/95_test_vectors.md, and for each statement with hypotheses a witness that meets them. -/

namespace Sys2Proof.Tests

open Sys2Proof Sys2Proof.Machine

/-! ### Ill-formed terms (one for each check of WellFormed) -/

theorem test_wf_config_numLeds : WellFormed (.config false 2147483648 0 1 0) = false := by decide
theorem test_wf_config_brightness : WellFormed (.config false 1 0 (-2147483649) 0) = false := by decide
theorem test_wf_setbright : WellFormed (.setbright false 2147483648) = false := by decide
theorem test_wf_setpixel : WellFormed (.setpixel false (-2147483649) ⟨0, 0, 0, 0⟩) = false := by decide
theorem test_wf_setrange_first : WellFormed (.setrange false 2147483648 0 ⟨0, 0, 0, 0⟩) = false := by decide
theorem test_wf_setrange_last : WellFormed (.setrange false 0 2147483648 ⟨0, 0, 0, 0⟩) = false := by decide
theorem test_wf_rotate : WellFormed (.rotate true true 2147483648) = false := by decide
theorem test_wf_lgrad_start : WellFormed (.lgrad false 2147483648 0 ⟨0, 0, 0, 0⟩ ⟨0, 0, 0, 0⟩) = false := by decide
theorem test_wf_lgrad_end : WellFormed (.lgrad false 0 2147483648 ⟨0, 0, 0, 0⟩ ⟨0, 0, 0, 0⟩) = false := by decide
theorem test_wf_sgrad_start : WellFormed (.sgrad false false false 2147483648 0 [⟨0, 0, 0, 0⟩]) = false := by decide
theorem test_wf_sgrad_end : WellFormed (.sgrad false false false 0 2147483648 [⟨0, 0, 0, 0⟩]) = false := by decide
theorem test_wf_sgrad_no_colour : WellFormed (.sgrad false false false 0 0 []) = false := by decide
theorem test_wf_sgrad_too_many : WellFormed (.sgrad false false false 0 0 (List.replicate 65536 ⟨0, 0, 0, 0⟩)) = false := by
  rw [WellFormed, List.length_replicate]
  decide
theorem test_wf_readword : WellFormed (.readword (-2147483649)) = false := by decide

/-! ### Decoding (words written out from R51 to R55; V90 and the programs P1 to P4 of 95_test_vectors.md) -/

theorem test_decode_config : decode [0x01000000#32, 0x00000005#32, 0x47524257#32, 0x000000C8#32, 0x00000000#32] =
    .done (.config false 5 0x47524257#32 200 0#32) [] := by decide
theorem test_decode_setbright : decode [0x02400000#32, 0xFFFFFFF9#32] = .done (.setbright true (-7)) [] := by decide
theorem test_decode_setpixel : decode [0x03000000#32, 0x00000000#32, 0xFF800100#32] =
    .done (.setpixel false 0 ⟨255, 128, 1, 0⟩) [] := by decide
theorem test_decode_setrange : decode [0x04800000#32, 0x00000001#32, 0x00000002#32, 0x0A141E28#32] =
    .done (.setrange true 1 2 ⟨10, 20, 30, 40⟩) [] := by decide
theorem test_decode_fill : decode [0x05800000#32, 0x01020304#32, 0x09000000#32] =
    .done (.fill true ⟨1, 2, 3, 4⟩) [0x09000000#32] := by decide
theorem test_decode_rotate : decode [0x06200000#32, 0x00000000#32] = .done (.rotate false true 0) [] := by decide
theorem test_decode_lgrad : decode [0x07800000#32, 0x00000004#32, 0x00000000#32, 0x00000000#32, 0xFF640A01#32] =
    .done (.lgrad true 4 0 ⟨0, 0, 0, 0⟩ ⟨255, 100, 10, 1⟩) [] := by decide
theorem test_decode_sgrad : decode [0x08980003#32, 0x00000001#32, 0x00000009#32, 0x01020304#32, 0x05060708#32, 0x090A0B0C#32] =
    .done (.sgrad true true true 1 9 [⟨1, 2, 3, 4⟩, ⟨5, 6, 7, 8⟩, ⟨9, 10, 11, 12⟩]) [] := by decide
theorem test_decode_show : decode [0x09000000#32] = .done .showFrame [] := by decide
theorem test_decode_readword : decode [0x0A000000#32, 0x80000000#32] = .done (.readword (-2147483648)) [] := by decide

/-- V90: the ill-formed headers. -/
theorem test_decode_illFormed :
    decode [0x00000000#32, 7#32] = .illFormed .opcode [7#32] ∧ decode [0x0B000000#32] = .illFormed .opcode [] ∧
    decode [0xFF000000#32] = .illFormed .opcode [] ∧ decode [0x09800000#32] = .illFormed .unusedFlag [] ∧
    decode [0x03400000#32] = .illFormed .unusedFlag [] ∧ decode [0x03010000#32] = .illFormed .reservedBits [] ∧
    decode [0x03000001#32] = .illFormed .countNotZero [] ∧ decode [0x08000000#32] = .illFormed .countZero [] ∧
    decode [0x08400002#32] = .illFormed .unusedFlag [] := by decide

/-- The encoder writes the words of P1, position 0, and of V90's SGRAD header (R51). -/
theorem test_encode :
    encode (.config true 4 0x47524200#32 0 400#32) = [0x01400000#32, 4#32, 0x47524200#32, 0#32, 0x190#32] ∧
    encode (.sgrad true true true 0 0 [⟨1, 2, 3, 4⟩]) = [0x08980001#32, 0#32, 0#32, 0x01020304#32] := by decide

/-- The table's numbering: bit 0 is the least significant bit of the first word; missing operand words are zeros. -/
theorem test_table_word :
    decodeTableWord 32 0x06600000 = some (.rotate true true 0) ∧
    decodeTableWord 64 0x0000000203000000 = some (.setpixel false 2 ⟨0, 0, 0, 0⟩) := by decide

/-- SGRAD's header with CNT = 0 is no command (R57). -/
theorem test_table_word_sgrad :
    decodeTableWord 32 0x08000000 = none ∧
    decodeTableWord 32 0x08000001 = some (.sgrad false false false 0 0 [⟨0, 0, 0, 0⟩]) := by decide

/-! ### Small states -/

/-- A buffer of four pixels, mode "GRB", brightness 255, with a timing and an array. -/
def four (w : Memory) : State where
  cfg := true
  regs :=
    { n := 4, mode := [.g, .r, .b], nch := 3, hasw := false, bpw := 24, sh := ⟨8, 16, 0, 0⟩, rdly := 400,
      profile := .ws2812 }
  bright := 255
  w := w
  tx := { phase := .idle, idx := 0, bit := 0, cnt := 0, sr := 0, fail := none }
  line := false
  busy := false
  st := []
  lt := []
  port := []
  out := []
  ioPlan := []
  rst := false
  grain := .symbol
  params :=
    { nmax := 100, sk6812 := ⟨2, 5, 3⟩,
      plans :=
        [(⟨4, 2, 0, 3, false, false⟩, some [⟨0, 0, 1, true⟩, ⟨1, 2, 3, false⟩]),
         (⟨4, 2, 0, 3, false, true⟩, some [⟨0, 0, 2, true⟩, ⟨1, 2, 3, true⟩]),
         (⟨4, 2, 1, 3, false, false⟩, some [⟨0, 0, 1, false⟩])] }
  freeCtr := 0

/-- The array [A, B, C, D] of V50, with words of the top lane 0. -/
def abcd : Memory := [(0, 0xA#32), (1, 0xB#32), (2, 0xC#32), (3, 0xD#32)]

/-- One pixel, mode "GRB", as in the IoError example of V80. -/
def one (x : Word) : State := { four [(0, x)] with regs := { (four []).regs with n := 1 } }

/-- What a step or a command leaves: the responses and the first words. -/
def seen (o : Host.Outcome State Fault Refusal) (n : Nat) : Option (List Response × List Word) :=
  match o with
  | .next s => some (s.out, (List.range n).map (Memory.read s.w))
  | _ => none

/-- What a step leaves of the configuration. -/
def seenRegs (o : Host.Outcome State Fault Refusal) : Option (Bool × ConfigRegs × Byte × List Response) :=
  match o with
  | .next s => some (s.cfg, s.regs, s.bright, s.out)
  | _ => none

/-- What a step leaves of the traces. -/
def seenTraces (o : Host.Outcome State Fault Refusal) : Option (List Symbol × List LevelSeg × List Response) :=
  match o with
  | .next s => some (s.st, s.lt, s.out)
  | _ => none

/-! ### One command each (95_test_vectors.md) -/

/-- V30, row 2. -/
theorem test_config_rgbw : seenRegs (exec (.config false 2 0x52474257#32 128 800#32) State.reset) =
    some (true, ⟨2, [.r, .g, .b, .w], 4, true, 32, ⟨24, 16, 8, 0⟩, 800, .sk6812⟩, 128, [⟨.ok, 0⟩]) := by decide
/-- V30: "RG", NUL, "B", and a lower-case mode. -/
theorem test_config_mode :
    seen (exec (.config true 4 0x52470042#32 0 400#32) State.reset) 0 = some ([⟨.configError, 0⟩], []) ∧
    seen (exec (.config true 4 0x72676200#32 0 400#32) State.reset) 0 = some ([⟨.configError, 0⟩], []) := by decide
/-- V31. -/
theorem test_setbright :
    seenRegs (exec (.setbright false (-7)) (four [])) = some (true, (four []).regs, 1, [⟨.ok, 1⟩]) ∧
    seenRegs (exec (.setbright true 5) (four [])) = some (true, (four []).regs, 255, [⟨.ok, 255⟩]) := by decide
/-- V40: the fourth channel dropped; brightness 1. -/
theorem test_setpixel :
    seen (exec (.setpixel true 1 ⟨17, 34, 51, 68⟩) (four [])) 4 = some ([⟨.ok, 0⟩], [0, 0x00221133, 0, 0]) ∧
    seen (exec (.setpixel false 0 ⟨255, 128, 127, 0⟩) { four [] with bright := 1 }) 4 =
      some ([⟨.ok, 0⟩], [0x00010100, 0, 0, 0]) := by decide
/-- V40: an index that is N. -/
theorem test_setpixel_index : seen (exec (.setpixel false 4 ⟨1, 1, 1, 0⟩) (four abcd)) 4 =
    some ([⟨.indexError, 0⟩], [0xA, 0xB, 0xC, 0xD]) := by decide
/-- V40: both orders, and one endpoint outside. -/
theorem test_setrange :
    seen (exec (.setrange false 3 1 ⟨0, 0, 255, 0⟩) (four [])) 4 = some ([⟨.ok, 0⟩], [0, 0xFF, 0xFF, 0xFF]) ∧
    seen (exec (.setrange false 0 4 ⟨1, 2, 3, 0⟩) (four abcd)) 4 =
      some ([⟨.invalidRangeError, 0⟩], [0xA, 0xB, 0xC, 0xD]) := by decide
/-- V40: brightness 128. -/
theorem test_fill : seen (exec (.fill false ⟨255, 128, 1, 0⟩) { four abcd with bright := 128 }) 5 =
    some ([⟨.ok, 0⟩], [0x00408001, 0x00408001, 0x00408001, 0x00408001, 0]) := by decide
/-- V40. -/
theorem test_readword :
    seen (exec (.readword 0) (four [(0, 0x0000FF00)])) 0 = some ([⟨.ok, 0x0000FF00⟩], []) ∧
    seen (exec (.readword (-1)) (four [])) 0 = some ([⟨.indexError, 0⟩], []) := by decide
/-- V50: left by 6; right by 0 is right by one. -/
theorem test_rotate :
    seen (exec (.rotate false false 6) (four abcd)) 4 = some ([⟨.ok, 0⟩], [0xC, 0xD, 0xA, 0xB]) ∧
    seen (exec (.rotate false true 0) (four abcd)) 4 = some ([⟨.ok, 0⟩], [0xD, 0xA, 0xB, 0xC]) := by decide
/-- V50: an offset that is negative, and one that is N. -/
theorem test_rotate_wraps :
    seen (exec (.rotate false false (-2147483648)) (four abcd)) 4 = some ([⟨.ok, 0⟩], [0xA, 0xB, 0xC, 0xD]) ∧
    seen (exec (.rotate false true (-1)) (four abcd)) 4 = some ([⟨.ok, 0⟩], [0xB, 0xC, 0xD, 0xA]) := by decide
/-- V60: ties in the channels, and brightness after the interpolation. -/
theorem test_lgrad :
    seen (exec (.lgrad false 2 0 ⟨0, 0, 0, 0⟩ ⟨3, 255, 1, 0⟩)
      { four [] with bright := 64, regs := { (four []).regs with n := 3, mode := [.r, .g, .b], sh := ⟨16, 8, 0, 0⟩ } }) 3 =
      some ([⟨.ok, 0⟩], [0x00000000, 0x00012000, 0x00014000]) := by decide
/-- V60: the no-op, and the range test before it. -/
theorem test_lgrad_noop :
    seen (exec (.lgrad false 2 2 ⟨9, 9, 9, 0⟩ ⟨1, 1, 1, 0⟩) (four abcd)) 4 = some ([⟨.ok, 0⟩], [0xA, 0xB, 0xC, 0xD]) ∧
    seen (exec (.lgrad false 7 7 ⟨9, 9, 9, 0⟩ ⟨1, 1, 1, 0⟩) (four abcd)) 0 = some ([⟨.invalidRangeError, 0⟩], []) := by decide
/-- R117 with a settled plan: forward from colour 0 to 1, then backward for the pair (1, 0). -/
theorem test_sgrad : seen (exec (.sgrad false false false 0 3 [⟨255, 0, 0, 0⟩, ⟨0, 0, 255, 0⟩]) (four [])) 4 =
    some ([⟨.ok, 0⟩], [0x0000FF00, 0x000000FF, 0x0000FF00, 0x000000FF]) := by decide
/-- V70: endIndex outside [0, N). -/
theorem test_sgrad_range : seen (exec (.sgrad false false false 0 40 [⟨1, 1, 1, 0⟩]) (four abcd)) 4 =
    some ([⟨.invalidRangeError, 0⟩], [0xA, 0xB, 0xC, 0xD]) := by decide
/-- ZERO with T1, T2, T3 = 2, 5, 3 (V80). -/
def zeroSegs : List LevelSeg := [⟨true, 3⟩, ⟨false, 7⟩]
/-- ONE with T1, T2, T3 = 2, 5, 3 (V80). -/
def oneSegs : List LevelSeg := [⟨true, 5⟩, ⟨false, 5⟩]
/-- V80, row 1. -/
theorem test_show : seenTraces (exec .showFrame (one 0x0000FF00)) =
    some (List.replicate 8 .zero ++ List.replicate 8 .one ++ List.replicate 8 .zero ++ [.latch 400],
      (List.replicate 8 zeroSegs ++ List.replicate 8 oneSegs ++ List.replicate 8 zeroSegs).flatten ++ [⟨false, 400⟩],
      [⟨.ok, 0⟩]) := by decide
/-- V80: `fail(10)`. -/
theorem test_show_fails : seenTraces (exec .showFrame { one 0x0000FF00 with ioPlan := [.fail 10 0] }) =
    some (List.replicate 8 .zero ++ List.replicate 2 .one,
      (List.replicate 8 zeroSegs ++ List.replicate 2 oneSegs).flatten,
      [⟨.ioError, 0⟩]) := by decide

/-- R117 in rainbow mode with a settled plan: forward for both pairs; the later segment overwrites the shared pixel. -/
theorem test_sgrad_rainbow : seen (exec (.sgrad false false true 0 3 [⟨255, 0, 0, 0⟩, ⟨0, 0, 255, 0⟩]) (four [])) 4 =
    some ([⟨.ok, 0⟩], [0x0000FF00, 0x00008080, 0x000000FF, 0x0000FF00]) := by decide

/-! ### Single steps -/

/-- P4, position 0: a command before CONFIG (the host's way to place one word after reset). -/
theorem test_step_before_config : seen (step (State.reset.withFetchWord 96 0x010203000000000003000000)) 0 =
    some ([⟨.cmdError, 0⟩], []) := by decide
/-- An ill-formed header takes one word (R57). -/
theorem test_step_illFormed :
    (match step { four abcd with port := [0x08000000#32, 0x09000000#32] } with
      | .next s => some (s.port, s.out)
      | _ => none) = some ([0x09000000#32], [⟨.cmdError, 0⟩]) := by decide
/-- The tick machine: `HI(0) = 3` ticks high, then low (R139). -/
theorem test_tick :
    (List.range 5).map (fun k => (ticks k (acceptShow { one 0 with grain := .tick })).line) =
      [true, true, true, false, false] := by decide

/-- R140: N = 4, BPW = 24, RDLY = 400: 1360 ticks. -/
theorem test_show_time : (four []).showTicks = 1360 := by decide

/-- A failure reported in the middle of the second symbol (R136, R139): after 14 ticks the line is low, one symbol is in the
traces and the answer is IoError; one tick before the block is busy. -/
theorem test_tick_failure :
    (let s := ticks 14 (acceptShow { one 0 with grain := .tick, ioPlan := [.fail 1 4] });
      (s.line, s.busy, s.st, s.lt, s.out)) = (false, false, [.zero], zeroSegs, [⟨.ioError, 0⟩]) ∧
    (ticks 13 (acceptShow { one 0 with grain := .tick, ioPlan := [.fail 1 4] })).busy = true := by decide

/-! ### Arithmetic (V20, V60, R7) -/

theorem test_scale : scale 128 1 = 1 ∧ scale 127 1 = 0 ∧ scale 128 254 = 127 ∧ scale 200 100 = 78 := by decide
theorem test_lerp : lerp 0 255 2 4 = 128 ∧ lerp 0 1 1 2 = 0 ∧ lerp 100 0 1 3 = 67 ∧ lerp 0 255 7 10 = 178 := by decide
theorem test_rne : rne 1 2 = 0 ∧ rne 3 2 = 2 ∧ rne 5 2 = 2 ∧ rne 255 2 = 128 ∧ rne (-1) 2 = 0 := by decide
/-- V21: "WRGB", four channels, brightness 128. -/
theorem test_pack : packWith 128 ⟨16, 8, 0, 24⟩ true true ⟨255, 128, 1, 200⟩ = 0x64804001 := by decide

/-! ### Witnesses: for each statement with hypotheses, states and operands that meet them, for each clause, at the ends of the
ranges -/

theorem read_abcd_out {i : Nat} (h : 4 ≤ i) : Memory.read abcd i = 0#32 := by
  simp only [abcd, Memory.read]
  repeat rw [if_neg (by omega)]

theorem top_lane_abcd (i : Nat) : (Memory.read abcd i).extractLsb' 24 8 = 0#8 := by
  by_cases h : 4 ≤ i
  · rw [read_abcd_out h]
    decide
  · have : i = 0 ∨ i = 1 ∨ i = 2 ∨ i = 3 := by omega
    rcases this with rfl | rfl | rfl | rfl <;> decide

theorem lanes_grb (p : Nat) (c : Chan) (h : [Chan.g, .r, .b][p]? = some c) :
    ((⟨8, 16, 0, 0⟩ : ShiftTable).get c).toNat = 8 * (3 - 1 - p) := by
  match p with
  | 0 => cases h; decide
  | 1 => cases h; decide
  | 2 => cases h; decide
  | _ + 3 => cases h

/-- A constructed block with the configuration and the array of `four abcd`, whatever its transmitter and the host's side. -/
theorem configured_four (s : State) (hr : s.regs = (four []).regs) (hp : s.params = (four []).params) (hb : s.bright = 255)
    (hw : s.w = abcd) : Configured s := by
  constructor <;> simp only [hr, hp, hb, hw]
  case lanes => exact lanes_grb
  case in_array => exact fun i h => read_abcd_out h
  case top_lane => exact fun _ i => top_lane_abcd i
  all_goals decide

theorem inRange_four : Params.InRange (four []).params := ⟨by decide, by decide, ⟨by decide, by decide, by decide⟩⟩

theorem test_witness_inv_idle : StateInv (four abcd) := by
  refine ⟨by decide, inRange_four, ?_, fun _ => configured_four _ rfl rfl rfl rfl⟩
  constructor <;> decide

/-- The same block in tick grain, at the start of the last bit of its last word. -/
def sending : State :=
  { four abcd with
    grain := .tick
    busy := true
    line := true
    tx := { phase := .high, idx := 3, bit := 0, cnt := 5, sr := 0xD, fail := none } }

theorem test_witness_inv_sending : StateInv sending := by
  refine ⟨by decide, inRange_four, ?_, fun _ => configured_four _ rfl rfl rfl rfl⟩
  constructor <;> decide

theorem test_witness_inv_latch :
    StateInv { sending with line := false, tx := { phase := .latch, idx := 4, bit := 0, cnt := 400, sr := 0, fail := none } } := by
  refine ⟨by decide, inRange_four, ?_, fun _ => configured_four _ rfl rfl rfl rfl⟩
  constructor <;> decide

theorem test_witness_DecodeOfEncode :
    WellFormed (.lgrad true (-2147483648) 2147483647 ⟨0, 0, 0, 0⟩ ⟨255, 255, 255, 255⟩) = true ∧
    WellFormed (.sgrad true true true 2147483647 (-2147483648) [⟨1, 2, 3, 4⟩]) = true ∧
    WellFormed (.config true 2147483647 0xFFFFFFFF#32 (-2147483648) 0xFFFFFFFF#32) = true := by decide

theorem test_witness_EncodeOfDecode : decode [0x06600000#32, 0#32, 1#32] = .done (.rotate true true 0) [1#32] := by decide

theorem test_witness_CommandLengthFromHeader :
    decode [0x08000001#32, 0#32, 0#32, 0#32, 9#32] = .done (.sgrad false false false 0 0 [⟨0, 0, 0, 0⟩]) [9#32] ∧
    decode [0x09000000#32] = .done .showFrame [] := by decide

theorem test_witness_IllFormedHeaderIsCmdError :
    State.Ready { four abcd with port := [0x03010000#32, 0x09000000#32] } ∧
    HeaderIllFormed 0x00FFFFFF#32 ∧ HeaderIllFormed 0x0B000000#32 ∧ HeaderIllFormed 0x03010000#32 ∧
    HeaderIllFormed 0x09800000#32 ∧ HeaderIllFormed 0x03000001#32 ∧ HeaderIllFormed 0x08000000#32 := by
  refine ⟨⟨rfl, rfl⟩, .inl (.inl (by decide)), .inl (.inr (by decide)), .inr (.inl (by decide)), .inr (.inr (.inl ?_)),
    .inr (.inr (.inr (.inl (by decide)))), .inr (.inr (.inr (.inr (by decide))))⟩
  unfold FlagsUsed
  decide

theorem test_witness_StepRunsDecodedCommand :
    State.Ready { four abcd with port := [0x09000000#32] } ∧ decode [0x09000000#32] = .done .showFrame [] := ⟨⟨rfl, rfl⟩, by decide⟩

theorem test_witness_WaitsForHost :
    State.Ready (four abcd) ∧ decode (four abcd).port = .empty ∧
    State.Ready { four abcd with port := [0x03000000#32, 1#32] } ∧ decode [0x03000000#32, 1#32] = .truncated :=
  ⟨⟨rfl, rfl⟩, by decide, ⟨rfl, rfl⟩, by decide⟩

theorem test_witness_HardwareResetEffect :
    ({ four abcd with rst := true } : State).rst = true ∧ (four abcd).busy = false ∧
    ({ sending with rst := true } : State).rst = true ∧ sending.busy = true ∧ ¬ IsConfig .showFrame :=
  ⟨rfl, rfl, rfl, rfl, by simp [IsConfig]⟩

theorem test_witness_CmdErrorExactly :
    State.reset.cfg = false ∧ ¬ IsConfig (.readword 0) ∧ (four abcd).cfg = true ∧ IsConfig (.config false 1 0 1 0) ∧
    State.Ready { four abcd with port := [0#32] } ∧ HeaderIllFormed 0#32 :=
  ⟨rfl, by simp [IsConfig], rfl, ⟨_, _, _, _, _, rfl⟩, ⟨rfl, rfl⟩, .inl (.inl (by decide))⟩

/-- Both ends of the count test, and the mode test; and a CONFIG whose answer is ConfigError. -/
theorem test_witness_ConfigErrorExactly :
    State.reset.cfg = false ∧ (0 : Int) ≤ 0 ∧ ((2147483647 : Nat) : Int) < 2147483648 ∧ validMode 0x52474700#32 = none ∧
    ∃ t, exec (.config false 0 0x47524200#32 1 400) State.reset = .next t ∧
      t.out = State.reset.out ++ [⟨.configError, 0#32⟩] := ⟨rfl, by decide, by decide, by decide, _, rfl, by decide⟩

theorem test_witness_ErrorsChangeNothing :
    (∃ t, exec (.setpixel false 4 ⟨1, 1, 1, 0⟩) (four abcd) = .next t ∧ t.out = (four abcd).out ++ [⟨.indexError, 0#32⟩]) ∧
    ∃ t, exec .showFrame { one 0 with ioPlan := [.fail 0 0] } = .next t ∧ t.out = (one 0).out ++ [⟨.ioError, 0#32⟩] :=
  ⟨⟨_, rfl, by decide⟩, ⟨_, rfl, by decide⟩⟩

theorem test_witness_WhoRaisesWhat :
    (∃ t, exec (.readword (-1)) (four abcd) = .next t ∧ t.out = (four abcd).out ++ [⟨.indexError, 0#32⟩]) ∧
    (∃ t, exec (.setrange false 0 4 ⟨1, 1, 1, 0⟩) (four abcd) = .next t ∧
      t.out = (four abcd).out ++ [⟨.invalidRangeError, 0#32⟩]) ∧
    ∃ t, exec .showFrame { one 0 with ioPlan := [.fail 24 0] } = .next t ∧ t.out = (one 0).out ++ [⟨.ioError, 0#32⟩] :=
  ⟨⟨_, rfl, by decide⟩, ⟨_, rfl, by decide⟩, ⟨_, rfl, by decide⟩⟩

theorem test_witness_EveryCommandOneResponse :
    (Instr.showFrame = .showFrame → (four abcd).cfg = true → (four abcd).grain = .symbol) ∧
    (Instr.readword 3 = .showFrame → sending.cfg = true → sending.grain = .symbol) := by decide

/-- The count at both ends of its range, three and four letters; and each way to fail. -/
theorem test_witness_ConfigConstructs :
    State.reset.cfg = false ∧ (0 : Int) < 1 ∧ (1 : Int) ≤ State.reset.params.nmax ∧
    (0 : Int) < 2147483647 ∧ (2147483647 : Int) ≤ State.reset.params.nmax ∧
    validMode 0x47524200#32 = some [.g, .r, .b] ∧ validMode 0x57524742#32 = some [.w, .r, .g, .b] ∧
    (four abcd).cfg = true ∧ (0 : Int) ≤ 0 ∧ (State.reset.params.nmax : Int) < 2147483648 ∧ validMode 0#32 = none := by
  decide

theorem test_witness_LaneRule :
    legalMode [.b, .g, .r] = true ∧ [Chan.b, .g, .r][2]? = some .r ∧
    legalMode [.w, .b, .g, .r] = true ∧ [Chan.w, .b, .g, .r][0]? = some .w ∧ [Chan.w, .b, .g, .r][3]? = some .r := by decide

theorem test_witness_SetbrightEffect : State.reset.cfg = false ∧ (four abcd).cfg = true := by decide

theorem test_witness_RneIsNearestEven : 1 ≤ (1 : Nat) := by decide

theorem test_witness_ScaleIsExact : (255 ≤ (255 : Nat) ∧ 1 ≤ (1 : Nat) ∧ 1 ≤ (255 : Nat)) ∧ (0 : Nat) ≤ 255 ∧ (255 : Nat) ≤ 255 := by
  decide

theorem test_witness_LerpLaws : (255 : Nat) ≤ 255 ∧ (0 : Nat) ≤ 255 ∧ (1 : Nat) ≤ 1 ∧ (0 : Nat) ≤ 1 := by decide

theorem test_witness_UnpackOfPack : Configured (four abcd) ∧ (four abcd).bright = 255#8 :=
  ⟨configured_four _ rfl rfl rfl rfl, rfl⟩

theorem test_witness_FourthChannelIgnoredOnRgb : (four abcd).regs.hasw = false := by decide

/-- Before construction; below, above and at both ends of [0, N). -/
theorem test_witness_SetpixelEffect :
    Memory.wf State.reset.w = true ∧ State.reset.cfg = false ∧ Memory.wf (four abcd).w = true ∧ (four abcd).cfg = true ∧
    (-1 : Int) < 0 ∧ ((four abcd).regs.n : Int) ≤ 4 ∧ (0 : Int) < (four abcd).regs.n ∧ (3 : Int) < (four abcd).regs.n := by
  decide

theorem test_witness_SetrangeEffect :
    Memory.wf State.reset.w = true ∧ State.reset.cfg = false ∧ Memory.wf (four abcd).w = true ∧ (four abcd).cfg = true ∧
    (-1 : Int) < 0 ∧ ((four abcd).regs.n : Int) ≤ 4 ∧ (0 : Int) < (four abcd).regs.n ∧ (3 : Int) < (four abcd).regs.n := by
  decide

theorem test_witness_FillEffect :
    Memory.wf State.reset.w = true ∧ State.reset.cfg = false ∧ Memory.wf (four abcd).w = true ∧ (four abcd).cfg = true := by decide

theorem test_witness_ReadwordEffect :
    State.reset.cfg = false ∧ (four abcd).cfg = true ∧ (-1 : Int) < 0 ∧ ((four abcd).regs.n : Int) ≤ 4 ∧
    (0 : Int) < (four abcd).regs.n ∧ (3 : Int) < (four abcd).regs.n := by decide

theorem test_witness_BrightnessBakedIn :
    StateInv (four abcd) ∧ (four abcd).cfg = true ∧ (0 : Int) ≤ 3 ∧ (3 : Int) < (four abcd).regs.n :=
  ⟨test_witness_inv_idle, by decide⟩

theorem test_witness_RotateEffect :
    Memory.wf State.reset.w = true ∧ State.reset.cfg = false ∧ Memory.wf (four abcd).w = true ∧ (four abcd).cfg = true ∧
    (1 : Int) = (if true = true ∨ (7 : Int) = 0 then 1 else 7) ∧ (1 : Int) = (if false = true ∨ (0 : Int) = 0 then 1 else 0) ∧
    (-5 : Int) = (if false = true ∨ (-5 : Int) = 0 then 1 else -5) := by decide

theorem test_witness_RotateInverse : StateInv (four abcd) ∧ (four abcd).cfg = true ∧ (-1 : Int) ≠ 0 :=
  ⟨test_witness_inv_idle, by decide⟩

theorem test_witness_RotateComposes : StateInv (four abcd) ∧ (four abcd).cfg = true ∧ 3 < (four abcd).regs.n :=
  ⟨test_witness_inv_idle, by decide⟩

theorem test_witness_LgradEffect :
    Memory.wf State.reset.w = true ∧ State.reset.cfg = false ∧ Memory.wf (four abcd).w = true ∧ (four abcd).cfg = true ∧
    (-1 : Int) < 0 ∧ ((four abcd).regs.n : Int) ≤ 4 ∧
    ((0 : Int) ≤ 3 ∧ (3 : Int) < (four abcd).regs.n ∧ (3 : Int) ≠ 0) ∧
    ((0 : Int) < min 3 1 ∧ ((3 : Nat) : Int) = min 3 0 + (3 : Nat) ∧ ((3 : Nat) : Int) = max 3 0 - min 3 0) := by decide

theorem test_witness_LgradSymmetryAndEnds :
    Memory.wf (four abcd).w = true ∧ (four abcd).cfg = true ∧ (0 : Int) ≤ 0 ∧ (0 : Int) < 3 ∧ (3 : Int) < (four abcd).regs.n := by
  decide

theorem planMeets_plain : PlanMeets 4 2 3 false false [⟨0, 0, 1, true⟩, ⟨1, 2, 3, false⟩] := by
  constructor <;> simp

theorem planMeets_rainbow : PlanMeets 4 2 3 false true [⟨0, 0, 2, true⟩, ⟨1, 2, 3, true⟩] := by
  constructor <;> simp

/-- The settled plans of `four`, in rainbow mode and not: given, within the constraints at both ends of the index range, and what
sgradPlan answers; an index at N and one below 0; and a settled list that breaks P4. -/
theorem test_witness_SgradPlanConstraints :
    (sgradPlan (four []).params 4 2 0 3 false false = some [⟨0, 0, 1, true⟩, ⟨1, 2, 3, false⟩] ∧
      PlanGiven (four []).params ⟨4, 2, 0, 3, false, false⟩ [⟨0, 0, 1, true⟩, ⟨1, 2, 3, false⟩] ∧
      PlanMeets 4 2 3 false false [⟨0, 0, 1, true⟩, ⟨1, 2, 3, false⟩]) ∧
    (sgradPlan (four []).params 4 2 0 3 false true = some [⟨0, 0, 2, true⟩, ⟨1, 2, 3, true⟩] ∧
      PlanGiven (four []).params ⟨4, 2, 0, 3, false, true⟩ [⟨0, 0, 2, true⟩, ⟨1, 2, 3, true⟩] ∧
      PlanMeets 4 2 3 false true [⟨0, 0, 2, true⟩, ⟨1, 2, 3, true⟩]) ∧
    ((4 : Nat) : Int) ≤ 4 ∧ (-1 : Int) < 0 ∧ sgradPlan (four []).params 4 2 1 3 false false = none :=
  ⟨⟨by decide, .inl (by decide), planMeets_plain⟩, ⟨by decide, .inl (by decide), planMeets_rainbow⟩, by decide, by decide,
    by decide⟩

/-- A valid plan with the pixel it covers, at both directions; an invalid one; and a block not constructed. -/
theorem test_witness_SgradEffect :
    Memory.wf State.reset.w = true ∧ State.reset.cfg = false ∧ Memory.wf (four abcd).w = true ∧ (four abcd).cfg = true ∧
    sgradPlan (four abcd).params (four abcd).regs.n 2 0 3 false (false || 2 == 4) =
      some ([⟨0, 0, 1, true⟩] ++ ⟨1, 2, 3, false⟩ :: []) ∧
    sgradPlan (four abcd).params (four abcd).regs.n 2 0 4 false (false || 2 == 4) = none ∧
    Covers ⟨1, 2, 3, false⟩ 3 ∧ Covers ⟨0, 0, 1, true⟩ 0 ∧ ¬ Covers ⟨1, 2, 3, false⟩ 0 := by
  refine ⟨by decide, by decide, by decide, by decide, by decide, by decide, ?_, ?_, ?_⟩ <;> unfold Covers <;> decide

theorem test_witness_SgradWithoutPlan :
    Memory.wf (four abcd).w = true ∧ (four abcd).cfg = true ∧ (-1 : Int) < 0 ∧ ((four abcd).regs.n : Int) ≤ 4 ∧
    (four abcd).regs.n ≤ 4 ∧ ∀ c ∈ [(⟨1, 2, 3, 4⟩ : Colour), ⟨1, 2, 3, 4⟩], c = ⟨1, 2, 3, 4⟩ := by decide

theorem test_witness_SymbolWaveforms :
    (four abcd).regs.profile = .ws2812 ∧
    ({ four abcd with regs := { (four abcd).regs with profile := .sk6812 } } : State).regs.profile = .sk6812 := by decide

theorem test_witness_FrameBits : 3 < (four abcd).regs.n ∧ 0 < (four abcd).regs.bpw ∧ 23 < (four abcd).regs.bpw := by decide

theorem test_witness_ShowSendsFrame :
    State.reset.cfg = false ∧ (four abcd).cfg = true ∧ (four abcd).grain = .symbol ∧ (four abcd).ioAnswer = .sent ∧
    ({ four abcd with ioPlan := [.fail 0 0] } : State).ioAnswer = .fail 0 0 := by decide

theorem test_witness_ShowFails :
    ({ four abcd with ioPlan := [.fail 96 0] } : State).ioAnswer = .fail 96 0 ∧ 96 ≤ (four abcd).regs.n * (four abcd).regs.bpw ∧
    (four abcd).cfg = true ∧ (four abcd).grain = .symbol ∧
    ({ four abcd with ioPlan := [.fail 0 0] } : State).ioAnswer = .fail 0 0 := by decide

theorem test_witness_ShowDuration :
    (four abcd).cfg = true ∧ (four abcd).grain = .symbol ∧ (four abcd).ioAnswer = .sent ∧
    ∃ t, exec .showFrame (four abcd) = .next t := ⟨by decide, by decide, by decide, _, rfl⟩

/-- The block of `four abcd` in tick grain, with the collaborator's answers `io`. -/
theorem inv_tick (io : List IoAnswer) : StateInv { four abcd with grain := .tick, ioPlan := io } := by
  refine ⟨(by decide : Memory.wf abcd = true), inRange_four, ?_, fun _ => configured_four _ rfl rfl rfl rfl⟩
  constructor <;> simp [four, busyFlag, lineLevel]

theorem test_witness_TickMachineRefinesShow :
    StateInv { four abcd with grain := .tick } ∧ (four abcd).cfg = true ∧ (four abcd).busy = false ∧
    ({ four abcd with grain := .tick } : State).ioAnswer = .sent := ⟨inv_tick [], by decide, by decide, by decide⟩

/-- A report at acceptance, one in the last tick of the last symbol's wait, one at the end of the frame, and one as the latch
ends. -/
theorem test_witness_TickMachineRefinesFailedShow :
    (∀ io, StateInv { four abcd with grain := .tick, ioPlan := io }) ∧ (four abcd).cfg = true ∧ (four abcd).busy = false ∧
    (∀ m late, ({ four abcd with ioPlan := [.fail m late] } : State).ioAnswer = .fail m late) ∧
    (0 < (four abcd).regs.n * (four abcd).regs.bpw ∧ 0 < (four abcd).timing.t1 + (four abcd).timing.t2 + (four abcd).timing.t3) ∧
    (95 < (four abcd).regs.n * (four abcd).regs.bpw ∧
      9 < (four abcd).timing.t1 + (four abcd).timing.t2 + (four abcd).timing.t3) ∧
    (96 = (four abcd).regs.n * (four abcd).regs.bpw ∧ 0 ≤ (four abcd).regs.rdly.toNat) ∧ 400 ≤ (four abcd).regs.rdly.toNat :=
  ⟨inv_tick, by decide, by decide, fun _ _ => rfl, by decide, by decide, by decide, by decide⟩

theorem test_witness_LineFollowsLevelTrace :
    (∀ io, StateInv { four abcd with grain := .tick, ioPlan := io }) ∧ (four abcd).cfg = true ∧ (four abcd).busy = false ∧
    (∀ io, ∃ a, exec .showFrame { four abcd with grain := .tick, ioPlan := io } = .next a) ∧
    ({ four abcd with grain := .tick } : State).ioAnswer = .sent ∧ 0 < (four abcd).showTicks ∧
    (∀ m late, ({ four abcd with ioPlan := [.fail m late] } : State).ioAnswer = .fail m late) ∧
    (0 < (four abcd).regs.n * (four abcd).regs.bpw ∧ 9 < (four abcd).timing.t1 + (four abcd).timing.t2 + (four abcd).timing.t3) ∧
    96 = (four abcd).regs.n * (four abcd).regs.bpw ∧ 400 ≤ (four abcd).regs.rdly.toNat :=
  ⟨inv_tick, by decide, by decide, fun _ => ⟨_, rfl⟩, by decide, by decide, fun _ _ => rfl, by decide, by decide, by decide⟩

theorem test_witness_BusyHoldsCommands : sending.rst = false ∧ sending.busy = true := by decide

theorem test_witness_HoldEnds : StateInv sending ∧ sending.rst = false ∧ sending.busy = true :=
  ⟨test_witness_inv_sending, by decide⟩

theorem test_witness_StepKeepsInv : StateInv sending ∧ ∃ t, step sending = .next t := ⟨test_witness_inv_sending, _, rfl⟩

theorem test_witness_ConfigurationImmutable : sending.cfg = true ∧ sending.rst = false ∧ ∃ t, step sending = .next t :=
  ⟨by decide, by decide, _, rfl⟩

theorem test_witness_BrightWriters : ∃ t, step { four abcd with port := [0x02000000#32, 5#32] } = .next t ∧ t.bright ≠ 255 :=
  ⟨_, rfl, by decide⟩

theorem test_witness_BrightNotReadBy :
    (∃ t, exec .showFrame (one 0) = .next t) ∧ (∃ t, exec (.rotate false false 1) (four abcd) = .next t) ∧
    ∃ t, exec (.readword 3) (four abcd) = .next t := ⟨⟨_, rfl⟩, ⟨_, rfl⟩, ⟨_, rfl⟩⟩

theorem test_witness_ArrayWriters : ∃ t, step { four abcd with port := [0x05000000#32, 0#32] } = .next t ∧ t.w ≠ abcd :=
  ⟨_, rfl, by decide⟩

theorem test_witness_TracesGrowOnlyInShow :
    (∃ t, step { one 0 with port := [0x09000000#32] } = .next t) ∧
    ∃ t, step { State.reset with port := [0x01400000#32, 4#32, 0x47524200#32, 0#32, 400#32] } = .next t := ⟨⟨_, rfl⟩, ⟨_, rfl⟩⟩

theorem test_witness_ObservationNotRead :
    (four abcd).eraseObs = ({ four abcd with st := [.one], out := [⟨.ok, 7⟩] } : State).eraseObs ∧
    ∃ t, exec .showFrame (four abcd) = .next t := ⟨rfl, _, rfl⟩

/-- A reset asked for while a good CONFIG waits on the port. -/
theorem test_witness_ResetBlockIsReady :
    ({ four abcd with rst := true } : State).rst = true ∧ (four abcd).busy = false ∧
    decode [0x01400000#32, 100#32, 0x47524200#32, 0#32, 400#32] = .done (.config true 100 0x47524200#32 0 400#32) [] ∧
    (0 : Int) < 100 ∧ (100 : Int) ≤ (four abcd).params.nmax ∧ validMode 0x47524200#32 = some [.g, .r, .b] := by decide

theorem test_witness_AbsentLetterKeepsLane :
    State.reset.cfg = false ∧ (0 : Int) < 1 ∧ (1 : Int) ≤ State.reset.params.nmax ∧
    validMode 0x47524200#32 = some [.g, .r, .b] ∧ Chan.w ∉ [Chan.g, .r, .b] := by decide

theorem test_witness_FillIsSetrangeAll : 1 ≤ (one 0).regs.n ∧ 1 ≤ (four abcd).regs.n := by decide

end Sys2Proof.Tests
end

section
/-! Rounding to the nearest integer, the even one at a tie (R7). -/

namespace Sys2Proof.Machine

/-- At a tie `rne` is even. Off the tie the distance is `r` or `den - r`, each less than half of `den`; at the tie `rne`
takes `q` or `q + 1`, whichever is even. -/
theorem rne_even_of_tie (num : Int) {den : Nat} (hd : 1 ≤ den) (htie : 2 * |num - den * rne num den| = den) :
    rne num den % 2 = 0 := by
  obtain ⟨q, r, rfl, hr0, hrd, hcases⟩ := rne_cases num hd
  rcases hcases with ⟨hlt, e⟩ | ⟨hgt, e⟩ | ⟨-, hq, e⟩ | ⟨-, hq, e⟩ <;> rw [e] at htie ⊢
  · rw [add_sub_cancel_left, abs_of_nonneg hr0] at htie
    omega
  · have hneg : (den : Int) * q + r - den * (q + 1) = -(den - r) := by ring
    rw [hneg, abs_neg, abs_of_nonneg (by omega)] at htie
    omega
  · exact hq
  · omega

/-- Settles O19: the bound is `rne_near`, the tie `rne_even_of_tie`. -/
theorem rneIsNearestEven : Obligations.RneIsNearestEven := by
  intro num den hd
  obtain ⟨hlo, hhi⟩ := rne_near num hd
  refine ⟨?_, rne_even_of_tie num hd⟩
  have habs : |2 * (num - den * rne num den)| ≤ den := abs_le.mpr ⟨hlo, hhi⟩
  rwa [abs_mul, abs_two] at habs

end Sys2Proof.Machine
end

section
/-! What one step can do, as one inversion (R50, R135, R176, R190), and what every command leaves of the configuration, of
BRIGHT and of the word array (R11 to R17, R38). -/

namespace Sys2Proof.Machine

variable {s t : State} {i : Instr}

/-- Everything a step that gives a next state can be. -/
inductive StepEffect (s : State) : State → Prop where
  | reset (hr : s.rst = true) (hb : s.busy = false) : StepEffect s (hardwareReset s)
  | ticked (hr : s.rst = false) (hb : s.busy = true) : StepEffect s (tick s)
  | ran {t : State} (hr : s.rst = false) (hb : s.busy = false) (i : Instr) (rest : List Word)
      (hd : decode s.port = .done i rest) (he : Effect i (s.setPort rest) t) : StepEffect s t
  | rejected (hr : s.rst = false) (hb : s.busy = false) (rest : List Word) : StepEffect s (rejectHeader rest s)
  | waited (hr : s.rst = false) (hb : s.busy = false) : StepEffect s s

/-- The step function does one of these. -/
theorem step_effect (h : step s = .next t) : StepEffect s t := by
  rcases step_cases s with ⟨hr, e⟩ | ⟨hr, hb, e⟩ | ⟨hr, hb, ⟨i, rest, hd, e⟩ | ⟨-, rest, -, e⟩ | ⟨-, e⟩⟩ <;> rw [e] at h
  · unfold resetStep at h
    split_ifs at h with hb
    cases h
    exact .reset hr (by simpa using hb)
  · cases h; exact .ticked hr hb
  · exact .ran hr hb i rest hd (exec_effect h)
  · cases h; exact .rejected hr hb rest
  · cases h; exact .waited hr hb

theorem respond_same (s : State) (e : Status) (v : Word) : SameBlock s (s.respond e v) :=
  ⟨rfl, rfl, rfl, rfl, rfl, rfl, rfl, rfl, rfl⟩

/-- Of the block SHOW uses up only the oracle's answer (R130, R136). -/
theorem showSymbols_same (s : State) : SameBlock s.popIo (showSymbols s) := by
  unfold showSymbols
  split <;> exact ⟨rfl, rfl, rfl, rfl, rfl, rfl, rfl, rfl, rfl⟩

theorem acceptShow_same (s : State) : SameBlock s.popIo (acceptShow s) := by
  rcases acceptShow_cases s with ⟨_, _, -, -, e⟩ | ⟨-, e⟩ <;> rw [e] <;>
    exact ⟨rfl, rfl, rfl, rfl, rfl, rfl, rfl, rfl, rfl⟩

/-- No command writes the model parameters, and none but the CONFIG that constructs writes the configuration. -/
theorem Effect.keeps_configuration (h : Effect i s t) (hc : s.cfg = true) :
    t.cfg = true ∧ t.regs = s.regs ∧ t.params = s.params := by
  cases h with
  | cmdError | configError | indexError | rangeError | brightness | words | read => exact ⟨hc, rfl, rfl⟩
  | shown => exact ⟨(showSymbols_same s).cfg.trans hc, (showSymbols_same s).regs, (showSymbols_same s).params⟩
  | accepted => exact ⟨(acceptShow_same s).cfg.trans hc, (acceptShow_same s).regs, (acceptShow_same s).params⟩
  | constructed _ _ _ _ h0 => exact absurd hc (by simp [h0])

/-- Settles O50: a tick leaves the block, a command the configuration. -/
theorem configurationImmutable : Obligations.ConfigurationImmutable := by
  intro s t hc hr h
  cases step_effect h with
  | reset hr' => exact absurd hr' (by simp [hr])
  | ticked => exact ⟨(tick_same s).cfg.trans hc, (tick_same s).regs, (tick_same s).params⟩
  | ran _ _ i rest _ he => exact he.keeps_configuration hc
  | rejected | waited => exact ⟨hc, rfl, rfl⟩

/-- The commands that write BRIGHT; SETBRIGHT leaves the array. -/
theorem Effect.bright_writer (h : Effect i s t) :
    t.bright = s.bright ∨ IsConfig i ∨ ∃ unset value, i = .setbright unset value ∧ t.w = s.w := by
  cases h with
  | cmdError | configError | indexError | rangeError | words | read => exact .inl rfl
  | shown => exact .inl (showSymbols_same s).bright
  | accepted => exact .inl (acceptShow_same s).bright
  | brightness _ hi => obtain ⟨u, v, hi⟩ := hi; exact .inr (.inr ⟨u, v, hi, rfl⟩)
  | constructed _ _ _ _ _ hi => exact .inr (.inl hi)

/-- Settles O51: without a reset only a command can write BRIGHT. -/
theorem brightWriters : Obligations.BrightWriters := by
  intro s t hr h hne
  cases step_effect h with
  | reset hr' => exact absurd hr' (by simp [hr])
  | ticked => exact absurd (tick_same s).bright hne
  | ran _ _ i rest hd he => exact ⟨i, rest, hd, he.bright_writer.resolve_left hne⟩
  | rejected | waited => exact absurd rfl hne

/-- The commands that leave the array: a SHOW, a SETBRIGHT, a READWORD and every error. -/
theorem Effect.array_writer (h : Effect i s t) : t.w = s.w ∨
    (i ≠ .showFrame ∧ (∀ unset value, i ≠ .setbright unset value) ∧ ∀ index, i ≠ .readword index) := by
  cases h with
  | cmdError | configError | indexError | rangeError | brightness | read => exact .inl rfl
  | shown => exact .inl (showSymbols_same s).w
  | accepted => exact .inl (acceptShow_same s).w
  | words _ _ _ hs hb hr => exact .inr ⟨hs, hb, hr⟩
  | constructed _ _ _ _ _ hi =>
    obtain ⟨_, _, _, _, _, rfl⟩ := hi
    exact .inr ⟨nofun, nofun, nofun⟩

/-- Settles O53: a tick leaves the array, so the step ran a command. -/
theorem arrayWriters : Obligations.ArrayWriters := by
  intro s t hr h hne
  cases step_effect h with
  | reset hr' => exact absurd hr' (by simp [hr])
  | ticked => exact absurd (tick_same s).w hne
  | ran _ hb i rest hd he => exact ⟨hb, i, rest, hd, he.array_writer.resolve_left hne⟩
  | rejected | waited => exact absurd rfl hne

end Sys2Proof.Machine
end

section
/-! The invariant (R25): the transmitter's consistency from tick to tick (R139), and the configuration's from command to
command. -/

namespace Sys2Proof.Machine

variable {s t : State}

/-- BUSY, the line and the phase of a transmitter at rest are all that its consistency asks for. -/
theorem TxConsistent.of_idle (hp : s.tx.phase = .idle) (hl : s.line = false) (hb : s.busy = false) : TxConsistent s where
  busy_eq := by rw [hb, hp]; rfl
  line_eq := by rw [hl, hp]; rfl
  cfg_of_busy h := by rw [hb] at h; cases h
  sending h := by rw [hp] at h; rcases h with h | h <;> cases h
  high_cnt h := by rw [hp] at h; cases h
  low_cnt h := by rw [hp] at h; cases h
  latching h := by rw [hp] at h; cases h

/-- A transmitter that is not busy is at rest. -/
theorem TxConsistent.phase_idle (h : TxConsistent s) (hb : s.busy = false) : s.tx.phase = .idle := by
  have hbusy := h.busy_eq
  rw [hb] at hbusy
  cases hp : s.tx.phase with
  | idle => rfl
  | high | low | latch => rw [hp] at hbusy; cases hbusy

/-- A frame goes out of a constructed block only. -/
theorem TxConsistent.cfg_of_phase (h : TxConsistent s) (hp : s.tx.phase ≠ .idle) : s.cfg = true := by
  refine h.cfg_of_busy ?_
  cases hb : s.busy
  · exact absurd (h.phase_idle hb) hp
  · rfl

/-- The failure that is still to be reported has no part in the consistency. -/
theorem TxConsistent.setFail (h : TxConsistent s) (f : Option Nat) : TxConsistent (s.setFail f) :=
  { h with }

/-- The count of a phase may go down as long as a tick is left. -/
theorem TxConsistent.setCnt (h : TxConsistent s) {c : Nat} (hc : 1 ≤ c) (hle : c ≤ s.tx.cnt) : TxConsistent (s.setCnt c) where
  busy_eq := h.busy_eq
  line_eq := h.line_eq
  cfg_of_busy := h.cfg_of_busy
  sending hp :=
    have ⟨hidx, hbit, hsr, _⟩ := h.sending hp
    ⟨hidx, hbit, hsr, hc⟩
  high_cnt hp := hle.trans (h.high_cnt hp)
  low_cnt hp := hle.trans (h.low_cnt hp)
  latching hp :=
    have ⟨hidx, _, hcnt⟩ := h.latching hp
    ⟨hidx, hc, hle.trans hcnt⟩

/-- The transmitter stands at a bit of the frame, with the word of that bit in its shift register. -/
def AtBit (s : State) : Prop := s.tx.idx < s.regs.n ∧ s.tx.bit < s.regs.bpw ∧ s.tx.sr = Memory.read s.w s.tx.idx

theorem TxConsistent.atBit (h : TxConsistent s) (hp : s.tx.phase = .high ∨ s.tx.phase = .low) : AtBit s :=
  have ⟨hidx, hbit, hsr, _⟩ := h.sending hp
  ⟨hidx, hbit, hsr⟩

/-- A bit of the frame that starts. -/
theorem startBit_consistent (hp : Params.InRange s.params) (hc : s.cfg = true) {idx bit : Nat} (hi : idx < s.regs.n)
    (hb : bit < s.regs.bpw) : TxConsistent (startBit idx bit (Memory.read s.w idx) s) where
  busy_eq := rfl
  line_eq := rfl
  cfg_of_busy _ := hc
  sending _ := ⟨hi, hb, rfl, bitHi_pos (timing_positive hp) _⟩
  high_cnt _ := le_rfl
  low_cnt := nofun
  latching := nofun

/-- From the high part of a bit to its low part. -/
theorem endHigh_consistent (hp : Params.InRange s.params) (hc : s.cfg = true) (ha : AtBit s) : TxConsistent (endHigh s) where
  busy_eq := rfl
  line_eq := rfl
  cfg_of_busy _ := hc
  sending _ :=
    have ⟨hidx, hbit, hsr⟩ := ha
    ⟨hidx, hbit, hsr, bitLo_pos (timing_positive hp) _⟩
  high_cnt := nofun
  low_cnt _ := le_rfl
  latching := nofun

/-- The latch that starts. -/
theorem startLatch_consistent (hc : s.cfg = true) (hi : s.tx.idx = s.regs.n) (hd : 0 < s.regs.rdly.toNat) :
    TxConsistent ((s.setPhase .latch).setCnt s.regs.rdly.toNat) where
  busy_eq := rfl
  line_eq := rfl
  cfg_of_busy _ := hc
  sending := nofun
  high_cnt := nofun
  low_cnt := nofun
  latching _ := ⟨hi, hd, le_rfl⟩

theorem endSent_consistent (s : State) : TxConsistent (endSent s) := .of_idle rfl rfl rfl

theorem endFailed_consistent (s : State) : TxConsistent (endFailed s) := .of_idle rfl rfl rfl

/-- After a bit: the next bit of the word, the next word, the latch, or the end of the frame. -/
theorem nextBit_consistent (hp : Params.InRange s.params) (hc : s.cfg = true) (ha : AtBit s) : TxConsistent (nextBit s) := by
  obtain ⟨hidx, hbit, hsr⟩ := ha
  simp only [nextBit]
  split_ifs with hmore hword hlatch
  · rw [hsr]
    exact startBit_consistent hp hc hidx (by omega)
  · exact startBit_consistent hp hc hword (by omega)
  · exact startLatch_consistent (s := s.setPos s.regs.n s.tx.bit s.tx.sr) hc rfl hlatch
  · exact endSent_consistent _

/-- A tick with no report keeps the transmitter consistent: the count goes down, or the phase ends. -/
theorem advance_consistent (hp : Params.InRange s.params) (h : TxConsistent s) : TxConsistent (advance s) := by
  rw [advance_eq]
  split_ifs with hidle
  · exact h
  have hc : s.cfg = true := h.cfg_of_phase hidle
  unfold countDown
  split_ifs with hcnt
  · exact h.setCnt (by omega) (by omega)
  cases hph : s.tx.phase with
  | idle => exact absurd hph hidle
  | high => exact endHigh_consistent (s := s.setCnt 0) hp hc (h.atBit (.inl hph))
  | low => exact nextBit_consistent (s := emitBit (s.setCnt 0)) hp hc (h.atBit (.inr hph))
  | latch => exact endSent_consistent _

/-- A tick keeps the transmitter consistent. -/
theorem tick_consistent (hp : Params.InRange s.params) (h : TxConsistent s) : TxConsistent (tick s) := by
  rcases tick_cases s with ⟨-, e⟩ | ⟨-, -, e⟩ | ⟨-, left, -, -, e⟩ | ⟨-, left, -, -, e⟩ <;> rw [e]
  · exact h
  · exact advance_consistent hp h
  · exact advance_consistent (s := s.setFail (some (left - 1))) hp (h.setFail _)
  · exact endFailed_consistent _

/-- What holds of a constructed block speaks of the configuration, BRIGHT and the array only. -/
theorem Configured.of_same (h : Configured s) (hs : SameBlock s t) : Configured t := by
  obtain ⟨hn, hmax, hmode, hnch, hhasw, hbpw, hprofile, hlanes, hbright, hin, htop⟩ := h
  constructor <;> simp only [hs.regs, hs.bright, hs.w, hs.params] <;> assumption

theorem Configured.setBright (h : Configured s) {b : Byte} (hb : b ≠ 0#8) : Configured (s.setBright b) :=
  { h with bright_pos := hb }

/-- A packed word leaves the top lane of an RGB buffer empty (R25 (d)). -/
theorem Configured.pack_top_lane (h : Configured s) (h3 : s.regs.nch = 3) (c4 : Bool) (col : Colour) :
    (s.pack c4 col).extractLsb' 24 8 = 0#8 := by
  have hhasw : s.regs.hasw = false := by rw [h.hasw_eq, h3]; rfl
  have hlanes := h.lanes
  rw [h.nch_eq] at h3 hlanes
  rw [State.pack, hhasw]
  exact packWith_top_lane h.mode_legal h3 hlanes _ _ _

/-- A command that stores words keeps the array inside [0, N) and its top lane empty (R25 (d), (e), R38). -/
theorem StoresWords.configured {m : Memory} (hm : StoresWords s m) (hw : Memory.wf s.w = true) (h : Configured s) :
    Configured (s.setW m) :=
  { h with
    in_array := fun i hi => (hm.outside hw i hi).trans (h.in_array i hi)
    top_lane := fun h3 i => by
      rcases hm.word hw i with ⟨j, e⟩ | ⟨c4, col, e⟩ <;> rw [State.setW_w, e]
      · exact h.top_lane h3 j
      · exact h.pack_top_lane h3 c4 col }

/-- A CONFIG that succeeds constructs a block of R25: the registers derived from MODE are those of its letters, and the array
is empty. -/
theorem construct_configured {n : Nat} {m : List Chan} {b : Byte} (d : Word) (hp : 1 ≤ n) (hn : n ≤ s.params.nmax)
    (hm : legalMode m = true) (hb : b ≠ 0#8) : Configured (construct n m b d s) where
  n_pos := hp
  n_le := hn
  mode_legal := hm
  nch_eq := rfl
  hasw_eq := rfl
  bpw_eq := rfl
  profile_eq := rfl
  lanes :=
    have hlen : m.length ≤ 4 := by rcases legalMode_cases hm with ⟨h, -⟩ | ⟨h, -⟩ <;> omega
    have hnodup : m.Nodup := by
      simp only [legalMode, Bool.and_eq_true, decide_eq_true_eq] at hm
      exact hm.1
    (shiftsFor_get hnodup hlen _).1
  bright_pos := hb
  in_array _ _ := rfl
  top_lane _ _ := (by decide : (0#32).extractLsb' 24 8 = 0#8)

/-- Where only the transmitter and the observations changed, its consistency is all there is to show. -/
theorem StateInv.of_same (h : StateInv s) (hs : SameBlock s t) (htx : TxConsistent t) : StateInv t where
  mem_wf := hs.w ▸ h.mem_wf
  params := hs.params ▸ h.params
  tx := htx
  configured hc := (h.configured (hs.cfg ▸ hc)).of_same hs

/-- The words on the port have no part in the invariant. -/
theorem StateInv.setPort (h : StateInv s) (ws : List Word) : StateInv (s.setPort ws) :=
  ⟨h.mem_wf, h.params, { h.tx with }, fun hc => { h.configured hc with }⟩

/-- The answers of the collaborator have no part in the invariant. -/
theorem StateInv.popIo (h : StateInv s) : StateInv s.popIo :=
  ⟨h.mem_wf, h.params, { h.tx with }, fun hc => { h.configured hc with }⟩

/-- The responses have no part in the invariant. -/
theorem StateInv.respond (h : StateInv s) (e : Status) (v : Word) : StateInv (s.respond e v) :=
  h.of_same (respond_same s e v) { h.tx with }

/-- A frame that SHOW sent in one step leaves the transmitter at rest (R130, R136). -/
theorem showSymbols_consistent (s : State) : TxConsistent (showSymbols s) := by
  unfold showSymbols
  split <;> exact .of_idle rfl rfl rfl

/-- The acceptance of SHOW starts the first bit of the first word, or fails at once (R139). -/
theorem acceptShow_consistent (hp : Params.InRange s.params) (hc : s.cfg = true) (h : Configured s) :
    TxConsistent (acceptShow s) := by
  rcases acceptShow_cases s with ⟨_, _, -, -, e⟩ | ⟨-, e⟩ <;> rw [e]
  · exact endFailed_consistent _
  · have hbpw : 0 < s.regs.bpw := by rw [h.bpw_eq]; split_ifs <;> decide
    exact startBit_consistent (s := s.popIo.setFail _) hp hc h.n_pos (Nat.sub_lt hbpw Nat.one_pos)

/-- A command of a block at rest keeps the invariant. -/
theorem Effect.keeps_inv {i : Instr} (he : Effect i s t) (hi : StateInv s) (hb : s.busy = false) : StateInv t := by
  have hphase : s.tx.phase = .idle := hi.tx.phase_idle hb
  have hline : s.line = false := by rw [hi.tx.line_eq, hphase]; rfl
  cases he with
  | cmdError | configError | indexError | rangeError | read => exact hi.respond _ _
  | shown => exact hi.popIo.of_same (showSymbols_same s) (showSymbols_consistent s)
  | accepted _ hc =>
    exact hi.popIo.of_same (acceptShow_same s) (acceptShow_consistent hi.params hc (hi.configured hc))
  | brightness b _ hc hor =>
    have hne : b ≠ 0#8 := by
      rcases hor with rfl | hne
      · exact (hi.configured hc).bright_pos
      · exact hne
    have hset : StateInv (s.setBright b) :=
      ⟨hi.mem_wf, hi.params, .of_idle hphase hline hb, fun _ => (hi.configured hc).setBright hne⟩
    exact hset.respond _ _
  | words m hc _ _ _ _ hm =>
    have hset : StateInv (s.setW m) :=
      ⟨hm.wf hi.mem_wf, hi.params, .of_idle hphase hline hb, fun _ => hm.configured hi.mem_wf (hi.configured hc)⟩
    exact hset.respond _ _
  | constructed n m b d _ _ hpos hmax hm hne =>
    have hnew : StateInv (construct n.toNat m b d s) :=
      ⟨Memory.wf_zeros, hi.params, .of_idle rfl rfl rfl, fun _ => construct_configured d (by omega) (by omega) hm hne⟩
    exact hnew.respond _ _

/-- A hardware reset gives a block of the invariant: no array, no configuration, the transmitter at rest (R24, R190). -/
theorem hardwareReset_inv (hp : Params.InRange s.params) : StateInv (hardwareReset s) :=
  ⟨Memory.wf_zeros, hp, .of_idle rfl rfl rfl, nofun⟩

/-- Settles O49: the transmitter's consistency is kept by every tick, the rest by every command. -/
theorem stepKeepsInv : Obligations.StepKeepsInv := by
  intro s t hi h
  cases step_effect h with
  | reset => exact hardwareReset_inv hi.params
  | ticked => exact hi.of_same (tick_same s) (tick_consistent hi.params hi.tx)
  | ran _ hb i rest _ he => exact he.keeps_inv (hi.setPort rest) hb
  | rejected _ _ rest => exact (hi.setPort rest).respond _ _
  | waited => exact hi

/-- Settles O48: at reset nothing is constructed and the transmitter is at rest. -/
theorem resetMeetsInv : Obligations.ResetMeetsInv :=
  ⟨Memory.wf_zeros, ⟨by decide, by decide, ⟨by decide, by decide, by decide⟩⟩, .of_idle rfl rfl rfl, nofun⟩

end Sys2Proof.Machine
end

section
/-! The traces grow together: symbols in ST, their segments in LT (R22, R133). -/

namespace Sys2Proof.Machine

variable {s t u : State} {i : Instr}

/-- Symbols were appended to ST and their segments, in a timing that did not change, to LT. -/
structure GrowsTraces (s t : State) : Prop where
  timing : t.timing = s.timing
  grows : ∃ syms, t.st = s.st ++ syms ∧ t.lt = s.lt ++ segsOf s.timing syms

theorem GrowsTraces.of_kept (ht : t.timing = s.timing) (hst : t.st = s.st) (hlt : t.lt = s.lt) : GrowsTraces s t :=
  ⟨ht, [], by simp [hst], by simp [hlt, segsOf]⟩

theorem GrowsTraces.trans (h : GrowsTraces s t) (k : GrowsTraces t u) : GrowsTraces s u := by
  obtain ⟨ht, syms, hst, hlt⟩ := h
  obtain ⟨kt, syms', kst, klt⟩ := k
  refine ⟨kt.trans ht, syms ++ syms', ?_, ?_⟩
  · rw [kst, hst, List.append_assoc]
  · rw [klt, hlt, ht, List.append_assoc, segsOf, segsOf, segsOf, List.flatMap_append]

theorem emit_grows (s : State) (syms : List Symbol) : GrowsTraces s (s.emit syms) := ⟨rfl, syms, rfl, rfl⟩

theorem endSent_grows (s : State) : GrowsTraces s (endSent s) :=
  (emit_grows s _).trans (.of_kept rfl rfl rfl)

/-- Between two bits nothing is emitted; at the end of a frame with no latch to wait for, its latch symbol is. -/
theorem nextBit_grows (s : State) : GrowsTraces s (nextBit s) := by
  simp only [nextBit]
  split_ifs
  · exact .of_kept rfl rfl rfl
  · exact .of_kept rfl rfl rfl
  · exact .of_kept rfl rfl rfl
  · exact GrowsTraces.trans (t := s.setPos s.regs.n s.tx.bit s.tx.sr) (.of_kept rfl rfl rfl) (endSent_grows _)

theorem phaseEnd_grows (p : TxPhase) (s : State) : GrowsTraces s (phaseEnd p s) := by
  cases p with
  | idle | high => exact .of_kept rfl rfl rfl
  | low => exact (emit_grows s _).trans (nextBit_grows _)
  | latch => exact endSent_grows s

theorem advance_grows (s : State) : GrowsTraces s (advance s) := by
  rw [advance_eq, countDown]
  split_ifs
  · exact .of_kept rfl rfl rfl
  · exact .of_kept rfl rfl rfl
  · exact GrowsTraces.trans (t := s.setCnt 0) (.of_kept rfl rfl rfl) (phaseEnd_grows _ _)

theorem reportFailure_grows (s : State) : GrowsTraces s (reportFailure s) := by
  unfold reportFailure
  split_ifs
  · exact (emit_grows s _).trans (.of_kept rfl rfl rfl)
  · exact .of_kept rfl rfl rfl

theorem tick_grows (s : State) : GrowsTraces s (tick s) := by
  rcases tick_cases s with ⟨-, e⟩ | ⟨-, -, e⟩ | ⟨-, left, -, -, e⟩ | ⟨-, left, -, -, e⟩ <;> rw [e]
  · exact .of_kept rfl rfl rfl
  · exact advance_grows s
  · exact GrowsTraces.trans (t := s.setFail (some (left - 1))) (.of_kept rfl rfl rfl) (advance_grows _)
  · exact reportFailure_grows s

theorem showSymbols_grows (s : State) : GrowsTraces s (showSymbols s) := by
  unfold showSymbols
  split
  · exact ((emit_grows s s.frame).trans (emit_grows _ [.latch s.regs.rdly.toNat])).trans (.of_kept rfl rfl rfl)
  · exact (emit_grows s _).trans (.of_kept rfl rfl rfl)

theorem acceptShow_grows (s : State) : GrowsTraces s (acceptShow s) := by
  rcases acceptShow_cases s with ⟨_, _, -, -, e⟩ | ⟨-, e⟩ <;> rw [e] <;> exact .of_kept rfl rfl rfl

/-- What a command does to the traces: nothing, growth at a SHOW, or both emptied at a CONFIG. -/
theorem Effect.traces (h : Effect i s t) :
    (t.st = s.st ∧ t.lt = s.lt) ∨ (GrowsTraces s t ∧ i = .showFrame) ∨ (t.st = [] ∧ t.lt = [] ∧ IsConfig i) := by
  cases h with
  | cmdError | configError | indexError | rangeError | brightness | words | read => exact .inl ⟨rfl, rfl⟩
  | shown hi => exact .inr (.inl ⟨showSymbols_grows s, hi⟩)
  | accepted hi => exact .inr (.inl ⟨acceptShow_grows s, hi⟩)
  | constructed _ _ _ _ _ hi => exact .inr (.inr ⟨rfl, rfl, hi⟩)

/-- Settles O54: ticks and SHOW let the traces grow, and only CONFIG empties them. -/
theorem tracesGrowOnlyInShow : Obligations.TracesGrowOnlyInShow := by
  intro s t hr h
  cases step_effect h with
  | reset hr' => exact absurd hr' (by simp [hr])
  | ticked _ hb =>
    obtain ⟨syms, hst, hlt⟩ := (tick_grows s).grows
    exact .inr (.inl ⟨syms, hst, hlt, .inl hb⟩)
  | ran _ _ i rest hd he =>
    rcases he.traces with hkept | ⟨hg, rfl⟩ | ⟨hst, hlt, hi⟩
    · exact .inl hkept
    · obtain ⟨syms, hst, hlt⟩ := hg.grows
      exact .inr (.inl ⟨syms, hst, hlt, .inr ⟨rest, hd⟩⟩)
    · exact .inr (.inr ⟨hst, hlt, i, rest, hd, hi⟩)
  | rejected | waited => exact .inl ⟨rfl, rfl⟩

end Sys2Proof.Machine
end

section
/-! What commands do not read: BRIGHT by ROTATE, READWORD and SHOW (R15), the traces and the responses by any (R21, R22). -/

namespace Sys2Proof.Machine

variable {i : Instr}

/-- A command's meaning commutes with a change of BRIGHT: it does not read it and leaves it. -/
def BrightBlind (f : State → State) : Prop := ∀ s b, f (s.setBright b) = (f s).setBright b

theorem BrightBlind.whenConstructed {k : State → State} (hk : BrightBlind k) : BrightBlind (State.whenConstructed k) := by
  intro s b
  cases hc : s.cfg
  · rw [whenConstructed_false hc, whenConstructed_false (s := s.setBright b) hc]; rfl
  · rw [whenConstructed_true hc, whenConstructed_true (s := s.setBright b) hc]; exact hk s b

theorem showSymbols_brightBlind : BrightBlind showSymbols := by
  intro s b
  cases h : s.ioAnswer with
  | sent => rw [showSymbols_sent h, showSymbols_sent (s := s.setBright b) h]; rfl
  | fail m late => rw [showSymbols_fail h, showSymbols_fail (s := s.setBright b) h]; rfl

theorem acceptShow_brightBlind : BrightBlind acceptShow := by
  intro s b
  have hr : (s.setBright b).reportTick (s.setBright b).ioAnswer = s.reportTick s.ioAnswer := rfl
  simp only [acceptShow, hr]
  split <;> rfl

/-- ROTATE, READWORD and SHOW are such commands. -/
theorem exec_brightBlind (h : i = .showFrame ∨ (∃ unset right offset, i = .rotate unset right offset) ∨
    ∃ index, i = .readword index) : ∃ f, (∀ s, exec i s = .next (f s)) ∧ BrightBlind f := by
  rcases h with rfl | ⟨_, _, _, rfl⟩ | ⟨index, rfl⟩
  · refine ⟨_, fun _ => rfl, .whenConstructed fun s b => ?_⟩
    rw [State.setBright_grain]
    cases s.grain
    · exact showSymbols_brightBlind s b
    · exact acceptShow_brightBlind s b
  · exact ⟨_, fun _ => rfl, .whenConstructed fun _ _ => rfl⟩
  · refine ⟨_, fun _ => rfl, .whenConstructed fun s b => ?_⟩
    have hr : (s.setBright b).inRange index = s.inRange index := rfl
    rw [hr]
    split_ifs <;> rfl

/-- Settles O52: the meaning of each of the three commutes with a change of BRIGHT. -/
theorem brightNotReadBy : Obligations.BrightNotReadBy := by
  intro i s t b hi h
  obtain ⟨f, hf, hblind⟩ := exec_brightBlind hi
  obtain rfl : f s = t := by simpa [hf] using h
  exact (hf _).trans (congrArg _ (hblind s b))

/-- The traces and the responses replaced. -/
def State.setObs (st : List Symbol) (lt : List LevelSeg) (out : List Response) (s : State) : State :=
  { s with st := st, lt := lt, out := out }

/-- Two states that differ in the observations only: the second is the first with its own observations. -/
theorem eq_setObs_of_eraseObs {s s' : State} (h : s.eraseObs = s'.eraseObs) : s' = s.setObs s'.st s'.lt s'.out := by
  change s'.eraseObs.setObs s'.st s'.lt s'.out = s.eraseObs.setObs s'.st s'.lt s'.out
  rw [h]

/-- A command's meaning does not read the observations: from other ones it makes the same state but for them, and the same
responses. -/
def ObsBlind (f : State → State) : Prop := ∀ s st lt out, ∃ st' lt' rs,
  (f s).out = s.out ++ rs ∧ f (s.setObs st lt out) = (f s).setObs st' lt' (out ++ rs)

/-- What a command computes from the state without the observations may decide what it does. -/
theorem ObsBlind.of_read {α : Type} (v : State → α) {k : α → State → State} (hk : ∀ a, ObsBlind (k a))
    (hv : ∀ s st lt out, v (s.setObs st lt out) = v s) : ObsBlind fun s => k (v s) s := by
  intro s st lt out
  simp only [hv]
  exact hk (v s) s st lt out

theorem ObsBlind.ite {c : State → Prop} [DecidablePred c] {f g : State → State} (hf : ObsBlind f) (hg : ObsBlind g)
    (hc : ∀ s st lt out, c (s.setObs st lt out) = c s) : ObsBlind fun s => if c s then f s else g s := by
  intro s st lt out
  by_cases h : c s
  · simpa only [hc, if_pos h] using hf s st lt out
  · simpa only [hc, if_neg h] using hg s st lt out

theorem ObsBlind.respond (e : Status) (v : Word) : ObsBlind (State.respond e v) :=
  fun _ st lt _ => ⟨st, lt, [⟨e, v⟩], rfl, rfl⟩

theorem ObsBlind.whenConstructed {k : State → State} (hk : ObsBlind k) : ObsBlind (State.whenConstructed k) :=
  .ite (c := fun s => s.cfg = true) hk (.respond .cmdError 0#32) fun _ _ _ _ => rfl

/-- A command that stores what it computes without the observations. -/
theorem ObsBlind.store (m : State → Memory) (hm : ∀ s st lt out, m (s.setObs st lt out) = m s) :
    ObsBlind fun s => (s.setW (m s)).respond .ok 0#32 :=
  .of_read m (k := fun m s => (s.setW m).respond .ok 0#32) (fun _ _ st lt _ => ⟨st, lt, [⟨.ok, 0#32⟩], rfl, rfl⟩) hm

theorem construct_obsBlind (n : Nat) (m : List Chan) (b : Byte) (d : Word) :
    ObsBlind fun s => (construct n m b d s).respond .ok 0#32 :=
  fun _ _ _ _ => ⟨[], [], [⟨.ok, 0#32⟩], rfl, rfl⟩

theorem showSymbols_obsBlind : ObsBlind showSymbols := by
  intro s st lt out
  cases h : s.ioAnswer with
  | sent =>
    rw [showSymbols_sent h, showSymbols_sent (s := s.setObs st lt out) h]
    exact ⟨_, _, _, rfl, rfl⟩
  | fail m late =>
    rw [showSymbols_fail h, showSymbols_fail (s := s.setObs st lt out) h]
    exact ⟨_, _, _, rfl, rfl⟩

theorem acceptShow_obsBlind : ObsBlind acceptShow := by
  intro s st lt out
  have hr : (s.setObs st lt out).reportTick (s.setObs st lt out).ioAnswer = s.reportTick s.ioAnswer := rfl
  simp only [acceptShow, hr]
  split
  · exact ⟨st, lt, [⟨.ioError, 0#32⟩], rfl, rfl⟩
  · exact ⟨st, lt, [], (List.append_nil _).symm, by rw [List.append_nil]; rfl⟩

/-- No command reads the observations. -/
theorem exec_obsBlind (i : Instr) : ∃ f, (∀ s, exec i s = .next (f s)) ∧ ObsBlind f := by
  cases i with
  | config unset n mode b d =>
    refine ⟨_, fun _ => rfl, .ite (.respond _ _) (.ite (.respond _ _) (.ite (.respond _ _) ?_ ?_) ?_) ?_⟩
    · cases validMode mode
      · exact .respond _ _
      · exact construct_obsBlind _ _ _ _
    all_goals exact fun _ _ _ _ => rfl
  | setbright unset value =>
    refine ⟨_, fun _ => rfl, .whenConstructed ?_⟩
    cases unset
    · exact fun _ st lt _ => ⟨st, lt, [⟨.ok, _⟩], rfl, rfl⟩
    · exact .of_read State.bright (k := fun b => State.respond .ok (b.setWidth 32)) (fun _ => .respond _ _) fun _ _ _ _ => rfl
  | setpixel c4 index colour =>
    exact ⟨_, fun _ => rfl, .whenConstructed (.ite (.store _ fun _ _ _ _ => rfl) (.respond _ _) fun _ _ _ _ => rfl)⟩
  | setrange c4 first last colour =>
    exact ⟨_, fun _ => rfl, .whenConstructed (.ite (.store _ fun _ _ _ _ => rfl) (.respond _ _) fun _ _ _ _ => rfl)⟩
  | fill c4 colour => exact ⟨_, fun _ => rfl, .whenConstructed (.store _ fun _ _ _ _ => rfl)⟩
  | rotate unset right offset => exact ⟨_, fun _ => rfl, .whenConstructed (.store _ fun _ _ _ _ => rfl)⟩
  | lgrad c4 startIndex endIndex colourA colourB =>
    refine ⟨_, fun _ => rfl, .whenConstructed (.ite ?_ (.respond _ _) fun _ _ _ _ => rfl)⟩
    split_ifs
    · exact .respond _ _
    · exact .store _ fun _ _ _ _ => rfl
  | sgrad c4 rev rainbow startIndex endIndex colours =>
    refine ⟨_, fun _ => rfl, .whenConstructed (.of_read
      (fun s => sgradPlan s.params s.regs.n colours.length startIndex endIndex rev (rainbowEff rainbow colours.length))
      (k := fun plan s => match plan with
        | none => s.raise .invalidRangeError
        | some segs => (s.setW (segs.foldl (s.paintSeg c4 colours) s.w)).answer 0#32) (fun plan => ?_) fun _ _ _ _ => rfl)⟩
    cases plan
    · exact .respond _ _
    · exact .store _ fun _ _ _ _ => rfl
  | showFrame =>
    refine ⟨_, fun _ => rfl, .whenConstructed (.of_read State.grain (k := fun g s => match g with
      | .symbol => showSymbols s | .tick => acceptShow s) (fun g => ?_) fun _ _ _ _ => rfl)⟩
    cases g
    · exact showSymbols_obsBlind
    · exact acceptShow_obsBlind
  | readword index =>
    refine ⟨_, fun _ => rfl, .whenConstructed (.ite ?_ (.respond _ _) fun _ _ _ _ => rfl)⟩
    exact .of_read (fun s => Memory.read s.w index.toNat) (k := State.respond .ok) (fun _ => .respond _ _) fun _ _ _ _ => rfl

/-- Settles O55: the second state is the first with its own observations, which the command's meaning does not read. -/
theorem observationNotRead : Obligations.ObservationNotRead := by
  intro i s s' t he h
  obtain ⟨f, hf, hblind⟩ := exec_obsBlind i
  obtain rfl : f s = t := by simpa [hf] using h
  obtain ⟨st, lt, rs, hout, hobs⟩ := hblind s s'.st s'.lt s'.out
  rw [← eq_setObs_of_eraseObs he] at hobs
  exact ⟨f s', rs, hf s', by rw [hobs]; rfl, hout, by rw [hobs]; rfl⟩

end Sys2Proof.Machine
end

section
/-! The lane rule of every legal mode (R32). -/

namespace Sys2Proof.Machine

/-- No letter stands twice in a legal mode (R13). -/
theorem nodup_of_legalMode {m : List Chan} (h : legalMode m = true) : m.Nodup :=
  ((legalMode_iff m).1 h).elim (fun hp => hp.nodup_iff.2 (by decide)) fun hp => hp.nodup_iff.2 (by decide)

/-- A legal mode has at most four letters (R13). -/
theorem length_le_of_legalMode {m : List Chan} (h : legalMode m = true) : m.length ≤ 4 :=
  ((legalMode_iff m).1 h).elim (fun hp => hp.length_eq.trans_le (by decide)) fun hp => hp.length_eq.le

/-- On the four positions of an RGBW mode, XOR with 3 counts from the other end (R32). -/
theorem xor_three_eq_sub {p : Nat} (h : p < 4) : p ^^^ 3 = 3 - p := by
  interval_cases p <;> rfl

/-- Settles O17: the table of a legal mode follows the lane rule (`shiftsFor_get`), and for four letters the position from
the end is the XOR. -/
theorem laneRule : Obligations.LaneRule := by
  intro m old p c hm hp
  have hlane : ((shiftsFor m old).get c).toNat = 8 * (m.length - 1 - p) :=
    (shiftsFor_get (nodup_of_legalMode hm) (length_le_of_legalMode hm) old).1 p c hp
  refine ⟨hlane, fun h4 => ?_⟩
  obtain ⟨hlt, -⟩ := List.getElem?_eq_some_iff.1 hp
  rw [hlane, h4, xor_three_eq_sub (h4 ▸ hlt), Nat.mul_comm]

end Sys2Proof.Machine
end

section
/-! The decoder and the encoder, both ways (R50 to R58): what the header selects, and the command of its operand words. -/

namespace Sys2Proof

open Machine

variable {h : Word} {op : Opcode} {ws rest : List Word} {i : Instr}

/-- Behind a header that selects a row stand the operand words of that row (R52). -/
theorem decode_cons_of_some (ho : headerOpcode h = some op) (ws : List Word) :
    decode (h :: ws) = decodeOperands op h ws := by
  simp only [decode, ho]

/-- A header that selects no row is rejected, and is taken to have no operand words (R57). -/
theorem decode_cons_of_none (ho : headerOpcode h = none) (ws : List Word) :
    decode (h :: ws) = .illFormed (illFormedReason h) ws := by
  simp only [decode, ho]

/-- A command is read from a header that selects a row, and the operand words of that row. -/
theorem decode_done (hd : decode ws = .done i rest) :
    ∃ h ops op, ws = h :: ops ∧ headerOpcode h = some op ∧ decodeOperands op h ops = .done i rest := by
  cases ws with
  | nil => cases hd
  | cons h ops =>
    cases ho : headerOpcode h with
    | none => rw [decode_cons_of_none ho] at hd; cases hd
    | some op => exact ⟨h, ops, op, rfl, ho, decode_cons_of_some ho ops ▸ hd⟩

/-- SGRAD reads as many colours as its header counts (R51, R52). -/
theorem decodeOperands_sgrad {colours : List Colour} (hcnt : hdrCnt h = colours.length) (f l : Word) (rest : List Word) :
    decodeOperands .sgrad h (f :: l :: (colours.map encodeColour ++ rest)) =
      .done (.sgrad (hdrC4 h) (hdrRev h) (hdrRbw h) f.toInt l.toInt colours) rest := by
  have hlen : hdrCnt h = (colours.map encodeColour).length := by rw [List.length_map, hcnt]
  have hmap : (colours.map encodeColour).map decodeColour = colours :=
    Function.LeftInverse.list_map decodeColour_encodeColour colours
  simp only [decodeOperands, hlen, List.take_left, List.drop_left, hmap]
  rw [if_neg (by simp)]

/-- Settles O1: the header selects the command's row (`headerOpcode_config` and its like), its flags are read back
(`hdrC4_encodeHeader` and its like), and so are the operand words (`toInt_encodeInt`, `decodeColour_encodeColour`). -/
theorem decodeOfEncode : Obligations.DecodeOfEncode := by
  intro i rest hwf
  cases i with
  | config unset numLeds mode brightness resetDelay =>
    simp only [WellFormed, Bool.and_eq_true, decide_eq_true_eq] at hwf
    obtain ⟨hn, hb⟩ := hwf
    refine (decode_cons_of_some (headerOpcode_config unset) _).trans ?_
    simp [decodeOperands, toInt_encodeInt hn, toInt_encodeInt hb]
  | setbright unset value =>
    refine (decode_cons_of_some (headerOpcode_setbright unset) _).trans ?_
    simp [decodeOperands, toInt_encodeInt (of_decide_eq_true hwf)]
  | setpixel c4 index colour =>
    refine (decode_cons_of_some (headerOpcode_setpixel c4) _).trans ?_
    simp [decodeOperands, toInt_encodeInt (of_decide_eq_true hwf), decodeColour_encodeColour]
  | setrange c4 first last colour =>
    simp only [WellFormed, Bool.and_eq_true, decide_eq_true_eq] at hwf
    obtain ⟨hf, hl⟩ := hwf
    refine (decode_cons_of_some (headerOpcode_setrange c4) _).trans ?_
    simp [decodeOperands, toInt_encodeInt hf, toInt_encodeInt hl, decodeColour_encodeColour]
  | fill c4 colour =>
    refine (decode_cons_of_some (headerOpcode_fill c4) _).trans ?_
    simp [decodeOperands, decodeColour_encodeColour]
  | rotate unset right offset =>
    refine (decode_cons_of_some (headerOpcode_rotate unset right) _).trans ?_
    simp [decodeOperands, toInt_encodeInt (of_decide_eq_true hwf)]
  | lgrad c4 startIndex endIndex colourA colourB =>
    simp only [WellFormed, Bool.and_eq_true, decide_eq_true_eq] at hwf
    obtain ⟨hf, hl⟩ := hwf
    refine (decode_cons_of_some (headerOpcode_lgrad c4) _).trans ?_
    simp [decodeOperands, toInt_encodeInt hf, toInt_encodeInt hl, decodeColour_encodeColour]
  | sgrad c4 rev rainbow startIndex endIndex colours =>
    simp only [WellFormed, Bool.and_eq_true, decide_eq_true_eq] at hwf
    obtain ⟨⟨⟨hf, hl⟩, h1⟩, h2⟩ := hwf
    refine (decode_cons_of_some (headerOpcode_sgrad c4 rev rainbow h1 h2) _).trans ?_
    refine (decodeOperands_sgrad (hdrCnt_encodeHeader _ _ _ _ _ _ _ (by omega)) _ _ rest).trans ?_
    simp [toInt_encodeInt hf, toInt_encodeInt hl]
  | showFrame => exact decode_cons_of_some headerOpcode_showFrame rest
  | readword index =>
    refine (decode_cons_of_some headerOpcode_readword _).trans ?_
    simp [decodeOperands, toInt_encodeInt (of_decide_eq_true hwf)]

/-- The command that is read from operand words is well formed, and those words are its own, behind its own header
(`header_config` and its like). -/
theorem encode_of_decodeOperands (ho : headerOpcode h = some op) :
    decodeOperands op h ws = .done i rest → WellFormed i = true ∧ h :: ws = encode i ++ rest := by
  fun_cases decodeOperands op h ws with
  | case1 n m b d =>
    rintro ⟨⟩
    exact ⟨by simp [WellFormed, inSext32_toInt], by simp [encode, encodeInt_toInt, header_config ho]⟩
  | case2 v =>
    rintro ⟨⟩
    exact ⟨by simp [WellFormed, inSext32_toInt], by simp [encode, encodeInt_toInt, header_setbright ho]⟩
  | case3 index c =>
    rintro ⟨⟩
    exact ⟨by simp [WellFormed, inSext32_toInt],
      by simp [encode, encodeInt_toInt, encodeColour_decodeColour, header_setpixel ho]⟩
  | case4 f l c =>
    rintro ⟨⟩
    exact ⟨by simp [WellFormed, inSext32_toInt],
      by simp [encode, encodeInt_toInt, encodeColour_decodeColour, header_setrange ho]⟩
  | case5 c =>
    rintro ⟨⟩
    exact ⟨rfl, by simp [encode, encodeColour_decodeColour, header_fill ho]⟩
  | case6 k =>
    rintro ⟨⟩
    exact ⟨by simp [WellFormed, inSext32_toInt], by simp [encode, encodeInt_toInt, header_rotate ho]⟩
  | case7 f l a b =>
    rintro ⟨⟩
    exact ⟨by simp [WellFormed, inSext32_toInt],
      by simp [encode, encodeInt_toInt, encodeColour_decodeColour, header_lgrad ho]⟩
  | case9 f l ws hlen =>
    rintro ⟨⟩
    obtain ⟨hh, hpos⟩ := header_sgrad ho
    have hcnt : min (hdrCnt h) ws.length = hdrCnt h := min_eq_left (Nat.not_lt.1 hlen)
    have hmap : ((ws.take (hdrCnt h)).map decodeColour).map encodeColour = ws.take (hdrCnt h) :=
      Function.LeftInverse.list_map encodeColour_decodeColour _
    constructor
    · simp [WellFormed, inSext32_toInt, hcnt, hpos, Nat.le_of_lt_succ (hdrCnt_lt h)]
    · simp only [encode, encodeInt_toInt, List.length_map, List.length_take, hcnt, hmap, hh, List.cons_append,
        List.take_append_drop]
  | case10 ws =>
    rintro ⟨⟩
    exact ⟨rfl, by simp [encode, header_showFrame ho]⟩
  | case11 index =>
    rintro ⟨⟩
    exact ⟨by simp [WellFormed, inSext32_toInt], by simp [encode, encodeInt_toInt, header_readword ho]⟩
  -- operand words are missing
  | case8 | case12 => nofun

/-- Settles O2: what the operand words of a header say, and that header, are the command's own. -/
theorem encodeOfDecode : Obligations.EncodeOfDecode := by
  intro ws i rest hd
  obtain ⟨h, ops, op, rfl, ho, hop⟩ := decode_done hd
  exact encode_of_decodeOperands ho hop

/-- The number of words of a command, by its header (R58). -/
def commandLength (h : Word) : Nat := (headerOpcode h).elim 0 fun op => 1 + operandCount op h

theorem commandLength_of_some (ho : headerOpcode h = some op) : commandLength h = 1 + operandCount op h := by
  rw [commandLength, ho, Option.elim_some]

/-- The header of every well-formed command asks for the words of its encoding (R58). -/
theorem encodeLength_statement (i : Instr) : Laws.EncodeLength.Statement i := by
  cases i with
  | config => exact Laws.EncodeLength.config _ _ _ _ _
  | setbright => exact Laws.EncodeLength.setbright _ _
  | setpixel => exact Laws.EncodeLength.setpixel _ _ _
  | setrange => exact Laws.EncodeLength.setrange _ _ _ _
  | fill => exact Laws.EncodeLength.fill _ _
  | rotate => exact Laws.EncodeLength.rotate _ _ _
  | lgrad => exact Laws.EncodeLength.lgrad _ _ _ _ _
  | sgrad => exact Laws.EncodeLength.sgrad _ _ _ _ _ _
  | showFrame => exact Laws.EncodeLength.showFrame
  | readword => exact Laws.EncodeLength.readword _

/-- The encoding of a well-formed command has the length that its header, its first word, gives. -/
theorem length_encode_of_head (hwf : WellFormed i = true) (he : h :: ws = encode i ++ rest) :
    commandLength h = (encode i).length := by
  obtain ⟨h', ops, op, henc, ho, hlen⟩ := encodeLength_statement i hwf
  obtain ⟨rfl, -⟩ : h = h' ∧ ws = ops ++ rest := by simpa [henc] using he
  rw [commandLength_of_some ho, henc, List.length_cons, hlen, Nat.add_comm]

/-- Settles O3: the words consumed are the command's encoding (`encodeOfDecode`), and its header gives their number. -/
theorem commandLengthFromHeader : Obligations.CommandLengthFromHeader := by
  refine ⟨commandLength, fun h ops i rest hd => ?_⟩
  obtain ⟨hwf, he⟩ := encodeOfDecode _ _ _ hd
  have hlen := length_encode_of_head hwf he
  refine ⟨by rw [he, List.length_append, hlen], hlen.trans ?_⟩
  cases i with
  | sgrad => simp only [encode, List.length_cons, List.length_map]; omega
  | _ => rfl

/-! Ill-formed headers (R57). -/

/-- The step of a block that is free to take a command and has an ill-formed header. -/
theorem step_illFormed {s : State} (hr : s.rst = false) (hb : s.busy = false) {why : IllFormed}
    (hd : decode s.port = .illFormed why rest) : step s = .next (rejectHeader rest s) := by
  simp [step, hr, hb, fetch, hd]

/-- The operand words of a good header are not rejected. -/
theorem decodeOperands_ne_illFormed (op : Opcode) (h : Word) (ws : List Word) (why : IllFormed) :
    decodeOperands op h ws ≠ .illFormed why rest := by
  fun_cases decodeOperands op h ws <;> nofun

/-- The decoder rejects a header exactly when it selects no row. -/
theorem decode_illFormed_iff : (∃ why, decode (h :: rest) = .illFormed why rest) ↔ headerOpcode h = none := by
  cases ho : headerOpcode h with
  | none => exact iff_of_true ⟨_, decode_cons_of_none ho rest⟩ rfl
  | some op =>
    rw [decode_cons_of_some ho]
    exact iff_of_false (fun ⟨why, e⟩ => decodeOperands_ne_illFormed op h rest why e) nofun

/-- The opcodes of R52 are 1 to 10. -/
theorem opcode_cases (b : Byte) : (b = 0 ∨ 0x0B ≤ b.toNat) ∨
    b = 1 ∨ b = 2 ∨ b = 3 ∨ b = 4 ∨ b = 5 ∨ b = 6 ∨ b = 7 ∨ b = 8 ∨ b = 9 ∨ b = 10 := by
  bv_omega

/-- A header selects no row of R52 exactly when it is ill-formed in the words of R57: no row has an opcode outside 1 to 10,
and for each of these the row of that opcode asks of the other fields what R57 does. -/
theorem headerOpcode_eq_none_iff (h : Word) : headerOpcode h = none ↔ HeaderIllFormed h := by
  rcases opcode_cases (hdrOp h) with e | e | e | e | e | e | e | e | e | e | e
  · refine iff_of_true ?_ (.inl e)
    have hop : ∀ k : Byte, 0 < k.toNat → k.toNat < 0x0B → hdrOp h ≠ k := by
      rintro k hk hk' rfl
      rcases e with e | e
      · simp [e] at hk
      · omega
    simp [headerOpcode_eq, hop]
  all_goals
    simp [headerOpcode_eq, HeaderIllFormed, FlagsUsed, e, imp_iff_not_or, or_assoc, or_comm, or_left_comm]

/-- Settles O4: the rejected headers are those that select no row, and the step on one is `rejectHeader`. -/
theorem illFormedHeaderIsCmdError : Obligations.IllFormedHeaderIsCmdError := by
  intro h rest
  refine ⟨decode_illFormed_iff.trans (headerOpcode_eq_none_iff h), ?_⟩
  rintro s ⟨hr, hb⟩ hport hill
  have hd := decode_cons_of_none ((headerOpcode_eq_none_iff h).2 hill) rest
  exact step_illFormed hr hb (hport ▸ hd)

end Sys2Proof
end

section
/-! A command that the block takes: its step (R50), its response (R56), and the operands it ignores (R53, R55). -/

namespace Sys2Proof.Machine

variable {s t : State} {i : Instr}

/-- Settles O6: a free block looks at its port, and takes the words of the command that stands there. -/
theorem stepRunsDecodedCommand : Obligations.StepRunsDecodedCommand :=
  fun _ _ _ ⟨hr, hb⟩ hd => step_done hr hb hd

/-- The return value of a command that ended with OK (R56). -/
def OkRet (s t : State) (ret : Word) : Instr → Prop
  | .setbright _ _ => ret = t.bright.setWidth 32
  | .readword index => ret = Memory.read s.w index.toNat
  | _ => ret = 0#32

/-- Every command but the SETBRIGHTs and the READWORDs returns 0. -/
theorem okRet_zero (hb : ∀ unset value, i ≠ .setbright unset value) (hr : ∀ index, i ≠ .readword index) :
    OkRet s t 0#32 i := by
  cases i with
  | setbright unset value => exact absurd rfl (hb unset value)
  | readword index => exact absurd rfl (hr index)
  | _ => rfl

/-- From `s` to `t` one response was given, with the return value of R56. -/
def Responds (i : Instr) (s t : State) : Prop :=
  ∃ (e : Status) (ret : Word), t.out = s.out ++ [⟨e, ret⟩] ∧ (e ≠ .ok → ret = 0#32) ∧ (e = .ok → OkRet s t ret i)

theorem Responds.error {e : Status} (ho : t.out = s.out ++ [⟨e, 0#32⟩]) (he : e ≠ .ok) : Responds i s t :=
  ⟨e, 0#32, ho, fun _ => rfl, fun h => absurd h he⟩

theorem Responds.ok {ret : Word} (ho : t.out = s.out ++ [⟨.ok, ret⟩]) (hret : OkRet s t ret i) : Responds i s t :=
  ⟨.ok, ret, ho, fun h => absurd rfl h, fun _ => hret⟩

/-- A SHOW that is one step responds once. -/
theorem showSymbols_responds (s : State) : Responds .showFrame s (showSymbols s) := by
  rcases showSymbols_cases s with ⟨-, ho⟩ | ⟨_, _, -, ho⟩
  · exact .ok ho rfl
  · exact .error ho nofun

/-- Every command responds once, but for a SHOW that the tick machine accepts, which responds when its frame ends. -/
theorem Effect.responds (h : Effect i s t) (hg : i = .showFrame → s.cfg = true → s.grain = .symbol) : Responds i s t := by
  cases h with
  | cmdError | configError | indexError | rangeError => exact .error rfl nofun
  | shown hi => exact hi ▸ showSymbols_responds s
  | accepted hi hc htick => exact absurd (htick.symm.trans (hg hi hc)) nofun
  | brightness _ hi => obtain ⟨_, _, rfl⟩ := hi; exact .ok rfl rfl
  | words _ _ _ _ hb hr => exact .ok rfl (okRet_zero hb hr)
  | read _ hi => exact .ok rfl (hi ▸ rfl)
  | constructed _ _ _ _ _ hi => obtain ⟨_, _, _, _, _, rfl⟩ := hi; exact .ok rfl rfl

/-- Settles O14: a command gives a next state, and its effect responds once. -/
theorem everyCommandOneResponse : Obligations.EveryCommandOneResponse := by
  refine ⟨⟨rfl, rfl, rfl, rfl, rfl, rfl⟩, fun i s hg => ?_⟩
  obtain ⟨t, ht⟩ := exec_next i s
  obtain ⟨e, ret, hout, herr, hok⟩ := (exec_effect ht).responds hg
  refine ⟨t, e, ret, ht, hout, herr, fun he => ?_⟩
  have hret := hok he
  cases i <;> exact hret

/-! The W byte of a 3-channel colour (R55). -/

/-- Without C4 a colour is packed with W = 0. -/
theorem pack_ignores_w (s : State) (col : Colour) (u : Byte) :
    s.pack false { col with w := u } = s.pack false col := by
  simp only [State.pack, packWith, Bool.false_eq_true, if_false]

/-- Without C4 no W is interpolated. -/
theorem paint_ignores_w (s : State) (a b : Colour) (u v : Byte) :
    s.paint false { a with w := u } { b with w := v } = s.paint false a b := by
  funext lo hi m
  simp only [State.paint, lerpColour, Bool.false_eq_true, if_false]

/-- Of a list of colours with another W byte each, `colors[k]` has the same R, G and B. -/
theorem colourAt_map_w (cols : List Colour) (u : Byte) (k : Nat) :
    ∃ v, colourAt (cols.map fun c => { c with w := u }) k = { colourAt cols k with w := v } := by
  simp only [colourAt, List.getD_eq_getElem?_getD, List.getElem?_map]
  cases cols[k]? with
  | none => exact ⟨0#8, rfl⟩
  | some c => exact ⟨u, rfl⟩

theorem paintSeg_ignores_w (s : State) (cols : List Colour) (u : Byte) :
    s.paintSeg false (cols.map fun c => { c with w := u }) = s.paintSeg false cols := by
  funext m g
  obtain ⟨v, hv⟩ := colourAt_map_w cols u g.k
  obtain ⟨v', hv'⟩ := colourAt_map_w cols u ((g.k + 1) % cols.length)
  simp only [State.paintSeg, List.length_map, hv, hv', paint_ignores_w]

/-- Settles O24: with NONE the scalar is behind a test that leaves it out, and without C4 no W byte is read
(`pack_ignores_w`, `paint_ignores_w`, `paintSeg_ignores_w`). -/
theorem ignoredOperands : Obligations.IgnoredOperands := by
  intro s numLeds x y index first last mode delay right rev rbw col a b cols u v
  refine ⟨rfl, rfl, ?_, ?_, ?_, ?_, ?_, ?_⟩
  · simp only [exec, execRotate, rotateOffset, true_or, if_true]
  · simp only [exec, execSetpixel, pack_ignores_w]
  · simp only [exec, execSetrange, pack_ignores_w]
  · simp only [exec, execFill, pack_ignores_w]
  · simp only [exec, execLgrad, paint_ignores_w]
  · simp only [exec, execSgrad, List.length_map, paintSeg_ignores_w]

end Sys2Proof.Machine
end

section
/-! `ValidMode` (R54, R71): the four bytes of a mode word, the string in them, and its letters. -/

namespace Sys2Proof.Machine

variable {x y : Word} {m : List Chan}

/-- The four bytes of a word, from bits 31:24 on (R54). -/
def wordBytes (x : Word) : List Byte :=
  [x.extractLsb' 24 8, x.extractLsb' 16 8, x.extractLsb' 8 8, x.extractLsb' 0 8]

/-- A word is determined by its four bytes, as a colour word is (`encodeColour_decodeColour`). -/
theorem eq_of_wordBytes_eq (h : wordBytes x = wordBytes y) : x = y := by
  have hcol : decodeColour x = decodeColour y := by simpa [wordBytes, decodeColour] using h
  rw [← encodeColour_decodeColour x, hcol, encodeColour_decodeColour]

/-- A word of four bytes holds these bytes, as a colour word does (`decodeColour_encodeColour`). -/
theorem wordBytes_append (a b c d : Byte) : wordBytes (a ++ b ++ c ++ d) = [a, b, c, d] := by
  have hcol := decodeColour_encodeColour ⟨a, b, c, d⟩
  simpa [wordBytes, decodeColour, encodeColour] using hcol

/-- The bytes of a mode word are the codes of its letters and then zeros (R54). -/
theorem wordBytes_modeWord (h : m.length ≤ 4) :
    wordBytes (modeWord m) = m.map chanCode ++ List.replicate (4 - m.length) 0#8 := by
  refine (wordBytes_append _ _ _ _).trans ?_
  match m, h with
  | [], _ | [_], _ | [_, _], _ | [_, _, _], _ | [_, _, _, _], _ => rfl

/-- The string of a word is what stands before the zeros that fill it up (R54). -/
theorem modeString_eq_some_iff {str : List Byte} :
    modeString x = some str ↔ 0#8 ∉ str ∧ ∃ k, wordBytes x = str ++ List.replicate k 0#8 := by
  change (if ((wordBytes x).drop ((wordBytes x).takeWhile (· != 0#8)).length).all (· == 0#8) then
    some ((wordBytes x).takeWhile (· != 0#8)) else none) = some str ↔ _
  generalize wordBytes x = bytes
  constructor
  · intro h
    split_ifs at h with hpad
    obtain rfl : bytes.takeWhile (· != 0#8) = str := Option.some.inj h
    obtain ⟨k, hk⟩ : ∃ k, bytes.drop (bytes.takeWhile (· != 0#8)).length = List.replicate k 0#8 :=
      ⟨_, List.eq_replicate_of_mem fun c hc => beq_iff_eq.1 (List.all_eq_true.1 hpad c hc)⟩
    refine ⟨fun h0 => by simpa using List.mem_takeWhile_imp h0, k, ?_⟩
    rw [← hk]
    exact (List.prefix_iff_eq_append.1 (List.takeWhile_prefix _)).symm
  · rintro ⟨h0, k, rfl⟩
    have hne : ∀ c ∈ str, (c != 0#8) = true := fun c hc => by
      simpa using fun e : c = 0#8 => h0 (e ▸ hc)
    have hstr : (str ++ List.replicate k 0#8).takeWhile (· != 0#8) = str := by
      rw [List.takeWhile_append_of_pos hne]
      simp
    rw [hstr]
    simp

/-- The letter of a code is the one that has this code (R54). -/
theorem letterChan_eq_some_iff {c : Byte} {l : Chan} : letterChan c = some l ↔ c = chanCode l := by
  constructor
  · intro h
    unfold letterChan at h
    split_ifs at h with hr hg hb hw <;> cases h <;> assumption
  · rintro rfl
    cases l <;> rfl

/-- The letters of a string are those whose codes it lists. -/
theorem lettersOf_eq_some_iff {str : List Byte} : lettersOf str = some m ↔ str = m.map chanCode := by
  induction str generalizing m with
  | nil => cases m <;> simp [lettersOf]
  | cons c cs ih =>
    have hcons : lettersOf (c :: cs) = some m ↔ ∃ l ls, letterChan c = some l ∧ lettersOf cs = some ls ∧ l :: ls = m := by
      cases hl : letterChan c <;> cases hls : lettersOf cs <;> simp [lettersOf, hl, hls]
    simp only [hcons, letterChan_eq_some_iff, ih]
    cases m with
    | nil => simp
    | cons l ls => simp

theorem chanCode_ne_zero (l : Chan) : chanCode l ≠ 0#8 := by cases l <;> decide

/-- A word holds the string of a mode of at most four letters exactly when it is the mode's word (R54). -/
theorem modeString_eq_codes_iff (h : m.length ≤ 4) : modeString x = some (m.map chanCode) ↔ x = modeWord m := by
  have h0 : 0#8 ∉ m.map chanCode := by
    simpa using fun l _ => chanCode_ne_zero l
  rw [modeString_eq_some_iff]
  constructor
  · rintro ⟨-, k, hk⟩
    have hlen : 4 = m.length + k := by simpa [wordBytes] using congrArg List.length hk
    apply eq_of_wordBytes_eq
    rw [hk, wordBytes_modeWord h, show k = 4 - m.length by omega]
  · rintro rfl
    exact ⟨h0, _, wordBytes_modeWord h⟩

/-- `ValidMode` finds the letters whose codes are the word's string, when they are a legal mode (R71). -/
theorem validMode_eq_some_iff :
    validMode x = some m ↔ modeString x = some (m.map chanCode) ∧ legalMode m = true := by
  cases hs : modeString x with
  | none => simp [validMode, hs]
  | some str =>
    rw [Option.some_inj, ← lettersOf_eq_some_iff]
    cases hl : lettersOf str with
    | none => simp [validMode, hs, hl]
    | some m' =>
      rw [Option.some_inj]
      by_cases hm' : legalMode m' = true
      · simp only [validMode, hs, hl, if_pos hm', Option.some_inj]
        exact ⟨fun e => ⟨e, e ▸ hm'⟩, And.left⟩
      · simp only [validMode, hs, hl, if_neg hm']
        exact iff_of_false nofun fun ⟨e, hm⟩ => hm' (e ▸ hm)

/-- Settles O16: `ValidMode` looks for a string of codes (`validMode_eq_some_iff`), only the mode's word holds that string
(`modeString_eq_codes_iff`), and the legal modes are the permutations (`legalMode_iff`). -/
theorem validModeExactly : Obligations.ValidModeExactly := by
  refine ⟨fun x m => ?_, ?_⟩
  · rw [validMode_eq_some_iff, ← legalMode_iff]
    exact and_congr_left fun hm => modeString_eq_codes_iff (length_le_of_legalMode hm)
  · rw [List.length_append, List.length_permutations, List.length_permutations]
    rfl

end Sys2Proof.Machine
end

section
/-! CONFIG and SETBRIGHT (R70, R72). -/

namespace Sys2Proof.Machine

variable {s : State}

/-- CONFIG after construction (R70, R166). -/
theorem exec_config_of_constructed (hc : s.cfg = true) (unset : Bool) (numLeds : Int) (mode : Word) (brightness : Int)
    (resetDelay : Word) :
    exec (.config unset numLeds mode brightness resetDelay) s = .next (s.respond .cmdError 0#32) := by
  simp only [exec, execConfig, if_pos hc, State.raise_eq]

/-- CONFIG with an operand that R70 rejects. -/
theorem exec_config_of_rejected (hc : s.cfg = false) {numLeds : Int} {mode : Word}
    (h : numLeds ≤ 0 ∨ (s.params.nmax : Int) < numLeds ∨ validMode mode = none) (unset : Bool) (brightness : Int)
    (resetDelay : Word) :
    exec (.config unset numLeds mode brightness resetDelay) s = .next (s.respond .configError 0#32) := by
  simp only [exec, execConfig, hc, Bool.false_eq_true, if_false, State.raise_eq]
  by_cases hpos : numLeds ≤ 0
  · rw [if_pos hpos]
  by_cases hmax : (s.params.nmax : Int) < numLeds
  · rw [if_neg hpos, if_pos hmax]
  · have hmode : validMode mode = none := (h.resolve_left hpos).resolve_left hmax
    simp only [if_neg hpos, if_neg hmax, hmode]

/-- The brightness that CONFIG stores (R70). -/
def initialBright (unset : Bool) (brightness : Int) : Byte := if unset then 255#8 else clampBright brightness

theorem toNat_initialBright (unset : Bool) (brightness : Int) :
    ((initialBright unset brightness).toNat : Int) = if unset then 255 else max 1 (min 255 brightness) := by
  cases unset
  · exact toNat_clampBright brightness
  · rfl

/-- CONFIG with good operands before construction (R70). -/
theorem exec_config_of_accepted (hc : s.cfg = false) {numLeds : Int} (hpos : 0 < numLeds) (hmax : numLeds ≤ s.params.nmax)
    {mode : Word} {m : List Chan} (hmode : validMode mode = some m) (unset : Bool) (brightness : Int) (resetDelay : Word) :
    exec (.config unset numLeds mode brightness resetDelay) s =
      .next ((construct numLeds.toNat m (initialBright unset brightness) resetDelay s).respond .ok 0#32) := by
  simp only [exec, execConfig, hc, Bool.false_eq_true, if_false, if_neg hpos.not_ge, if_neg hmax.not_gt, hmode,
    State.answer_eq, initialBright]

/-- The table of a mode that `ValidMode` found: its letters have their lanes, the other letter its old one (R32, R70). -/
theorem shiftsFor_get_of_validMode {mode : Word} {m : List Chan} (hmode : validMode mode = some m) (old : ShiftTable) :
    (∀ p c, m[p]? = some c → ((shiftsFor m old).get c).toNat = 8 * (m.length - 1 - p)) ∧
    ∀ c, c ∉ m → (shiftsFor m old).get c = old.get c :=
  have hm := validMode_legal hmode
  shiftsFor_get (nodup_of_legalMode hm) (length_le_of_legalMode hm) old

/-- Settles O15: each of R70's tests has its equation (`exec_config_of_constructed` and its like), and the fields of what
the last one leaves are those of `construct`. -/
theorem configConstructs : Obligations.ConfigConstructs := by
  refine ⟨fun unset numLeds mode brightness resetDelay s =>
    ⟨fun hc => exec_config_of_constructed hc _ _ _ _ _, fun hc h => exec_config_of_rejected hc h _ _ _⟩, ?_⟩
  intro unset numLeds mode brightness resetDelay s m hc hpos hmax hmode
  have hn : (numLeds.toNat : Int) = numLeds := Int.toNat_of_nonneg hpos.le
  have hasw : (m.length == 4) = true ↔ m.length = 4 := beq_iff_eq
  have hlanes := (shiftsFor_get_of_validMode hmode s.regs.sh).1
  have hbright := toNat_initialBright unset brightness
  exact ⟨_, exec_config_of_accepted hc hpos hmax hmode _ _ _, rfl, hn, rfl, rfl, hasw, rfl, hlanes, rfl, rfl, hbright,
    fun _ => rfl, rfl, rfl, rfl, rfl, rfl, rfl, rfl, rfl, rfl, rfl, rfl, rfl⟩

/-- Settles O57: the lane table of a constructed block is `shiftsFor` of the old one. -/
theorem absentLetterKeepsLane : Obligations.AbsentLetterKeepsLane := by
  intro unset numLeds mode brightness resetDelay s m hc hpos hmax hmode
  exact ⟨_, exec_config_of_accepted hc hpos hmax hmode _ _ _, (shiftsFor_get_of_validMode hmode s.regs.sh).2⟩

/-- SETBRIGHT before construction (R72, R166). -/
theorem exec_setbright_of_unconstructed (hc : s.cfg = false) (unset : Bool) (value : Int) :
    exec (.setbright unset value) s = .next (s.respond .cmdError 0#32) :=
  congrArg _ (whenConstructed_false hc _)

/-- The query form of SETBRIGHT (R72). -/
theorem exec_setbright_query (hc : s.cfg = true) (value : Int) :
    exec (.setbright true value) s = .next (s.respond .ok (s.bright.setWidth 32)) :=
  congrArg _ (whenConstructed_true hc _)

/-- The set form of SETBRIGHT (R72). -/
theorem exec_setbright_set (hc : s.cfg = true) (value : Int) :
    exec (.setbright false value) s =
      .next ((s.setBright (clampBright value)).respond .ok ((clampBright value).setWidth 32)) :=
  congrArg _ (whenConstructed_true hc _)

/-- Settles O18: one equation per form, with `toNat_clampBright` for the value stored. -/
theorem setbrightEffect : Obligations.SetbrightEffect := by
  intro unset value s
  refine ⟨fun hc => exec_setbright_of_unconstructed hc _ _, ?_, ?_⟩
  · rintro hc rfl
    exact exec_setbright_query hc value
  · rintro hc rfl
    exact ⟨clampBright value, toNat_clampBright value, exec_setbright_set hc value⟩

end Sys2Proof.Machine
end

section
/-! `scale` (R81): exact rounding of `c * B / 255`, which has no tie since 255 is odd. -/

namespace Sys2Proof.Machine

theorem scaleInt_mono {c c' b b' : Nat} (hc : c ≤ c') (hb : b ≤ b') : scaleInt c b ≤ scaleInt c' b' :=
  rne_mono (by decide) (by exact_mod_cast Nat.mul_le_mul hc hb)

/-- Twice a product is even, an odd multiple of 255 is odd. -/
theorem scale_no_tie (c b : Nat) (k : Int) : 2 * ((c : Int) * b) ≠ 255 * (2 * k + 1) := by
  omega

theorem scaleInt_255_right (c : Nat) : scaleInt c 255 = c := by
  rw [scaleInt_eq]
  omega

theorem scaleInt_255_left (b : Nat) : scaleInt 255 b = b := by
  rw [scaleInt_eq]
  omega

theorem scaleInt_zero (b : Nat) : scaleInt 0 b = 0 := by
  rw [scaleInt_eq]
  omega

/-- The least brightness keeps only the upper half of the range, as 1. -/
theorem scaleInt_one {c : Nat} (hc : c ≤ 255) : scaleInt c 1 = if c ≤ 127 then 0 else 1 := by
  rw [scaleInt_eq]
  split_ifs <;> omega

/-- Settles O20: every law follows from the closed form `scaleInt_eq` or from the monotony of `rne`. -/
theorem scaleIsExact : Obligations.ScaleIsExact := by
  intro c b hc _ hb
  have hbyte := toNat_scale (BitVec.ofNat 8 c) (BitVec.ofNat 8 b)
  rw [BitVec.toNat_ofNat, BitVec.toNat_ofNat, Nat.mod_eq_of_lt (by omega), Nat.mod_eq_of_lt (by omega)] at hbyte
  exact ⟨rfl, scaleInt_eq, scale_no_tie c b, scaleInt_nonneg c b, scaleInt_le hb, scaleInt_255_right c, scaleInt_zero b,
    scaleInt_255_left b, fun _ h _ => scaleInt_mono h le_rfl, fun _ h _ => scaleInt_mono le_rfl h, scaleInt_one hc, hbyte⟩

end Sys2Proof.Machine
end

section
/-! `Unpack` of `Pack` (R82, R84): a lane read back holds its own channel, and the lanes of the other letters do not reach
into it. -/

namespace Sys2Proof.Machine

/-- The byte that `Pack` puts into a channel's lane (R80, R82). -/
def packedChan (bright : Byte) (c4 : Bool) (col : Colour) : Chan → Byte
  | .w => if c4 then scale col.w bright else 0#8
  | c => scale (col.get c) bright

theorem packWith_rgb (bright : Byte) (sh : ShiftTable) (c4 : Bool) (col : Colour) :
    packWith bright sh false c4 col = inLane (packedChan bright c4 col .r) (sh.get .r) |||
      inLane (packedChan bright c4 col .g) (sh.get .g) ||| inLane (packedChan bright c4 col .b) (sh.get .b) := rfl

theorem packWith_rgbw (bright : Byte) (sh : ShiftTable) (c4 : Bool) (col : Colour) :
    packWith bright sh true c4 col = packWith bright sh false c4 col |||
      inLane (packedChan bright c4 col .w) (sh.get .w) := rfl

theorem unpackChan_or (sh : ShiftTable) (x y : Word) (c : Chan) :
    unpackChan sh (x ||| y) c = unpackChan sh x c ||| unpackChan sh y c := extract_or x y _

section lanes

variable {m : List Chan} (hm : legalMode m = true) {sh : ShiftTable}
  (hl : ∀ p c, m[p]? = some c → (sh.get c).toNat = 8 * (m.length - 1 - p))

include hm hl

/-- Reading a channel's lane where only channel `d` was put. -/
theorem unpackChan_inLane {c d : Chan} (hc : c ∈ m) (hd : d ∈ m) (v : Byte) :
    unpackChan sh (inLane v (sh.get d)) c = if d = c then v else 0#8 := by
  have hlen := length_le_of_legalMode hm
  have hle := lane_le hl hc
  split_ifs with hdc
  · subst hdc
    exact extract_inLane_same v _ (by omega)
  · exact extract_inLane_other v _ (by omega) (lanes_disjoint hm hl hd hc hdc).2

/-- Each letter of the mode reads back as the byte that was packed (R84). -/
theorem unpackChan_packWith (bright : Byte) (c4 : Bool) (col : Colour) {c : Chan} (hc : c ∈ m) :
    unpackChan sh (packWith bright sh (m.length == 4) c4 col) c = packedChan bright c4 col c := by
  have hlane := fun {d : Chan} (hd : d ∈ m) => unpackChan_inLane hm hl hc hd
  rcases legalMode_cases hm with ⟨h3, hr, hg, hb, hw⟩ | ⟨h4, hall⟩
  · rw [show (m.length == 4) = false by rw [h3]; rfl, packWith_rgb]
    simp only [unpackChan_or, hlane hr, hlane hg, hlane hb]
    cases c with
    | w => exact absurd hc hw
    | _ => simp
  · rw [show (m.length == 4) = true by rw [h4]; rfl, packWith_rgbw, packWith_rgb]
    simp only [unpackChan_or, hlane (hall _)]
    cases c <;> simp

end lanes

/-- A constructed block reads back each letter of its mode. -/
theorem Configured.unpackChan_pack {s : State} (h : Configured s) (c4 : Bool) (col : Colour) {c : Chan}
    (hc : c ∈ s.regs.mode) : unpackChan s.regs.sh (s.pack c4 col) c = packedChan s.bright c4 col c := by
  rw [State.pack, h.hasw_eq, h.nch_eq]
  exact unpackChan_packWith h.mode_legal (h.nch_eq ▸ h.lanes) _ _ _ hc

/-- HASW says whether the mode has the letter W (R13). -/
theorem Configured.w_mem_of_hasw {s : State} (h : Configured s) (hw : s.regs.hasw = true) : .w ∈ s.regs.mode := by
  rw [h.hasw_eq, h.nch_eq, beq_iff_eq] at hw
  rcases legalMode_cases h.mode_legal with ⟨h3, -⟩ | ⟨-, hall⟩
  · omega
  · exact hall .w

/-- Every legal mode has the letters R, G and B (R71). -/
theorem rgb_mem_of_legalMode {m : List Chan} (h : legalMode m = true) : .r ∈ m ∧ .g ∈ m ∧ .b ∈ m := by
  rcases legalMode_cases h with ⟨-, hr, hg, hb, -⟩ | ⟨-, hall⟩
  · exact ⟨hr, hg, hb⟩
  · exact ⟨hall _, hall _, hall _⟩

/-- R84 for all channels at once. -/
theorem Configured.unpack_pack {s : State} (h : Configured s) (c4 : Bool) (col : Colour) :
    unpack s.regs.sh s.regs.hasw (s.pack c4 col) =
      (scale col.r s.bright, scale col.g s.bright, scale col.b s.bright,
        if s.regs.hasw then some (if c4 then scale col.w s.bright else 0#8) else none) := by
  obtain ⟨hr, hg, hb⟩ := rgb_mem_of_legalMode h.mode_legal
  rw [unpack, h.unpackChan_pack c4 col hr, h.unpackChan_pack c4 col hg, h.unpackChan_pack c4 col hb]
  cases hw : s.regs.hasw
  · rfl
  · rw [h.unpackChan_pack c4 col (h.w_mem_of_hasw hw)]
    rfl

/-- Settles O22: `Configured.unpack_pack`, and `scale_255` at full brightness. -/
theorem unpackOfPack : Obligations.UnpackOfPack := by
  intro s c4 col h
  have hunpack := h.unpack_pack c4 col
  refine ⟨hunpack, fun hbright => ?_⟩
  rw [hunpack, hbright]
  simp only [scale_255]

end Sys2Proof.Machine
end

section
/-! The pixel commands (R85 to R88): an equation for each outcome, and the words that the array then holds. -/

namespace Sys2Proof.Machine

variable {s : State}

/-- SETPIXEL outside [0, N) (R85). -/
theorem exec_setpixel_of_outside (hc : s.cfg = true) {index : Int} (h : index < 0 ∨ (s.regs.n : Int) ≤ index) (c4 : Bool)
    (col : Colour) : exec (.setpixel c4 index col) s = .next (s.respond .indexError 0#32) := by
  have hr := (inRange_false_iff s index).2 h
  simp only [exec, execSetpixel, whenConstructed_true hc, hr, Bool.false_eq_true, if_false, State.raise_eq]

/-- SETPIXEL in [0, N) (R85). -/
theorem exec_setpixel_of_inside (hc : s.cfg = true) {index : Int} (h0 : 0 ≤ index) (hn : index < s.regs.n) (c4 : Bool)
    (col : Colour) : exec (.setpixel c4 index col) s =
      .next ((s.setW (Memory.write s.w index.toNat (s.pack c4 col))).respond .ok 0#32) := by
  have hr := (inRange_iff s index).2 ⟨h0, hn⟩
  simp only [exec, execSetpixel, whenConstructed_true hc, hr, if_true, State.answer_eq]

/-- SETRANGE with an endpoint outside [0, N) (R86). -/
theorem exec_setrange_of_outside (hc : s.cfg = true) {first last : Int}
    (h : first < 0 ∨ (s.regs.n : Int) ≤ first ∨ last < 0 ∨ (s.regs.n : Int) ≤ last) (c4 : Bool) (col : Colour) :
    exec (.setrange c4 first last col) s = .next (s.respond .invalidRangeError 0#32) := by
  have hr : ¬ (s.inRange first && s.inRange last) = true := by
    rw [Bool.and_eq_true, inRange_iff, inRange_iff]
    omega
  simp only [exec, execSetrange, whenConstructed_true hc, if_neg hr, State.raise_eq]

/-- The array after a SETRANGE whose endpoints lie in [0, N) (R86). -/
def rangeStored (s : State) (c4 : Bool) (first last : Int) (col : Colour) : Memory :=
  Memory.writeSpan s.w (min first last).toNat ((max first last).toNat - (min first last).toNat + 1) fun _ => s.pack c4 col

theorem exec_setrange_of_inside (hc : s.cfg = true) {first last : Int} (hf : 0 ≤ first ∧ first < s.regs.n)
    (hl : 0 ≤ last ∧ last < s.regs.n) (c4 : Bool) (col : Colour) : exec (.setrange c4 first last col) s =
      .next ((s.setW (rangeStored s c4 first last col)).respond .ok 0#32) := by
  have hr : (s.inRange first && s.inRange last) = true := by
    rw [Bool.and_eq_true, inRange_iff, inRange_iff]
    exact ⟨hf, hl⟩
  simp only [exec, execSetrange, whenConstructed_true hc, if_pos hr, State.answer_eq, rangeStored]

theorem read_rangeStored (hw : Memory.wf s.w = true) (c4 : Bool) {first last : Int} (hf : 0 ≤ first) (hl : 0 ≤ last)
    (col : Colour) (a : Nat) : Memory.read (rangeStored s c4 first last col) a =
      if min first last ≤ (a : Int) ∧ (a : Int) ≤ max first last then s.pack c4 col else Memory.read s.w a := by
  rw [rangeStored, Memory.read_writeSpan hw]
  exact if_congr (by omega) rfl rfl

/-- The array after a FILL (R87). -/
def filled (s : State) (c4 : Bool) (col : Colour) : Memory := Memory.writeSpan s.w 0 s.regs.n fun _ => s.pack c4 col

theorem exec_fill_of_constructed (hc : s.cfg = true) (c4 : Bool) (col : Colour) :
    exec (.fill c4 col) s = .next ((s.setW (filled s c4 col)).respond .ok 0#32) :=
  congrArg _ (whenConstructed_true hc _)

theorem read_filled (hw : Memory.wf s.w = true) (c4 : Bool) (col : Colour) (a : Nat) :
    Memory.read (filled s c4 col) a = if a < s.regs.n then s.pack c4 col else Memory.read s.w a := by
  rw [filled, Memory.read_writeSpan hw]
  exact if_congr (by omega) rfl rfl

/-- The span of a FILL is the one between 0 and N - 1. -/
theorem filled_eq_rangeStored (hn : 1 ≤ s.regs.n) (c4 : Bool) (col : Colour) :
    filled s c4 col = rangeStored s c4 0 ((s.regs.n : Int) - 1) col := by
  have hlo : (min 0 ((s.regs.n : Int) - 1)).toNat = 0 := by omega
  have hcnt : (max 0 ((s.regs.n : Int) - 1)).toNat - 0 + 1 = s.regs.n := by omega
  rw [filled, rangeStored, hlo, hcnt]

/-- READWORD outside [0, N) (R88). -/
theorem exec_readword_of_outside (hc : s.cfg = true) {index : Int} (h : index < 0 ∨ (s.regs.n : Int) ≤ index) :
    exec (.readword index) s = .next (s.respond .indexError 0#32) := by
  have hr := (inRange_false_iff s index).2 h
  simp only [exec, execReadword, whenConstructed_true hc, hr, Bool.false_eq_true, if_false, State.raise_eq]

/-- READWORD in [0, N) (R88). -/
theorem exec_readword_of_inside (hc : s.cfg = true) {index : Int} (h0 : 0 ≤ index) (hn : index < s.regs.n) :
    exec (.readword index) s = .next (s.respond .ok (Memory.read s.w index.toNat)) := by
  have hr := (inRange_iff s index).2 ⟨h0, hn⟩
  simp only [exec, execReadword, whenConstructed_true hc, hr, if_true, State.answer_eq]

/-- Settles O26: the span between the endpoints is `rangeStored`, read back by `read_rangeStored`. -/
theorem setrangeEffect : Obligations.SetrangeEffect := by
  intro c4 first last col s hw
  refine ⟨fun hc => congrArg _ (whenConstructed_false hc _), fun hc h => exec_setrange_of_outside hc h c4 col, ?_⟩
  intro hc hf0 hfn hl0 hln
  exact ⟨_, exec_setrange_of_inside hc ⟨hf0, hfn⟩ ⟨hl0, hln⟩ c4 col, read_rangeStored hw c4 hf0 hl0 col⟩

/-- Settles O27: FILL has no range test, and `filled` is read back by `read_filled`. -/
theorem fillEffect : Obligations.FillEffect := by
  intro c4 col s hw
  exact ⟨fun hc => congrArg _ (whenConstructed_false hc _),
    fun hc => ⟨_, exec_fill_of_constructed hc c4 col, read_filled hw c4 col⟩⟩

/-- Settles O25: one word is written, and read back by `Memory.read_write`. -/
theorem setpixelEffect : Obligations.SetpixelEffect := by
  intro c4 index col s hw
  refine ⟨fun hc => congrArg _ (whenConstructed_false hc _), fun hc h => exec_setpixel_of_outside hc h c4 col, ?_⟩
  intro hc h0 hn
  refine ⟨_, exec_setpixel_of_inside hc h0 hn c4 col, fun a => ?_⟩
  rw [State.setW_w, Memory.read_write hw]
  exact if_congr (by omega) rfl rfl

/-- Settles O28: one equation per outcome. -/
theorem readwordEffect : Obligations.ReadwordEffect := by
  intro index s
  exact ⟨fun hc => congrArg _ (whenConstructed_false hc _), fun hc h => exec_readword_of_outside hc h,
    fun hc h0 hn => exec_readword_of_inside hc h0 hn⟩

/-- Settles O29: SETBRIGHT leaves the array and N, so READWORD finds the word that SETPIXEL wrote. -/
theorem brightnessBakedIn : Obligations.BrightnessBakedIn := by
  intro c4 index value col s hinv hc h0 hn
  refine ⟨_, _, _, exec_setpixel_of_inside hc h0 hn c4 col, exec_setbright_set ?_ value,
    exec_readword_of_inside ?_ h0 ?_, ?_⟩
  · exact hc
  · exact hc
  · exact hn
  · have hword : Memory.read (Memory.write s.w index.toNat (s.pack c4 col)) index.toNat = s.pack c4 col := by
      rw [Memory.read_write hinv.mem_wf, if_pos rfl]
    simp only [State.respond_out, State.respond_w, State.setBright_w, State.setW_w, hword]

/-- Settles O58: before construction both are CmdError, after it they store the same span (`filled_eq_rangeStored`). -/
theorem fillIsSetrangeAll : Obligations.FillIsSetrangeAll := by
  intro c4 col s hn
  cases hc : s.cfg
  · exact congrArg _ ((whenConstructed_false hc _).trans (whenConstructed_false hc _).symm)
  · rw [exec_fill_of_constructed hc, exec_setrange_of_inside hc (by omega) (by omega), filled_eq_rangeStored hn]

end Sys2Proof.Machine
end

section
/-! On an RGB buffer the C4 flag has no effect (R80, R200): `Pack` reads no fourth channel, and neither does what is built on
it. -/

namespace Sys2Proof.Machine

section rgb

variable {s : State} (h : s.regs.hasw = false)

include h

theorem pack_c4_of_rgb (col : Colour) : s.pack true col = s.pack false col :=
  pack_of_hasw_false h true false rfl rfl rfl

theorem paint_c4_of_rgb : s.paint true = s.paint false := by
  funext ca cb lo hi m
  exact congrArg (Memory.writeSpan m lo (hi - lo + 1)) (funext fun _ => pack_of_hasw_false h true false rfl rfl rfl)

theorem paintSeg_c4_of_rgb : s.paintSeg true = s.paintSeg false := by
  funext cols m g
  simp only [State.paintSeg, paint_c4_of_rgb h]

end rgb

/-- Two commands with the life-cycle guard agree when their bodies do on this state. -/
theorem next_whenConstructed_congr {s : State} {f g : State → State} (h : f s = g s) :
    (Host.Outcome.next (s.whenConstructed f) : Host.Outcome State Fault Refusal) = .next (s.whenConstructed g) :=
  congrArg _ (whenConstructed_congr fun _ => h)

/-- Settles O23: C4 reaches the state only through `Pack`, `paint` and `paintSeg`. -/
theorem fourthChannelIgnoredOnRgb : Obligations.FourthChannelIgnoredOnRgb := by
  intro s index first last col a b rev rbw cols h
  refine ⟨next_whenConstructed_congr ?_, next_whenConstructed_congr ?_, next_whenConstructed_congr ?_,
    next_whenConstructed_congr ?_, next_whenConstructed_congr ?_⟩
  · simp only [pack_c4_of_rgb h]
  · simp only [pack_c4_of_rgb h]
  · simp only [pack_c4_of_rgb h]
  · simp only [paint_c4_of_rgb h]
  · simp only [paintSeg_c4_of_rgb h]

end Sys2Proof.Machine
end

section
/-! ROTATE (R100, R101): its one equation on a constructed block, the index that each word comes from, and the laws that follow:
right is left by the negated offset, two rotations to the left are one, and the words in order are the list rotated. -/

namespace Sys2Proof.Machine

variable {s : State} {m : Memory} {n : Nat}

@[simp] theorem rotateOffset_set (k : Int) : rotateOffset false k = if k = 0 then 1 else k := by simp [rotateOffset]

/-- The array after a ROTATE by the unreduced `k0` (R100). -/
def turned (s : State) (right : Bool) (k0 : Int) : Memory := rotated right (modN k0 s.regs.n) s.regs.n s.w

theorem exec_rotate_of_constructed (hc : s.cfg = true) (unset right : Bool) (offset : Int) :
    exec (.rotate unset right offset) s =
      .next ((s.setW (turned s right (rotateOffset unset offset))).respond .ok 0#32) :=
  congrArg _ (whenConstructed_true hc _)

/-- Where each word comes from, by the unreduced offset (R100). -/
theorem read_rotated_modN (hw : Memory.wf m = true) (right : Bool) (k : Int) (i : Nat) :
    Memory.read (rotated right (modN k n) n m) i =
      if i < n then Memory.read m ((if right then (i : Int) - k else (i : Int) + k) % (n : Int)).toNat
      else Memory.read m i := by
  rw [read_rotated hw]
  split_ifs with hi hr
  · rw [modN_sub_modN _ _ (by omega)]
  · rw [modN_add_modN _ _ (by omega)]
  · rfl

theorem read_rotated_left (hw : Memory.wf m = true) (k : Int) {i : Nat} (hi : i < n) :
    Memory.read (rotated false (modN k n) n m) i = Memory.read m (modN ((i : Int) + k) n) := by
  rw [read_rotated_modN hw, if_pos hi]
  rfl

theorem read_rotated_outside (hw : Memory.wf m = true) (right : Bool) (k : Nat) {i : Nat} (hi : ¬ i < n) :
    Memory.read (rotated right k n m) i = Memory.read m i := by
  rw [read_rotated hw, if_neg hi]

/-- Right by `k` is left by `-k` (R101 (d)). -/
theorem rotated_right (hn : 1 ≤ n) (k : Int) (m : Memory) :
    rotated true (modN k n) n m = rotated false (modN (-k) n) n m := by
  refine congrArg (Memory.writeSpan m 0 n) (funext fun i => congrArg (Memory.read m) ?_)
  calc modN ((i : Int) - modN k n) n = (((i : Int) - k) % (n : Int)).toNat := modN_sub_modN _ _ hn
    _ = modN ((i : Int) + modN (-k) n) n := by rw [modN_add_modN _ _ hn, sub_eq_add_neg]

/-- Left by `a` and then by `b` is left by `a + b` (R101 (c)). -/
theorem rotated_left_left (hw : Memory.wf m = true) (hn : 1 ≤ n) (a b : Int) :
    rotated false (modN b n) n (rotated false (modN a n) n m) = rotated false (modN (a + b) n) n m := by
  have hwa := wf_rotated hw false (modN a n) n
  refine Memory.ext_read (wf_rotated hwa _ _ _) (wf_rotated hw _ _ _) fun i => ?_
  by_cases hi : i < n
  · have hsource : modN ((modN ((i : Int) + b) n : Int) + a) n = modN ((i : Int) + (a + b)) n := by
      rw [add_comm, modN_add_modN _ _ hn, modN, show a + ((i : Int) + b) = i + (a + b) by ring]
    rw [read_rotated_left hwa b hi, read_rotated_left hw a (modN_lt _ hn), hsource, read_rotated_left hw _ hi]
  · simp only [read_rotated_outside hwa, read_rotated_outside hw, hi, not_false_eq_true]

theorem rotated_left_zero (hw : Memory.wf m = true) : rotated false (modN 0 n) n m = m := by
  refine Memory.ext_read (wf_rotated hw _ _ _) hw fun i => ?_
  by_cases hi : i < n
  · have hsource : modN ((i : Int) + 0) n = i := by
      rw [add_zero, modN, Int.emod_eq_of_lt (by omega) (by omega), Int.toNat_natCast]
    rw [read_rotated_left hw 0 hi, hsource]
  · exact read_rotated_outside hw _ _ hi

/-- Right undoes left (R101 (b)). -/
theorem rotated_right_left (hw : Memory.wf m = true) (hn : 1 ≤ n) (k : Int) :
    rotated true (modN k n) n (rotated false (modN k n) n m) = m := by
  rw [rotated_right hn, rotated_left_left hw hn, add_neg_cancel, rotated_left_zero hw]

/-- The words in order are rotated as a list. -/
theorem words_rotated_left (hw : Memory.wf m = true) (k : Nat) :
    (List.range n).map (Memory.read (rotated false k n m)) = ((List.range n).map (Memory.read m)).rotate k := by
  refine List.ext_getElem (by simp) fun i hi _ => ?_
  have hin : i < n := by simpa using hi
  have hsource : modN ((i : Int) + k) n = (i + k) % n := by
    rw [modN, ← Nat.cast_add, ← Int.natCast_mod, Int.toNat_natCast]
  simp [List.getElem_rotate, read_rotated hw, hin, hsource]

/-- Settles O30: the source of each word is `read_rotated_modN`. -/
theorem rotateEffect : Obligations.RotateEffect := by
  intro unset right offset s hw
  refine ⟨fun hc => congrArg _ (whenConstructed_false hc _), fun hc =>
    ⟨_, exec_rotate_of_constructed hc unset right offset, ?_⟩⟩
  rintro _ rfl i
  exact read_rotated_modN hw right (rotateOffset unset offset) i

/-- Settles O31: `rotated_right_left`, `words_rotated_left` and `rotated_right`. -/
theorem rotateInverse : Obligations.RotateInverse := by
  intro k s hinv hc
  have hn := (hinv.configured hc).n_pos
  refine ⟨⟨_, _, exec_rotate_of_constructed hc false false k, exec_rotate_of_constructed ?_ false true k, ?_, ?_⟩,
    fun hk => ?_⟩
  · exact hc
  · exact rotated_right_left hinv.mem_wf hn _
  · have hwords := words_rotated_left (n := s.regs.n) hinv.mem_wf (modN (rotateOffset false k) s.regs.n)
    exact (List.Perm.of_eq hwords).trans (List.rotate_perm _ _)
  · have hturn : turned s true k = turned s false (-k) := rotated_right hn k s.w
    rw [exec_rotate_of_constructed hc, exec_rotate_of_constructed hc, rotateOffset_set, rotateOffset_set, if_neg hk,
      if_neg (neg_ne_zero.mpr hk), hturn]

/-- Settles O32: the two rotations are one by `rotated_left_left`. -/
theorem rotateComposes : Obligations.RotateComposes := by
  intro a b s hinv hc
  have hn := (hinv.configured hc).n_pos
  refine ⟨_, _, exec_rotate_of_constructed hc false false a, exec_rotate_of_constructed ?_ false false b, fun i hi => ?_⟩
  · exact hc
  · have hboth := rotated_left_left hinv.mem_wf hn (rotateOffset false a) (rotateOffset false b)
    rw [← rotateOffset_set a, ← rotateOffset_set b]
    exact (congrArg (Memory.read · i) hboth).trans (read_rotated_left hinv.mem_wf _ hi)

end Sys2Proof.Machine
end

section
/-! `lerp` (R110): exact rounding, with ties to the even value. -/

namespace Sys2Proof.Machine

/-- The 8-bit `lerp` of two channels of 0 to 255 given as numbers. -/
theorem toNat_lerp_ofNat {a b j d : Nat} (ha : a ≤ 255) (hb : b ≤ 255) (hj : j ≤ d) (hd : 1 ≤ d) :
    ((lerp (BitVec.ofNat 8 a) (BitVec.ofNat 8 b) j d).toNat : Int) = lerpInt a b j d := by
  have h := toNat_lerp (BitVec.ofNat 8 a) (BitVec.ofNat 8 b) hj hd
  rwa [BitVec.toNat_ofNat, BitVec.toNat_ofNat, Nat.mod_eq_of_lt (by omega), Nat.mod_eq_of_lt (by omega)] at h

/-- Settles O21: the ends and the constant case are exact quotients, the rest follows from the monotony of `rne`; the four ties
are evaluated. -/
theorem lerpLaws : Obligations.LerpLaws := by
  refine ⟨fun a b j d ha hb hj hd => ?_, by decide⟩
  obtain ⟨hlow, hhigh⟩ := lerpInt_bounds (a := a) (b := b) hj hd
  exact ⟨rfl, lerpInt_zero a b hd, lerpInt_self a b hd, lerpInt_same a j hd, hlow, hhigh,
    fun _ hjj' _ => lerpInt_mono hd hjj', toNat_lerp_ofNat ha hb hj hd⟩

end Sys2Proof.Machine
end

section
/-! LGRAD (R111): an equation for each outcome, and the words that the span then holds. `lerpColour true` is the interpolation
of all four channels. -/

namespace Sys2Proof.Machine

variable {s : State}

/-- Interpolating the W channel too changes no packed word: without C4 `Pack` does not read it. -/
theorem pack_lerpColour_true (s : State) (c4 : Bool) (a b : Colour) (j d : Nat) :
    s.pack c4 (lerpColour c4 a b j d) = s.pack c4 (lerpColour true a b j d) :=
  pack_lerpColour s c4 a b j d

theorem lerpColour_true_zero (a b : Colour) {d : Nat} (hd : 1 ≤ d) : lerpColour true a b 0 d = a := by
  simp [lerpColour, lerp_zero _ _ hd]

theorem lerpColour_true_self (a b : Colour) {d : Nat} (hd : 1 ≤ d) : lerpColour true a b d d = b := by
  simp [lerpColour, lerp_self _ _ hd]

theorem lerpColour_true_same (a : Colour) {j d : Nat} (hj : j ≤ d) (hd : 1 ≤ d) : lerpColour true a a j d = a := by
  simp [lerpColour, lerp_same _ hj hd]

/-- LGRAD with an index outside [0, N) (R111). -/
theorem exec_lgrad_of_outside (hc : s.cfg = true) {f l : Int}
    (h : f < 0 ∨ (s.regs.n : Int) ≤ f ∨ l < 0 ∨ (s.regs.n : Int) ≤ l) (c4 : Bool) (a b : Colour) :
    exec (.lgrad c4 f l a b) s = .next (s.respond .invalidRangeError 0#32) := by
  have hr : ¬ (s.inRange f && s.inRange l) = true := by
    rw [Bool.and_eq_true, inRange_iff, inRange_iff]
    omega
  simp only [exec, execLgrad, whenConstructed_true hc, if_neg hr, State.raise_eq]

/-- LGRAD with equal indices in [0, N): nothing is written (R111). -/
theorem exec_lgrad_of_equal (hc : s.cfg = true) {f : Int} (hf : 0 ≤ f ∧ f < s.regs.n) (c4 : Bool) (a b : Colour) :
    exec (.lgrad c4 f f a b) s = .next (s.respond .ok 0#32) := by
  have hr := (inRange_iff s f).2 hf
  simp only [exec, execLgrad, whenConstructed_true hc, hr, Bool.and_self, if_true, State.answer_eq]

/-- The array after an LGRAD whose indices differ and lie in [0, N) (R111). -/
def gradientStored (s : State) (c4 : Bool) (f l : Int) (a b : Colour) : Memory :=
  s.paint c4 a b (min f l).toNat (max f l).toNat s.w

theorem exec_lgrad_of_inside (hc : s.cfg = true) {f l : Int} (hf : 0 ≤ f ∧ f < s.regs.n) (hl : 0 ≤ l ∧ l < s.regs.n)
    (hne : f ≠ l) (c4 : Bool) (a b : Colour) :
    exec (.lgrad c4 f l a b) s = .next ((s.setW (gradientStored s c4 f l a b)).respond .ok 0#32) := by
  have hr : (s.inRange f && s.inRange l) = true := by
    rw [Bool.and_eq_true, inRange_iff, inRange_iff]
    exact ⟨hf, hl⟩
  simp only [exec, execLgrad, whenConstructed_true hc, if_pos hr, if_neg hne, State.answer_eq, gradientStored]

/-- Every test of LGRAD and its span are symmetric in the indices; the colours keep their places (R111). -/
theorem exec_lgrad_swap (c4 : Bool) (f l : Int) (a b : Colour) (s : State) :
    exec (.lgrad c4 f l a b) s = exec (.lgrad c4 l f a b) s := by
  simp only [exec, execLgrad, Bool.and_comm (State.inRange _ f), eq_comm (a := f), min_comm f, max_comm f]

theorem read_gradientStored_outside (hw : Memory.wf s.w = true) {f l : Int} (hf : 0 ≤ f) (hl : 0 ≤ l) (c4 : Bool)
    (a b : Colour) {i : Nat} (hi : (i : Int) < min f l ∨ max f l < (i : Int)) :
    Memory.read (gradientStored s c4 f l a b) i = Memory.read s.w i := by
  rw [gradientStored, read_paint hw _ _ _ _ (by omega), if_neg (by omega)]

/-- The pixel `j` places above the lower index of a span of width `d` (R111). -/
theorem read_gradientStored_inside (hw : Memory.wf s.w = true) {f l : Int} (hf : 0 ≤ f) (hl : 0 ≤ l) (c4 : Bool)
    (a b : Colour) {i j d : Nat} (hi : (i : Int) = min f l + j) (hd : (d : Int) = max f l - min f l) (hj : j ≤ d) :
    Memory.read (gradientStored s c4 f l a b) i = s.pack c4 (lerpColour true a b j d) := by
  have hij : i - (min f l).toNat = j := by omega
  have hdist : (max f l).toNat - (min f l).toNat = d := by omega
  rw [gradientStored, read_paint hw _ _ _ _ (by omega), if_pos (by omega), hij, hdist, pack_lerpColour_true]

/-- Settles O33: the span is `gradientStored`, read back inside and outside it. -/
theorem lgradEffect : Obligations.LgradEffect := by
  intro c4 f l a b s hw
  refine ⟨fun hc => congrArg _ (whenConstructed_false hc _), fun hc h => exec_lgrad_of_outside hc h c4 a b, ?_, ?_⟩
  · rintro hc hf0 hfn rfl
    exact exec_lgrad_of_equal hc ⟨hf0, hfn⟩ c4 a b
  · intro hc hf0 hfn hl0 hln hne
    exact ⟨_, exec_lgrad_of_inside hc ⟨hf0, hfn⟩ ⟨hl0, hln⟩ hne c4 a b,
      fun _ hi => read_gradientStored_outside hw hf0 hl0 c4 a b hi,
      fun _ _ _ hi hd hj => read_gradientStored_inside hw hf0 hl0 c4 a b hi hd hj⟩

/-- Settles O34: the end pixels are those at `j = 0` and `j = d`, where the interpolation is exact (R198). -/
theorem lgradSymmetryAndEnds : Obligations.LgradSymmetryAndEnds := by
  intro c4 f l a b s hw
  refine ⟨exec_lgrad_swap c4 f l a b s, fun hc hf hlt hl => ?_⟩
  have hrun := exec_lgrad_of_inside hc ⟨hf, by omega⟩ ⟨by omega, hl⟩ hlt.ne c4 a
  have hword : ∀ (b : Colour) (i : Nat), f ≤ (i : Int) → (i : Int) ≤ l →
      Memory.read (gradientStored s c4 f l a b) i = s.pack c4 (lerpColour true a b (i - f.toNat) (l - f).toNat) :=
    fun b i hfi hil => read_gradientStored_inside hw hf (by omega) c4 a b (by omega) (by omega) (by omega)
  have hd : 1 ≤ (l - f).toNat := by omega
  refine ⟨⟨_, hrun b, ?_, ?_⟩, _, hrun a, fun i hfi hil => ?_⟩
  · refine (hword b f.toNat (by omega) (by omega)).trans ?_
    rw [Nat.sub_self, lerpColour_true_zero a b hd]
  · refine (hword b l.toNat (by omega) (by omega)).trans ?_
    rw [show l.toNat - f.toNat = (l - f).toNat by omega, lerpColour_true_self a b hd]
  · refine (hword a i hfi hil).trans ?_
    rw [lerpColour_true_same a (by omega) hd]

end Sys2Proof.Machine
end

section
/-! SGRAD (R116, R117): when its plan is a list, and what the last segment that covers a pixel leaves there. -/

namespace Sys2Proof.Machine

variable {s : State} {segs pre post : List PlanSeg} {g : PlanSeg} {p : Nat} {cols : List Colour}

/-- The plan is invalid with an index outside [0, N) (R116 (P6)). -/
theorem sgradPlan_of_outside {n : Nat} {f l : Int} (h : f < 0 ∨ (n : Int) ≤ f ∨ l < 0 ∨ (n : Int) ≤ l) (q : Params)
    (cnt : Nat) (rev rainbow : Bool) : sgradPlan q n cnt f l rev rainbow = none :=
  if_neg (by omega)

/-- With indices in [0, N) the plan is what the open parameter gives, if that meets the constraints (R116, log 6). -/
theorem sgradPlan_eq_some_of_inside {n : Nat} {f l : Int} (h : 0 ≤ f ∧ f < n ∧ 0 ≤ l ∧ l < n) (q : Params)
    (cnt : Nat) (rev rainbow : Bool) (segs : List PlanSeg) : sgradPlan q n cnt f l rev rainbow = some segs ↔
      PlanGiven q ⟨n, cnt, f, l, rev, rainbow⟩ segs ∧ PlanMeets n cnt l rev rainbow segs := by
  rw [sgradPlan, if_pos h, ← rawPlan_eq_some, ← planOk_iff]
  cases rawPlan q ⟨n, cnt, f, l, rev, rainbow⟩ with
  | none => simp
  | some given =>
    simp only [Option.ite_none_right_eq_some, Option.some.injEq]
    constructor
    · rintro ⟨hok, rfl⟩
      exact ⟨rfl, hok⟩
    · rintro ⟨rfl, hok⟩
      exact ⟨hok, rfl⟩

/-- Settles O35: the range test of P6, then `sgradPlan_eq_some_of_inside`. -/
theorem sgradPlanConstraints : Obligations.SgradPlanConstraints := by
  intro q n cnt f l rev rainbow
  refine ⟨fun h => sgradPlan_of_outside h q cnt rev rainbow, fun segs => ⟨fun hp => ?_, ?_⟩⟩
  · obtain ⟨hf0, hfn, hl0, hln⟩ := (sgradPlan_some hp).1
    exact ⟨hf0, hfn, hl0, hln, (sgradPlan_eq_some_of_inside ⟨hf0, hfn, hl0, hln⟩ q cnt rev rainbow segs).1 hp⟩
  · rintro ⟨hf0, hfn, hl0, hln, hplan⟩
    exact (sgradPlan_eq_some_of_inside ⟨hf0, hfn, hl0, hln⟩ q cnt rev rainbow segs).2 hplan

/-- SGRAD with an invalid plan (R117). -/
theorem exec_sgrad_of_invalid (hc : s.cfg = true) {rev rbw : Bool} {f l : Int}
    (hp : sgradPlan s.params s.regs.n cols.length f l rev (rainbowEff rbw cols.length) = none) (c4 : Bool) :
    exec (.sgrad c4 rev rbw f l cols) s = .next (s.respond .invalidRangeError 0#32) := by
  simp only [exec, execSgrad, whenConstructed_true hc, hp, State.raise_eq]

/-- SGRAD with a plan: its segments are painted in order (R117). -/
theorem exec_sgrad_of_plan (hc : s.cfg = true) {rev rbw : Bool} {f l : Int}
    (hp : sgradPlan s.params s.regs.n cols.length f l rev (rainbowEff rbw cols.length) = some segs) (c4 : Bool) :
    exec (.sgrad c4 rev rbw f l cols) s =
      .next ((s.setW (segs.foldl (s.paintSeg c4 cols) s.w)).respond .ok 0#32) := by
  simp only [exec, execSgrad, whenConstructed_true hc, hp, State.answer_eq]

/-- The colour that a segment puts on a pixel it covers, before `Pack` (R117). -/
def segColour (cols : List Colour) (g : PlanSeg) (p : Nat) : Colour :=
  lerpColour true (colourAt cols (if g.fwd then g.k else (g.k + 1) % cols.length))
    (colourAt cols (if g.fwd then (g.k + 1) % cols.length else g.k)) (p - g.lo) (g.hi - g.lo)

/-- A pixel holds what the last segment that covers it puts there: later segments overwrite earlier ones (R117). -/
theorem read_paintPlan_of_last (hw : Memory.wf s.w = true) (c4 : Bool) (cols : List Colour)
    (hb : ∀ g' ∈ pre ++ g :: post, g'.lo ≤ g'.hi) (hg : Covers g p) (hpost : ∀ g' ∈ post, ¬ Covers g' p) :
    Memory.read ((pre ++ g :: post).foldl (s.paintSeg c4 cols) s.w) p = s.pack c4 (segColour cols g p) := by
  rw [List.forall_mem_append, List.forall_mem_cons] at hb
  obtain ⟨-, hgb, hpostb⟩ := hb
  have hwpre := wf_paintPlan pre hw s c4 cols
  rw [List.foldl_append, List.foldl_cons,
    read_paintPlan_of_not_covered post (wf_paintSeg hwpre s c4 cols g) s c4 cols hpostb p hpost,
    (read_paintSeg hwpre s c4 cols hgb p).2 hg, pack_lerpColour_true, segColour]

/-- A pixel is covered by no segment, or one of those that cover it is the last. -/
theorem exists_last_covering (segs : List PlanSeg) (p : Nat) : (∀ g ∈ segs, ¬ Covers g p) ∨
    ∃ pre g post, segs = pre ++ g :: post ∧ Covers g p ∧ ∀ g' ∈ post, ¬ Covers g' p := by
  induction segs with
  | nil => exact .inl (by simp)
  | cons x xs ih =>
    rcases ih with hnone | ⟨pre, g, post, rfl, hg, hpost⟩
    · by_cases hx : Covers x p
      · exact .inr ⟨[], x, xs, rfl, hx, hnone⟩
      · exact .inl (List.forall_mem_cons.2 ⟨hx, hnone⟩)
    · exact .inr ⟨x :: pre, g, post, rfl, hg, hpost⟩

/-- The colour of a segment in its direction: from `ca` at its lower index to `cb` at its higher one. -/
theorem segColour_eq {ca cb : Colour} (h0 : cols[g.k]? = some (if g.fwd then ca else cb))
    (h1 : cols[(g.k + 1) % cols.length]? = some (if g.fwd then cb else ca)) (p : Nat) :
    segColour cols g p = lerpColour true ca cb (p - g.lo) (g.hi - g.lo) := by
  cases hfwd : g.fwd <;> simp [segColour, hfwd, colourAt_of_getElem? h0, colourAt_of_getElem? h1]

/-- Settles O36: the word of a covered pixel is that of the last segment that covers it. -/
theorem sgradEffect : Obligations.SgradEffect := by
  intro c4 rev rbw f l cols s hw
  refine ⟨fun hc => congrArg _ (whenConstructed_false hc _), ?_⟩
  rintro hc _ rfl
  refine ⟨fun hp => exec_sgrad_of_invalid hc hp c4, fun segs hp => ?_⟩
  have hb : ∀ g ∈ segs, g.lo ≤ g.hi := fun g hg => (planOk_bounds (sgradPlan_some hp).2 g hg).2.1
  refine ⟨_, exec_sgrad_of_plan hc hp c4, fun p => read_paintPlan_of_not_covered segs hw s c4 cols hb p, ?_⟩
  rintro pre post g p ca cb rfl hg hpost h0 h1
  rw [State.setW_w, read_paintPlan_of_last hw c4 cols hb hg hpost, segColour_eq h0 h1]
  rfl

theorem Between.symm {c a b : Colour} (h : Between c a b) : Between c b a := fun ch => by
  rw [min_comm, max_comm]
  exact h ch

/-- An interpolated colour lies between the two (R110). -/
theorem lerpColour_true_between (a b : Colour) {j d : Nat} (hj : j ≤ d) (hd : 1 ≤ d) :
    Between (lerpColour true a b j d) a b := by
  intro ch
  cases ch <;> exact lerp_between _ _ hj hd

/-- A segment interpolates between two neighbouring colours of the list, whatever its direction (R117). -/
theorem segColour_between (cols : List Colour) (hg : Covers g p) :
    Between (segColour cols g p) (colourAt cols g.k) (colourAt cols ((g.k + 1) % cols.length)) := by
  obtain ⟨hlt, hlo, hhi⟩ := hg
  have hbetween (a b : Colour) : Between (lerpColour true a b (p - g.lo) (g.hi - g.lo)) a b :=
    lerpColour_true_between a b (by omega) (by omega)
  cases hfwd : g.fwd <;> simp only [segColour, hfwd, if_true, Bool.false_eq_true, if_false]
  · exact (hbetween _ _).symm
  · exact hbetween _ _

theorem getElem?_eq_colourAt {k : Nat} (hk : k < cols.length) : cols[k]? = some (colourAt cols k) := by
  simp [colourAt, hk]

theorem Between.eq_of_same {c a : Colour} (h : Between c a a) : c = a := by
  have heq (ch : Chan) : c.get ch = a.get ch := BitVec.eq_of_toNat_eq (by have := h ch; omega)
  cases c
  cases a
  simp only [Colour.mk.injEq]
  exact ⟨heq .r, heq .g, heq .b, heq .w⟩

/-- After a plan a pixel is as it was, or holds `Pack` of a colour between two neighbouring colours of the list. -/
theorem read_paintPlan_between (hw : Memory.wf s.w = true) (c4 : Bool)
    (hb : ∀ g ∈ segs, g.k < cols.length ∧ g.lo ≤ g.hi) (p : Nat) :
    Memory.read (segs.foldl (s.paintSeg c4 cols) s.w) p = Memory.read s.w p ∨
    ∃ (k : Nat) (c ca cb : Colour), cols[k]? = some ca ∧ cols[(k + 1) % cols.length]? = some cb ∧ Between c ca cb ∧
      Memory.read (segs.foldl (s.paintSeg c4 cols) s.w) p = s.pack c4 c := by
  have hord : ∀ g ∈ segs, g.lo ≤ g.hi := fun g hg => (hb g hg).2
  rcases exists_last_covering segs p with hnone | ⟨pre, g, post, rfl, hg, hpost⟩
  · exact .inl (read_paintPlan_of_not_covered segs hw s c4 cols hord p hnone)
  · have hk : g.k < cols.length := (hb g (by simp)).1
    exact .inr ⟨g.k, _, _, _, getElem?_eq_colourAt hk, getElem?_eq_colourAt (Nat.mod_lt _ (by omega)),
      segColour_between cols hg, read_paintPlan_of_last hw c4 cols hord hg hpost⟩

/-- Settles O37: a word that SGRAD changes is that of a segment of its plan, which lies between two neighbouring colours; if
they are equal, it is their colour. -/
theorem sgradWithoutPlan : Obligations.SgradWithoutPlan := by
  intro c4 rev rbw f l cols a s hw hc
  cases hp : sgradPlan s.params s.regs.n cols.length f l rev (rainbowEff rbw cols.length) with
  | none =>
    exact ⟨s.w, .invalidRangeError, exec_sgrad_of_invalid hc hp c4, .inr rfl, fun _ => rfl, fun _ => rfl, fun _ _ => rfl,
      fun _ => .inl rfl, fun _ _ => .inl rfl⟩
  | some segs =>
    have hb := planOk_bounds (sgradPlan_some hp).2
    have hwords := read_paintPlan_between hw c4 fun g hg => ⟨(hb g hg).1, (hb g hg).2.1⟩
    refine ⟨_, .ok, exec_sgrad_of_plan hc hp c4, .inl rfl, fun hout => ?_, by simp,
      (StoresWords.plan c4 cols segs fun g hg => (hb g hg).2).outside hw, hwords, fun hall p => ?_⟩
    · rw [sgradPlan_of_outside hout] at hp
      cases hp
    · refine (hwords p).imp_right ?_
      rintro ⟨k, c, ca, cb, hca, hcb, hbetween, hword⟩
      obtain rfl := hall ca (List.mem_of_getElem? hca)
      obtain rfl := hall cb (List.mem_of_getElem? hcb)
      rw [State.setW_w, hword, hbetween.eq_of_same]

end Sys2Proof.Machine
end

section
/-! The frame as bits (R33, R131), and what its level segments are and last (R132, R133, R140). -/

namespace Sys2Proof.Machine

variable {s : State}

/-- Settles O38: the waveforms are `symbolSegs` itself, and `timing` picks the triple of the profile. -/
theorem symbolWaveforms : Obligations.SymbolWaveforms := by
  refine ⟨fun t => ⟨rfl, rfl, fun _ => rfl, ?_, ?_⟩, fun s h => ?_, fun s h => ?_⟩
  · exact bit_ticks t false
  · exact bit_ticks t true
  · rw [State.timing, h]; rfl
  · rw [State.timing, h]

/-- Blocks of one length `c`, joined, are as long as their number times `c`. -/
theorem length_flatMap_of_const {α β : Type} (f : α → List β) {c : Nat} (l : List α) (hf : ∀ x ∈ l, (f x).length = c) :
    (l.flatMap f).length = l.length * c := by
  rw [List.length_flatMap, List.map_congr_left hf, List.map_const', List.sum_replicate, smul_eq_mul]

/-- Item `j` of block `i` of blocks of one length `c`, joined. -/
theorem getElem?_flatMap_of_const {α β : Type} (f : α → List β) {c j : Nat} (hf : ∀ x, (f x).length = c) (hj : j < c)
    (l : List α) (i : Nat) : (l.flatMap f)[i * c + j]? = l[i]?.bind fun x => (f x)[j]? := by
  induction l generalizing i with
  | nil => rfl
  | cons x l ih =>
    rw [List.flatMap_cons]
    cases i with
    | zero => rw [Nat.zero_mul, Nat.zero_add, List.getElem?_append_left (by rwa [hf])]; rfl
    | succ i =>
      rw [List.getElem?_append_right (by rw [hf, Nat.succ_mul]; omega), hf,
        show (i + 1) * c + j - c = i * c + j by rw [Nat.succ_mul]; omega, ih]
      rfl

@[simp] theorem length_wordBits (bpw : Nat) (x : Word) : (wordBits bpw x).length = bpw := by simp [wordBits]

/-- Bit `b` of a word is sent after the `BPW - 1 - b` bits above it (R131). -/
theorem getElem?_wordBits {bpw b : Nat} (hb : b < bpw) (x : Word) : (wordBits bpw x)[bpw - 1 - b]? = some (x.getLsbD b) := by
  rw [wordBits, List.getElem?_map, List.getElem?_range (by omega), Option.map_some, Nat.sub_sub_self (by omega)]

/-- The bits of a frame in the order in which they are sent (R33, R131). -/
def State.frameBits (s : State) : List Bool :=
  (List.range s.regs.n).flatMap fun i => wordBits s.regs.bpw (Memory.read s.w i)

theorem frame_eq_map (s : State) : s.frame = s.frameBits.map bitSymbol := rfl

theorem length_frame (s : State) : s.frame.length = s.regs.n * s.regs.bpw := by
  rw [frame_eq_map, List.length_map, State.frameBits, length_flatMap_of_const _ _ fun _ _ => length_wordBits _ _,
    List.length_range]

/-- The place of a bit in its frame: words in rising index, bit `BPW - 1` of each first (R33, R131). -/
def bitPlace (bpw idx bit : Nat) : Nat := idx * bpw + (bpw - 1 - bit)

theorem bitPlace_lt {n bpw idx bit : Nat} (hi : idx < n) (hb : bit < bpw) : bitPlace bpw idx bit < n * bpw := by
  have hle : (idx + 1) * bpw ≤ n * bpw := Nat.mul_le_mul_right _ hi
  rw [Nat.succ_mul] at hle
  unfold bitPlace
  omega

/-- The places of successive bits follow each other: in a word, from word to word, and at the end of the frame. -/
theorem bitPlace_pred_bit {bpw bit : Nat} (idx : Nat) (hpos : 0 < bit) (hb : bit < bpw) :
    bitPlace bpw idx (bit - 1) = bitPlace bpw idx bit + 1 := by
  unfold bitPlace
  omega

theorem bitPlace_next_word {bpw : Nat} (idx : Nat) (hb : 0 < bpw) :
    bitPlace bpw (idx + 1) (bpw - 1) = bitPlace bpw idx 0 + 1 := by
  simp only [bitPlace, Nat.succ_mul]
  omega

theorem bitPlace_last {n bpw idx : Nat} (hi : idx + 1 = n) (hb : 0 < bpw) : bitPlace bpw idx 0 + 1 = n * bpw := by
  subst hi
  simp only [bitPlace, Nat.succ_mul]
  omega

theorem frame_getElem?_bitPlace {idx bit : Nat} (hi : idx < s.regs.n) (hb : bit < s.regs.bpw) :
    s.frame[bitPlace s.regs.bpw idx bit]? = some (bitSymbol ((Memory.read s.w idx).getLsbD bit)) := by
  rw [frame_eq_map, List.getElem?_map, State.frameBits, bitPlace,
    getElem?_flatMap_of_const _ (fun _ => length_wordBits _ _) (by omega), List.getElem?_range hi, Option.bind_some,
    getElem?_wordBits hb, Option.map_some]

/-- Settles O39: the frame is `N` blocks of `BPW` bits, and `frame_getElem?_bitPlace` finds a bit in its block. -/
theorem frameBits : Obligations.FrameBits :=
  fun s => ⟨length_frame s, fun _ _ hi hb => frame_getElem?_bitPlace hi hb⟩

theorem latch_not_mem_frame (s : State) (d : Nat) : .latch d ∉ s.frame := by
  rw [frame_eq_map, List.mem_map]
  rintro ⟨b, -, hb⟩
  cases b <;> cases hb

@[simp] theorem ticksOf_append (l k : List LevelSeg) : ticksOf (l ++ k) = ticksOf l + ticksOf k := by simp [ticksOf]

@[simp] theorem ticksOf_cons (g : LevelSeg) (gs : List LevelSeg) : ticksOf (g :: gs) = g.ticks + ticksOf gs := by
  simp [ticksOf]

@[simp] theorem segsOf_cons (t : Timing) (x : Symbol) (xs : List Symbol) :
    segsOf t (x :: xs) = symbolSegs t x ++ segsOf t xs := rfl

@[simp] theorem segsOf_append (t : Timing) (xs ys : List Symbol) : segsOf t (xs ++ ys) = segsOf t xs ++ segsOf t ys := by
  simp [segsOf]

@[simp] theorem segsOf_latch (t : Timing) (d : Nat) : segsOf t [.latch d] = [⟨false, d⟩] := rfl

/-- The waveform of a bit, whatever its value (R132). -/
@[simp] theorem symbolSegs_bitSymbol (t : Timing) (b : Bool) :
    symbolSegs t (bitSymbol b) = [⟨true, bitHi t b⟩, ⟨false, bitLo t b⟩] := by
  cases b <;> rfl

/-- Bit symbols last `T1 + T2 + T3` ticks each. -/
theorem ticksOf_segsOf_bits (t : Timing) (bits : List Bool) :
    ticksOf (segsOf t (bits.map bitSymbol)) = bits.length * (t.t1 + t.t2 + t.t3) := by
  induction bits with
  | nil => rw [List.length_nil, Nat.zero_mul]; rfl
  | cons b bits ih =>
    have := bit_ticks t b
    simp only [List.map_cons, segsOf_cons, symbolSegs_bitSymbol, ticksOf_append, ih, List.length_cons, Nat.succ_mul,
      ticksOf_cons, show ticksOf [] = 0 from rfl]
    omega

/-- What is left of a frame after `j` symbols lasts `T1 + T2 + T3` ticks for each symbol left. -/
theorem ticksOf_segsOf_drop_frame (t : Timing) (s : State) (j : Nat) :
    ticksOf (segsOf t (s.frame.drop j)) = (s.regs.n * s.regs.bpw - j) * (t.t1 + t.t2 + t.t3) := by
  rw [← length_frame s, ← List.length_drop, frame_eq_map, ← List.map_drop, ticksOf_segsOf_bits, List.length_map]

/-- The level segments of a SHOW that goes through: those of its frame and of its latch (R131, R133). -/
def State.showSegs (s : State) : List LevelSeg := segsOf s.timing (s.frame ++ [.latch s.regs.rdly.toNat])

/-- They last as long as R140 says. -/
theorem ticksOf_showSegs (s : State) : ticksOf s.showSegs = s.showTicks := by
  rw [State.showSegs, segsOf_append, ticksOf_append, segsOf_latch, ← List.drop_zero (l := s.frame),
    ticksOf_segsOf_drop_frame]
  rfl

end Sys2Proof.Machine
end

section
/-! SHOW in one blocking step (R130, R136, R140): `exec` is `showSymbols` on a constructed block in symbol grain. -/

namespace Sys2Proof.Machine

variable {s : State}

theorem exec_showFrame_of_symbol (hc : s.cfg = true) (hg : s.grain = .symbol) : exec .showFrame s = .next (showSymbols s) := by
  simp [exec, execShow, whenConstructed_true hc, hg]

theorem exec_showFrame_of_tick (hc : s.cfg = true) (hg : s.grain = .tick) : exec .showFrame s = .next (acceptShow s) := by
  simp [exec, execShow, whenConstructed_true hc, hg]

/-- Settles O40: CmdError by the life-cycle guard, the rest by the equations of `showSymbols`. -/
theorem showSendsFrame : Obligations.ShowSendsFrame := by
  intro s
  refine ⟨fun hc => ?_, fun m late hc hg hio => ?_, fun hc hg hio => ?_⟩
  · exact congrArg Host.Outcome.next (whenConstructed_false hc _)
  · refine ⟨_, exec_showFrame_of_symbol hc hg, ?_⟩
    rw [showSymbols_fail hio]
    refine ⟨rfl, rfl, rfl, fun d hd => latch_not_mem_frame s d (List.mem_of_mem_take (i := m) ?_)⟩
    rwa [List.drop_left] at hd
  · exact ⟨s.releaseTx.tx, s.freeCtr + 1, rfl, by rw [exec_showFrame_of_symbol hc hg, showSymbols_sent hio]⟩

/-- Settles O41: what is sent are the first `m` symbols of the frame. -/
theorem showFails : Obligations.ShowFails := by
  intro s m late hc hg hio hm
  refine ⟨s.frame.take m, s.releaseTx.tx, s.freeCtr + 1, ?_, List.take_prefix _ _, rfl, ?_⟩
  · rw [List.length_take, length_frame, Nat.min_eq_left hm]
  · rw [exec_showFrame_of_symbol hc hg, showSymbols_fail hio]

/-- Settles O42: the segments added are `showSegs`, and `ticksOf_showSegs` is their length. -/
theorem showDuration : Obligations.ShowDuration := by
  intro s t hc hg hio he
  obtain rfl : showSymbols s = t := by simpa [exec_showFrame_of_symbol hc hg] using he
  refine ⟨s.showSegs, ?_, ticksOf_showSegs s⟩
  rw [showSymbols_sent hio, State.showSegs, segsOf_append, segsOf_latch]
  exact List.append_assoc _ _ _

end Sys2Proof.Machine
end

section
/-! What the tick machine still has to do (R139): the levels that the line will show, tick by tick, and the symbols that are
out. -/

namespace Sys2Proof.Machine

variable {s t : State}

/-- The levels of a trace, one for each tick (R133). -/
def levels (segs : List LevelSeg) : List Bool := segs.flatMap fun g => List.replicate g.ticks g.level

theorem levels_cons (g : LevelSeg) (gs : List LevelSeg) : levels (g :: gs) = List.replicate g.ticks g.level ++ levels gs := rfl

theorem levels_cons_succ (b : Bool) (c : Nat) (gs : List LevelSeg) :
    levels (⟨b, c + 1⟩ :: gs) = b :: levels (⟨b, c⟩ :: gs) := rfl

theorem length_levels (segs : List LevelSeg) : (levels segs).length = ticksOf segs := by
  induction segs with
  | nil => rfl
  | cons g gs ih => rw [levels_cons, List.length_append, List.length_replicate, ih, ticksOf_cons]

/-- `level_at` reads the levels, idle low beyond their end (R133). -/
theorem levelAt_eq (segs : List LevelSeg) (k : Nat) : levelAt segs k = (levels segs)[k]?.getD false := by
  induction segs generalizing k with
  | nil => rfl
  | cons g gs ih =>
    rw [levelAt, levels_cons]
    split_ifs with hk
    · rw [List.getElem?_append_left (by simpa using hk), List.getElem?_replicate_of_lt hk]
      rfl
    · rw [List.getElem?_append_right (by simpa using hk), List.length_replicate, ih]

/-- The bit symbols of the frame that are out (R131, R139). -/
def sentBits (s : State) : Nat :=
  match s.tx.phase with
  | .high | .low => bitPlace s.regs.bpw s.tx.idx s.tx.bit
  | .idle | .latch => s.regs.n * s.regs.bpw

/-- The segments of the symbols that follow the present bit. -/
def segsAfterBit (s : State) : List LevelSeg :=
  segsOf s.timing (s.frame.drop (sentBits s + 1) ++ [.latch s.regs.rdly.toNat])

/-- The segments that follow the present phase. -/
def segsAfterPhase (s : State) : List LevelSeg :=
  match s.tx.phase with
  | .high => ⟨false, bitLo s.timing (s.tx.sr.getLsbD s.tx.bit)⟩ :: segsAfterBit s
  | .low => segsAfterBit s
  | .idle | .latch => []

/-- The segments still to come, the rest of the present phase first. -/
def segsAhead (s : State) : List LevelSeg :=
  if s.tx.phase = .idle then [] else ⟨lineLevel s.tx.phase, s.tx.cnt⟩ :: segsAfterPhase s

/-- The levels that the line still has to show, one for each tick to the end of the SHOW. -/
def levelsAhead (s : State) : List Bool := levels (segsAhead s)

theorem TxConsistent.cnt_pos (h : TxConsistent s) (hp : s.tx.phase ≠ .idle) : 1 ≤ s.tx.cnt := by
  cases hph : s.tx.phase with
  | idle => exact absurd hph hp
  | high => obtain ⟨-, -, -, hcnt⟩ := h.sending (.inl hph); exact hcnt
  | low => obtain ⟨-, -, -, hcnt⟩ := h.sending (.inr hph); exact hcnt
  | latch => obtain ⟨-, hcnt, -⟩ := h.latching hph; exact hcnt

theorem TxConsistent.busy_of_phase (h : TxConsistent s) (hp : s.tx.phase ≠ .idle) : s.busy = true := by
  cases hb : s.busy
  · exact absurd (h.phase_idle hb) hp
  · rfl

theorem TxConsistent.phase_of_busy (h : TxConsistent s) (hb : s.busy = true) : s.tx.phase ≠ .idle := by
  intro hp
  have hbusy := h.busy_eq
  rw [hb, hp] at hbusy
  cases hbusy

theorem levelsAhead_of_phase (h : TxConsistent s) (hp : s.tx.phase ≠ .idle) :
    levelsAhead s = levels (⟨s.line, s.tx.cnt⟩ :: segsAfterPhase s) := by
  rw [levelsAhead, segsAhead, if_neg hp, h.line_eq]

/-- The first of the levels to come is the line's: the count of the present phase goes down by one. -/
theorem levelsAhead_eq_cons (h : TxConsistent s) (hp : s.tx.phase ≠ .idle) :
    levelsAhead s = s.line :: levels (⟨s.line, s.tx.cnt - 1⟩ :: segsAfterPhase s) := by
  rw [levelsAhead_of_phase h hp, ← levels_cons_succ, Nat.sub_add_cancel (h.cnt_pos hp)]

/-- The symbol that the present tick completes is in the traces (R133, log 12). -/
def completed (s : State) : State := if s.tx.phase = .low ∧ s.tx.cnt ≤ 1 then emitBit s else s

theorem completed_same (s : State) : SameBlock s (completed s) := by
  unfold completed
  split_ifs
  · exact emitBit_same s
  · exact .refl s

/-- The bit symbols that are out when the present tick is over. -/
def bitsAfter (s : State) : Nat := if s.tx.phase = .low ∧ s.tx.cnt ≤ 1 then sentBits s + 1 else sentBits s

/-- The tick of the report ends the SHOW, with the symbol that it completes (R136, log 12). -/
theorem tick_of_report {left : Nat} (hp : s.tx.phase ≠ .idle) (hf : s.tx.fail = some left) (hl : left ≤ 1) :
    tick s = endFailed (completed s) := by
  rw [tick, if_neg hp, hf]
  exact if_pos hl

/-- A state without the transmitter's registers and what follows its phase. -/
def State.eraseTx (s : State) : State := { s with tx := State.reset.tx, line := false, busy := false }

/-- The end of a SHOW overwrites the transmitter (R130, R136). -/
theorem endSent_of_eraseTx_eq (h : s.eraseTx = t.eraseTx) : endSent s = endSent t :=
  show endSent s.eraseTx = endSent t.eraseTx by rw [h]

theorem endFailed_of_eraseTx_eq (h : s.eraseTx = t.eraseTx) : endFailed s = endFailed t :=
  show endFailed s.eraseTx = endFailed t.eraseTx by rw [h]

theorem emit_eraseTx_of_eq (h : s.eraseTx = t.eraseTx) (syms : List Symbol) : (s.emit syms).eraseTx = (t.emit syms).eraseTx :=
  show s.eraseTx.emit syms = t.eraseTx.emit syms by rw [h]

/-- How a SHOW goes on from `x`, when `sent` bit symbols are out and the levels `lv` are to come: with `t` in the middle of it,
or with `t` at its end. -/
inductive Continues (x : State) (sent : Nat) (lv : List Bool) (t : State) : Prop where
  | goesOn (phase : t.tx.phase ≠ .idle) (fail : t.tx.fail = x.tx.fail) (levels : levelsAhead t = lv) (sent : sentBits t = sent)
      (rest : t.eraseTx = x.eraseTx)
  | ends (levels : lv = []) (sent : sent = x.regs.n * x.regs.bpw) (state : t = endSent x)

/-- What was sent before counts, not where the transmitter stands. -/
theorem Continues.of_eraseTx_eq {x y : State} {sent : Nat} {lv : List Bool} (h : Continues x sent lv t)
    (he : x.eraseTx = y.eraseTx) (hf : x.tx.fail = y.tx.fail) : Continues y sent lv t := by
  have hregs : x.regs = y.regs := show x.eraseTx.regs = y.eraseTx.regs by rw [he]
  cases h with
  | goesOn phase fail levels sent rest => exact .goesOn phase (fail.trans hf) levels sent (rest.trans he)
  | ends levels sent state => exact .ends levels (hregs ▸ sent) (state.trans (endSent_of_eraseTx_eq he))

/-- The levels of a bit that starts are those of the frame from its place on. -/
theorem segsAhead_startBit {idx bit : Nat} (hi : idx < s.regs.n) (hb : bit < s.regs.bpw) :
    segsAhead (startBit idx bit (Memory.read s.w idx) s) =
      segsOf s.timing (s.frame.drop (bitPlace s.regs.bpw idx bit) ++ [.latch s.regs.rdly.toNat]) := by
  rw [List.drop_eq_getElem?_toList_append, frame_getElem?_bitPlace hi hb]
  simp only [Option.toList_some, List.cons_append, segsOf_cons, symbolSegs_bitSymbol]
  rfl

/-- A bit that starts continues a SHOW whose earlier symbols are out. -/
theorem startBit_continues {idx bit sent : Nat} (hi : idx < s.regs.n) (hb : bit < s.regs.bpw)
    (hs : bitPlace s.regs.bpw idx bit = sent) :
    Continues s sent (levels (segsOf s.timing (s.frame.drop sent ++ [.latch s.regs.rdly.toNat])))
      (startBit idx bit (Memory.read s.w idx) s) :=
  .goesOn nofun rfl (by rw [levelsAhead, segsAhead_startBit hi hb, hs]) hs rfl

/-- After a bit: the next bit of its word, the next word, or what follows the frame. -/
theorem nextBit_continues (ha : AtBit s) :
    Continues s (bitPlace s.regs.bpw s.tx.idx s.tx.bit + 1)
      (levels (segsOf s.timing (s.frame.drop (bitPlace s.regs.bpw s.tx.idx s.tx.bit + 1) ++ [.latch s.regs.rdly.toNat])))
      (nextBit s) := by
  obtain ⟨hidx, hbit, hsr⟩ := ha
  simp only [nextBit]
  split_ifs with hmore hword hlatch
  · rw [hsr]
    exact startBit_continues hidx (by omega) (bitPlace_pred_bit _ hmore hbit)
  · rw [Nat.eq_zero_of_not_pos hmore]
    exact startBit_continues hword (by omega) (bitPlace_next_word _ (by omega))
  all_goals
    have hlast : s.tx.idx + 1 = s.regs.n := by omega
    rw [Nat.eq_zero_of_not_pos hmore, bitPlace_last hlast (by omega), ← length_frame, List.drop_length]
  · exact .goesOn nofun rfl rfl (length_frame s).symm rfl
  · have hd : s.regs.rdly.toNat = 0 := Nat.eq_zero_of_not_pos hlatch
    exact .ends (by rw [hd]; rfl) (length_frame s) rfl

/-- The end of a phase, from the state in which its symbol, if it completes one, is in the traces. -/
theorem phaseEnd_continues (h : s.tx.phase = .high ∨ s.tx.phase = .low → AtBit s) (hp : s.tx.phase ≠ .idle) :
    Continues (if s.tx.phase = .low then emitBit s else s) (if s.tx.phase = .low then sentBits s + 1 else sentBits s)
      (levels (segsAfterPhase s)) (phaseEnd s.tx.phase s) := by
  cases hph : s.tx.phase with
  | idle => exact absurd hph hp
  | high =>
    simp only [segsAfterPhase, sentBits, hph, reduceCtorEq, if_false, phaseEnd]
    exact .goesOn nofun rfl (by simp only [segsAfterBit, sentBits, hph]; rfl) rfl rfl
  | low =>
    simp only [segsAfterPhase, segsAfterBit, sentBits, hph, if_true, phaseEnd]
    exact nextBit_continues (s := emitBit s) (h (.inr hph))
  | latch =>
    simp only [segsAfterPhase, sentBits, hph, reduceCtorEq, if_false, phaseEnd]
    exact .ends rfl rfl rfl

/-- A tick with no report uses up the first of the levels to come. -/
theorem tick_continues (h : TxConsistent s) (hp : s.tx.phase ≠ .idle) (hf : ∀ left, s.tx.fail = some left → 1 < left) :
    Continues ((completed s).setFail (s.tx.fail.map (· - 1))) (bitsAfter s) (levelsAhead s).tail (tick s) := by
  rw [levelsAhead_eq_cons h hp, List.tail_cons, completed, bitsAfter]
  by_cases hc : 1 < s.tx.cnt
  · rw [tick_count hp hc hf, if_neg (by omega), if_neg (by omega)]
    refine .goesOn hp rfl ?_ rfl rfl
    exact levelsAhead_of_phase ((h.setCnt (c := s.tx.cnt - 1) (by omega) (by omega)).setFail _) hp
  · have hone : s.tx.cnt = 1 := by have := h.cnt_pos hp; omega
    have hend := phaseEnd_continues (s := (s.setCnt 0).setFail (s.tx.fail.map (· - 1))) h.atBit hp
    rw [tick_end hp hone.le hf, hone]
    simp only [le_refl, and_true]
    refine hend.of_eraseTx_eq ?_ ?_
    · change (if s.tx.phase = .low then _ else _ : State).eraseTx = _
      split_ifs <;> rfl
    · change (if s.tx.phase = .low then _ else _ : State).tx.fail = _
      split_ifs <;> rfl

end Sys2Proof.Machine
end

section
/-! The time since the acceptance of SHOW (R139, R140): how many symbols are out after how many ticks, and what the tick machine
has done of the SHOW then. -/

namespace Sys2Proof.Machine

variable {s u : State} {fail : Option Nat} {k : Nat}

/-- The ticks of one bit symbol (R132). -/
def bitTicks (t : Timing) : Nat := t.t1 + t.t2 + t.t3

theorem bitTicks_pos {t : Timing} (h : Timing.Positive t) : 0 < bitTicks t := by
  have := h.t1_pos
  unfold bitTicks
  omega

theorem TxConsistent.sentBits_lt (h : TxConsistent s) (hp : s.tx.phase = .high ∨ s.tx.phase = .low) :
    sentBits s < s.regs.n * s.regs.bpw := by
  obtain ⟨hidx, hbit, -⟩ := h.atBit hp
  have hlt := bitPlace_lt hidx hbit
  rcases hp with hp | hp <;> simpa only [sentBits, hp] using hlt

theorem ticksOf_segsAfterBit (s : State) :
    ticksOf (segsAfterBit s) = (s.regs.n * s.regs.bpw - (sentBits s + 1)) * bitTicks s.timing + s.regs.rdly.toNat := by
  rw [segsAfterBit, segsOf_append, ticksOf_append, ticksOf_segsOf_drop_frame]
  rfl

/-- In the middle of a bit, `e` of its ticks are over, and the time to come is that of the SHOW but for the symbols out and
these. At the last tick of the bit its low part ends. -/
theorem length_levelsAhead_of_bit (hpar : Params.InRange s.params) (h : TxConsistent s)
    (hp : s.tx.phase = .high ∨ s.tx.phase = .low) :
    ∃ e, e < bitTicks s.timing ∧ (levelsAhead s).length + (sentBits s * bitTicks s.timing + e) = s.showTicks ∧
      (e + 1 = bitTicks s.timing ↔ s.tx.phase = .low ∧ s.tx.cnt ≤ 1) := by
  obtain ⟨r, hr⟩ := Nat.exists_eq_add_of_le (h.sentBits_lt hp)
  have hshow : s.showTicks = sentBits s * bitTicks s.timing + bitTicks s.timing + r * bitTicks s.timing + s.regs.rdly.toNat := by
    rw [← Nat.succ_mul, ← Nat.add_mul, ← hr]
    rfl
  have hafter := ticksOf_segsAfterBit s
  rw [hr, Nat.succ_eq_add_one, Nat.add_sub_cancel_left] at hafter
  have hbit := bit_ticks s.timing (s.tx.sr.getLsbD s.tx.bit)
  have hlo := bitLo_pos (timing_positive hpar) (s.tx.sr.getLsbD s.tx.bit)
  obtain ⟨-, -, -, hcnt⟩ := h.sending hp
  rw [← bitTicks] at hbit
  rw [levelsAhead, length_levels, segsAhead, hshow]
  rcases hp with hp | hp
  · have hle := h.high_cnt hp
    refine ⟨bitHi s.timing (s.tx.sr.getLsbD s.tx.bit) - s.tx.cnt, by omega, ?_, ?_⟩
    · simp only [hp, segsAfterPhase, reduceCtorEq, if_false, ticksOf_cons, hafter]
      omega
    · simp only [hp, reduceCtorEq, false_and, iff_false]
      omega
  · have hle := h.low_cnt hp
    refine ⟨bitTicks s.timing - s.tx.cnt, by omega, ?_, ?_⟩
    · simp only [hp, segsAfterPhase, reduceCtorEq, if_false, ticksOf_cons, hafter]
      omega
    · simp only [hp, true_and]
      omega

/-- In the latch all symbols are out, and the time to come is the count. -/
theorem length_levelsAhead_of_latch (hp : s.tx.phase = .latch) : (levelsAhead s).length = s.tx.cnt := by
  rw [levelsAhead, length_levels, segsAhead, segsAfterPhase, hp]
  rfl

/-- No SHOW has more to come than its whole length. -/
theorem length_levelsAhead_le (hpar : Params.InRange s.params) (h : TxConsistent s) : (levelsAhead s).length ≤ s.showTicks := by
  cases hp : s.tx.phase with
  | idle => simp [levelsAhead, segsAhead, hp, levels]
  | high => obtain ⟨e, -, hlen, -⟩ := length_levelsAhead_of_bit hpar h (.inl hp); omega
  | low => obtain ⟨e, -, hlen, -⟩ := length_levelsAhead_of_bit hpar h (.inr hp); omega
  | latch =>
    obtain ⟨-, -, hcnt⟩ := h.latching hp
    rw [length_levelsAhead_of_latch hp, State.showTicks]
    omega

/-- In the middle of a bit, a SHOW of which `k` ticks are over has, after the next one, as many symbols out as that time
holds. -/
theorem bitsAfter_eq_of_bit (hpar : Params.InRange s.params) (h : TxConsistent s)
    (hp : s.tx.phase = .high ∨ s.tx.phase = .low) (hk : (levelsAhead s).length + k = s.showTicks) :
    bitsAfter s = min ((k + 1) / bitTicks s.timing) (s.regs.n * s.regs.bpw) := by
  have hpos := bitTicks_pos (timing_positive hpar)
  obtain ⟨e, he, hlen, hlast⟩ := length_levelsAhead_of_bit hpar h hp
  have hlt := h.sentBits_lt hp
  rw [show k + 1 = e + 1 + sentBits s * bitTicks s.timing by omega, Nat.add_mul_div_right _ _ hpos, bitsAfter]
  split_ifs with hc
  · rw [hlast.2 hc, Nat.div_self hpos]
    omega
  · have hne := mt hlast.1 hc
    rw [Nat.div_eq_of_lt (by omega)]
    omega

/-- The same at every tick of the SHOW: in the latch all symbols of the frame are out, however long it is. -/
theorem bitsAfter_eq (hpar : Params.InRange s.params) (h : TxConsistent s) (hp : s.tx.phase ≠ .idle)
    (hk : (levelsAhead s).length + k = s.showTicks) :
    bitsAfter s = min ((k + 1) / bitTicks s.timing) (s.regs.n * s.regs.bpw) := by
  cases hph : s.tx.phase with
  | idle => exact absurd hph hp
  | high => exact bitsAfter_eq_of_bit hpar h (.inl hph) hk
  | low => exact bitsAfter_eq_of_bit hpar h (.inr hph) hk
  | latch =>
    obtain ⟨-, -, hcnt⟩ := h.latching hph
    have hshow : s.showTicks = s.regs.n * s.regs.bpw * bitTicks s.timing + s.regs.rdly.toNat := rfl
    rw [length_levelsAhead_of_latch hph, hshow] at hk
    have hall : s.regs.n * s.regs.bpw ≤ (k + 1) / bitTicks s.timing :=
      (Nat.le_div_iff_mul_le (bitTicks_pos (timing_positive hpar))).2 (by omega)
    rw [Nat.min_eq_right hall]
    simp [bitsAfter, sentBits, hph]

/-- `u` is the tick machine in the middle of a SHOW of `s`, `k` ticks after its acceptance, armed with a report at tick `fail`. -/
structure Running (s : State) (fail : Option Nat) (k : Nat) (u : State) : Prop where
  same : SameBlock s u
  tx : TxConsistent u
  phase : u.tx.phase ≠ .idle
  armed : u.tx.fail = fail.map (· - k)
  ahead : levelsAhead u = (levels s.showSegs).drop k
  traces : u.eraseTx = (s.emit (s.frame.take (sentBits u))).eraseTx

theorem length_levels_showSegs (s : State) : (levels s.showSegs).length = s.showTicks := by
  rw [length_levels, ticksOf_showSegs]

theorem Running.length (h : Running s fail k u) : (levelsAhead u).length = s.showTicks - k := by
  rw [h.ahead, List.length_drop, length_levels_showSegs]

/-- A tick before the report reports nothing. -/
theorem Running.not_reported (h : Running s fail k u) (hf : ∀ left, fail = some left → k + 1 < left) :
    ∀ left, u.tx.fail = some left → 1 < left := by
  intro left hl
  rw [h.armed] at hl
  obtain ⟨l, hl', rfl⟩ := Option.map_eq_some_iff.1 hl
  have := hf l hl'
  omega

/-- The line shows the level of the trace of the SHOW. -/
theorem Running.line (h : Running s fail k u) : u.line = levelAt s.showSegs k := by
  have hcons := levelsAhead_eq_cons h.tx h.phase
  rw [h.ahead] at hcons
  rw [levelAt_eq, ← List.head?_drop, hcons]
  rfl

theorem emit_nil (s : State) : s.emit [] = s := by simp [State.emit, segsOf]

theorem emit_emit (s : State) (xs ys : List Symbol) : (s.emit xs).emit ys = s.emit (xs ++ ys) := by
  simp [State.emit, State.timing]

/-- The symbol that the present tick completes is the next one of the frame. -/
theorem Running.traces_completed (h : Running s fail k u) :
    (completed u).eraseTx = (s.emit (s.frame.take (bitsAfter u))).eraseTx := by
  unfold completed bitsAfter
  split_ifs with hc
  · obtain ⟨hidx, hbit, hsr⟩ := h.tx.atBit (.inr hc.1)
    have hnext := frame_getElem?_bitPlace hidx hbit
    rw [h.same.frame, ← hsr] at hnext
    have hplace : sentBits u = bitPlace u.regs.bpw u.tx.idx u.tx.bit := by rw [sentBits, hc.1]
    rw [emitBit, emit_eraseTx_of_eq h.traces, emit_emit, List.take_add_one, hplace, hnext]
    rfl
  · exact h.traces

/-- The SHOW goes on at a tick that neither ends nor fails it. -/
theorem Running.next (h : Running s fail k u) (hpar : Params.InRange s.params) (hk : k + 1 < s.showTicks)
    (hf : ∀ left, fail = some left → k + 1 < left) : Running s fail (k + 1) (tick u) := by
  have htail : (levelsAhead u).tail = (levels s.showSegs).drop (k + 1) := by rw [h.ahead, List.tail_drop]
  cases tick_continues h.tx h.phase (h.not_reported hf) with
  | goesOn phase armed levels sent rest =>
    refine ⟨h.same.trans (tick_same u), tick_consistent (h.same.params ▸ hpar) h.tx, phase, ?_, levels.trans htail, ?_⟩
    · rw [armed]
      simp only [State.setFail_tx, h.armed, Option.map_map]
      rfl
    · rw [rest, sent]
      exact h.traces_completed
  | ends hnil =>
    rw [htail, List.drop_eq_nil_iff, length_levels_showSegs] at hnil
    omega

theorem ticks_succ (k : Nat) (s : State) : ticks (k + 1) s = tick (ticks k s) := ticks_add k 1 s

/-- From the acceptance the SHOW goes on up to its end or its report. -/
theorem Running.after_ticks (h : Running s fail 0 u) (hpar : Params.InRange s.params) (hk : k < s.showTicks)
    (hf : ∀ left, fail = some left → k < left) : Running s fail k (ticks k u) := by
  induction k with
  | zero => exact h
  | succ k ih =>
    rw [ticks_succ]
    exact (ih (by omega) fun left hl => by have := hf left hl; omega).next hpar hk hf

/-- The last tick of a SHOW ends it with the whole frame in the traces (R130). -/
theorem Running.ends (h : Running s fail k u) (hpar : Params.InRange s.params) (hk : k + 1 = s.showTicks)
    (hf : ∀ left, fail = some left → k + 1 < left) : tick u = endSent (s.emit s.frame) := by
  have hlen := h.length
  cases tick_continues h.tx h.phase (h.not_reported hf) with
  | goesOn phase _ levels =>
    have hnext := levelsAhead_eq_cons (tick_consistent (h.same.params ▸ hpar) h.tx) phase
    rw [levels] at hnext
    have htail := List.length_tail (l := levelsAhead u)
    rw [hnext, List.length_cons] at htail
    omega
  | ends _ sent state =>
    have hregs : ((completed u).setFail (u.tx.fail.map (· - 1))).regs = s.regs :=
      (completed_same u).regs.trans h.same.regs
    have hframe : s.frame.take (bitsAfter u) = s.frame :=
      List.take_of_length_le (by rw [sent, length_frame, hregs])
    rw [state]
    exact endSent_of_eraseTx_eq (h.traces_completed.trans (by rw [hframe]))

/-- The report ends a SHOW with the symbols in the traces that the time since its acceptance holds (R136, log 12). -/
theorem Running.reports (h : Running s fail k u) (hpar : Params.InRange s.params) (hk : k < s.showTicks)
    (hf : fail = some (k + 1)) : tick u = endFailed (s.emit (s.frame.take ((k + 1) / bitTicks s.timing))) := by
  have hone : u.tx.fail = some 1 := by rw [h.armed, hf, Option.map_some, Nat.add_sub_cancel_left]
  have hlen : (levelsAhead u).length + k = u.showTicks := by
    rw [h.length, h.same.showTicks]
    omega
  have hsent := bitsAfter_eq (h.same.params ▸ hpar) h.tx h.phase hlen
  rw [h.same.timing, h.same.regs, ← length_frame] at hsent
  rw [tick_of_report h.phase hone le_rfl, List.take_eq_take_min, ← hsent]
  exact endFailed_of_eraseTx_eq h.traces_completed

theorem Configured.bpw_pos (h : Configured s) : 0 < s.regs.bpw := by
  rw [h.bpw_eq]
  split_ifs <;> decide

/-- The acceptance of a SHOW whose failure is not reported at once starts it (R139). -/
theorem acceptShow_running (hi : StateInv s) (hc : s.cfg = true) (hr : s.reportTick s.ioAnswer ≠ some 0) :
    Running s.popIo (s.reportTick s.ioAnswer) 0 (acceptShow s) := by
  have hconf := hi.configured hc
  have hplace : bitPlace s.regs.bpw 0 (s.regs.bpw - 1) = 0 := by simp [bitPlace]
  have htx := acceptShow_consistent hi.params hc hconf
  have hsame := acceptShow_same s
  obtain ⟨_, _, -, h0, -⟩ | ⟨-, e⟩ := acceptShow_cases s
  · exact absurd h0 hr
  rw [e] at htx hsame ⊢
  refine ⟨hsame, htx, nofun, ?_, ?_, ?_⟩
  · cases s.reportTick s.ioAnswer <;> rfl
  · have hbit : s.regs.bpw - 1 < s.regs.bpw := Nat.sub_lt hconf.bpw_pos Nat.one_pos
    refine congrArg levels ((segsAhead_startBit (s := s.popIo.setFail _) hconf.n_pos hbit).trans ?_)
    exact congrArg (fun j => segsOf s.timing (s.frame.drop j ++ _)) hplace
  · have hsent : ∀ f, sentBits (startBit 0 (s.regs.bpw - 1) (Memory.read s.w 0) (s.popIo.setFail f)) = 0 := fun _ => hplace
    rw [hsent, List.take_zero, emit_nil]
    rfl

end Sys2Proof.Machine
end

section
/-! The tick machine against the one-step SHOW (R135, R136, R139, R140). -/

namespace Sys2Proof.Machine

variable {s : State} {m late : Nat}

/-- SHOW in one step ends as the tick machine does, with the whole frame or its first `m` symbols emitted. -/
theorem showSymbols_sent_eq_endSent (h : s.ioAnswer = .sent) : showSymbols s = endSent (s.popIo.emit s.frame) := by
  rw [showSymbols, h]
  rfl

theorem showSymbols_fail_eq_endFailed (h : s.ioAnswer = .fail m late) :
    showSymbols s = endFailed (s.popIo.emit (s.frame.take m)) := by
  rw [showSymbols, h]
  rfl

/-- The one step does not read the grain. -/
theorem showSymbols_with_grain (s : State) (g : Grain) :
    { showSymbols { s with grain := g } with grain := s.grain } = showSymbols s := by
  cases h : s.ioAnswer with
  | sent => rw [showSymbols_sent h, showSymbols_sent (s := { s with grain := g }) h]; rfl
  | fail m late => rw [showSymbols_fail h, showSymbols_fail (s := { s with grain := g }) h]; rfl

/-- The report that the statements speak of: in the ticks of symbol `m + 1`, or, after the last, in those of the latch
(log 12). -/
def ReportInRange (s : State) (m late : Nat) : Prop :=
  (m < s.regs.n * s.regs.bpw ∧ late < bitTicks s.timing) ∨ (m = s.regs.n * s.regs.bpw ∧ late ≤ s.regs.rdly.toNat)

theorem reportTick_fail (s : State) (m late : Nat) : s.reportTick (.fail m late) =
    if m < s.regs.n * s.regs.bpw then some (m * bitTicks s.timing + min late (bitTicks s.timing - 1))
    else some (s.regs.n * s.regs.bpw * bitTicks s.timing + min late s.regs.rdly.toNat) := rfl

/-- The machine is armed with just that tick. -/
theorem reportTick_of_inRange (h : ReportInRange s m late) :
    s.reportTick (.fail m late) = some (m * bitTicks s.timing + late) := by
  rw [reportTick_fail]
  obtain ⟨hm, hl⟩ | ⟨rfl, hl⟩ := h
  · rw [if_pos hm, Nat.min_eq_left (by omega)]
  · rw [if_neg (Nat.lt_irrefl _), Nat.min_eq_left hl]

/-- Every report comes before or at the end of the SHOW. -/
theorem ReportInRange.le_showTicks (h : ReportInRange s m late) : m * bitTicks s.timing + late ≤ s.showTicks := by
  have hshow : s.showTicks = s.regs.n * s.regs.bpw * bitTicks s.timing + s.regs.rdly.toNat := rfl
  rw [hshow]
  obtain ⟨hm, hl⟩ | ⟨rfl, hl⟩ := h
  · have hle := Nat.mul_le_mul_right (bitTicks s.timing) (Nat.succ_le_of_lt hm)
    rw [Nat.succ_mul] at hle
    omega
  · omega

/-- The symbols that are complete at the report are the first `m`. -/
theorem ReportInRange.take_frame (h : ReportInRange s m late) (hpar : Params.InRange s.params) :
    s.frame.take ((m * bitTicks s.timing + late) / bitTicks s.timing) = s.frame.take m := by
  have hpos := bitTicks_pos (timing_positive hpar)
  rw [Nat.add_comm, Nat.add_mul_div_right _ _ hpos]
  obtain ⟨-, hl⟩ | ⟨hm, -⟩ := h
  · rw [Nat.div_eq_of_lt hl, Nat.zero_add]
  · have hall : s.frame.length ≤ m := by rw [length_frame, hm]
    rw [List.take_of_length_le (hall.trans (Nat.le_add_left _ _)), List.take_of_length_le hall]

/-- A SHOW that goes through is at least one tick long. -/
theorem showTicks_pos (hpar : Params.InRange s.params) (hconf : Configured s) : 0 < s.showTicks :=
  Nat.add_pos_left (Nat.mul_pos (Nat.mul_pos hconf.n_pos hconf.bpw_pos) (bitTicks_pos (timing_positive hpar))) _

/-- A SHOW that goes through, at every tick before its end. -/
theorem ticks_of_sent (hi : StateInv s) (hc : s.cfg = true) (hio : s.ioAnswer = .sent) {k : Nat} (hk : k < s.showTicks) :
    Running s.popIo none k (ticks k (acceptShow s)) := by
  have hrep : s.reportTick s.ioAnswer = none := by rw [hio]; rfl
  have hrun := acceptShow_running hi hc (by rw [hrep]; nofun)
  rw [hrep] at hrun
  exact hrun.after_ticks hi.params hk nofun

/-- A SHOW that fails, at every tick before its report. -/
theorem ticks_of_fail (hi : StateInv s) (hc : s.cfg = true) (hio : s.ioAnswer = .fail m late) (hr : ReportInRange s m late)
    {k : Nat} (hk : k < m * bitTicks s.timing + late) :
    Running s.popIo (some (m * bitTicks s.timing + late)) k (ticks k (acceptShow s)) := by
  have hrep : s.reportTick s.ioAnswer = some (m * bitTicks s.timing + late) := by rw [hio, reportTick_of_inRange hr]
  have hrun := acceptShow_running hi hc (by rw [hrep, Ne, Option.some_inj]; omega)
  rw [hrep] at hrun
  refine hrun.after_ticks hi.params (Nat.lt_of_lt_of_le hk hr.le_showTicks) fun left hl => ?_
  rwa [← Option.some_inj.1 hl]

/-- At its end a SHOW that goes through is what the one step makes of it. -/
theorem ticks_showTicks (hi : StateInv s) (hc : s.cfg = true) (hio : s.ioAnswer = .sent) :
    ticks s.showTicks (acceptShow s) = showSymbols s := by
  obtain ⟨k, hk⟩ := Nat.exists_eq_succ_of_ne_zero (showTicks_pos hi.params (hi.configured hc)).ne'
  rw [hk, ticks_succ, (ticks_of_sent hi hc hio (by omega)).ends hi.params hk.symm nofun, showSymbols_sent_eq_endSent hio]
  rfl

/-- At its report a SHOW that fails is what the one step makes of it. -/
theorem ticks_report (hi : StateInv s) (hc : s.cfg = true) (hio : s.ioAnswer = .fail m late) (hr : ReportInRange s m late) :
    ticks (m * bitTicks s.timing + late) (acceptShow s) = showSymbols s := by
  have htake := hr.take_frame hi.params
  have hle := hr.le_showTicks
  rw [showSymbols_fail_eq_endFailed hio, ← htake]
  cases hk : m * bitTicks s.timing + late with
  | zero =>
    have hrep : s.reportTick s.ioAnswer = some 0 := by rw [hio, reportTick_of_inRange hr, hk]
    obtain ⟨_, _, -, -, e⟩ | ⟨hne, -⟩ := acceptShow_cases s
    · rw [Nat.zero_div, List.take_zero, emit_nil, ticks, e]
    · exact absurd hrep hne
  | succ k =>
    have hrun := ticks_of_fail hi hc hio hr (k := k) (by omega)
    rw [hk] at hrun
    rw [ticks_succ, hrun.reports hi.params (by change k < s.showTicks; omega) rfl]
    rfl

/-- Settles O43: the two machines meet at the end of the SHOW (`ticks_showTicks`), and `ticks_of_sent` is busy before it. -/
theorem tickMachineRefinesShow : Obligations.TickMachineRefinesShow := by
  intro s hi hc _ hg hio
  refine ⟨_, _, exec_showFrame_of_tick hc hg, exec_showFrame_of_symbol hc rfl, ?_, fun k hk => ?_⟩
  · rw [ticks_showTicks hi hc hio, ← hg, showSymbols_with_grain]
  · have hrun := ticks_of_sent hi hc hio hk
    exact hrun.tx.busy_of_phase hrun.phase

/-- Settles O44: the two machines meet at the report (`ticks_report`), and `ticks_of_fail` is busy before it. -/
theorem tickMachineRefinesFailedShow : Obligations.TickMachineRefinesFailedShow := by
  intro s m late hi hc _ hg hio hr
  refine ⟨_, _, exec_showFrame_of_tick hc hg, exec_showFrame_of_symbol hc rfl, ?_, fun k hk => ?_⟩
  · exact (ticks_report hi hc hio hr).trans (by rw [← hg, showSymbols_with_grain])
  · have hrun := ticks_of_fail hi hc hio hr hk
    exact hrun.tx.busy_of_phase hrun.phase

/-- Settles O45: in the middle of a SHOW the line is the level of its segments (`Running.line`), and the one step leaves it
low. -/
theorem lineFollowsLevelTrace : Obligations.LineFollowsLevelTrace := by
  intro s a hi hc _ hg he
  obtain rfl : acceptShow s = a := by simpa [exec_showFrame_of_tick hc hg] using he
  refine ⟨fun hio k hk => (ticks_of_sent hi hc hio hk).line, fun m late hio hr =>
    ⟨fun k hk => (ticks_of_fail hi hc hio hr hk).line, ?_⟩⟩
  refine (congrArg State.line (ticks_report hi hc hio hr)).trans ?_
  rw [showSymbols_fail hio]

theorem step_of_busy (hr : s.rst = false) (hb : s.busy = true) : step s = .next (tick s) := by
  simp [step, hr, hb]

/-- Settles O46: a busy step is a tick, and `tick_same` is its frame. -/
theorem busyHoldsCommands : Obligations.BusyHoldsCommands := by
  intro s hr hb
  have hs := tick_same s
  exact ⟨tick s, step_of_busy hr hb, hs.port, hs.w, hs.bright, hs.cfg, hs.regs, hs.params, hs.ioPlan⟩

/-- A tick that leaves the block busy has used up one of the ticks to come: neither a report nor the end leaves it busy. -/
theorem levelsAhead_tick_of_busy (h : TxConsistent s) (hp : s.tx.phase ≠ .idle) (hb : (tick s).busy = true) :
    levelsAhead (tick s) = (levelsAhead s).tail := by
  have hf : ∀ left, s.tx.fail = some left → 1 < left := by
    intro left hl
    by_contra hle
    rw [tick_of_report hp hl (Nat.le_of_not_lt hle)] at hb
    cases hb
  cases tick_continues h hp hf with
  | goesOn _ _ levels => exact levels
  | ends _ _ state =>
    rw [state] at hb
    cases hb

theorem run_of_busy (hr : s.rst = false) (hb : s.busy = true) (k : Nat) :
    Host.Core.run Sys2Proof.core (k + 1) s = Host.Core.run Sys2Proof.core k (tick s) := by
  simp only [Host.Core.run, Sys2Proof.core, step_of_busy hr hb]

/-- A busy block is free after no more steps than it has ticks to come. -/
theorem free_within_levelsAhead (n : Nat) (hi : StateInv s) (hr : s.rst = false) (hb : s.busy = true)
    (hn : (levelsAhead s).length ≤ n) :
    ∃ k t, k ≤ n ∧ Host.Core.run Sys2Proof.core k s = .next t ∧ t.busy = false ∧ t.port = s.port := by
  induction n generalizing s with
  | zero =>
    rw [levelsAhead_eq_cons hi.tx (hi.tx.phase_of_busy hb)] at hn
    cases hn
  | succ n ih =>
    have hs := tick_same s
    cases hb' : (tick s).busy with
    | false => exact ⟨1, tick s, Nat.le_add_left _ _, run_of_busy hr hb 0, hb', hs.port⟩
    | true =>
      have hahead := levelsAhead_tick_of_busy hi.tx (hi.tx.phase_of_busy hb) hb'
      obtain ⟨k, t, hk, hrun, hfree, hport⟩ := ih (hi.of_same hs (tick_consistent hi.params hi.tx)) (hs.rst.trans hr) hb'
        (by rw [hahead, List.length_tail]; omega)
      exact ⟨k + 1, t, Nat.succ_le_succ hk, (run_of_busy hr hb k).trans hrun, hfree, hport.trans hs.port⟩

/-- Settles O47: by `free_within_levelsAhead`, since no SHOW has more to come than its whole length. -/
theorem holdEnds : Obligations.HoldEnds :=
  fun s hi hr hb => free_within_levelsAhead s.showTicks hi hr hb (length_levelsAhead_le hi.params hi.tx)

end Sys2Proof.Machine
end

section
/-! The errors (R160 to R169): one inversion of a command that ends with one, and what a step can be. -/

namespace Sys2Proof.Machine

variable {s t : State} {i : Instr} {e : Status} {ret : Word}

/-- When a command can end with each status (R161 to R164, R166). -/
def RaisesWhen (i : Instr) (s : State) : Status → Prop
  | .ok => True
  | .cmdError => (s.cfg = false ∧ ¬ IsConfig i) ∨ (s.cfg = true ∧ IsConfig i)
  | .configError => s.cfg = false ∧ IsConfig i
  | .indexError => ∃ index : Int, (index < 0 ∨ (s.regs.n : Int) ≤ index) ∧
      ((∃ c4 colour, i = .setpixel c4 index colour) ∨ i = .readword index)
  | .invalidRangeError => (∃ c4 f l colour, i = .setrange c4 f l colour) ∨ (∃ c4 f l a b, i = .lgrad c4 f l a b) ∨
      (∃ c4 rev rbw f l colours, i = .sgrad c4 rev rbw f l colours)
  | .ioError => i = .showFrame ∧ ∃ m late, s.ioAnswer = .fail m late

/-- A command took `s` to `t` and ended with the error `e`: its cause, and what it left (R165). An IoError leaves the block but
for the oracle's answer, every other error all but the response. -/
structure Raised (i : Instr) (s t : State) (e : Status) (ret : Word) : Prop where
  cause : RaisesWhen i s e
  ret_zero : ret = 0#32
  only_responds : e ≠ .ioError → t = s.respond e 0#32
  same_block : e = .ioError → SameBlock s.popIo t

/-- The response that a command adds is determined by the responses given. -/
theorem last_response_inj {out : List Response} {e' : Status} {ret' : Word}
    (h : out ++ [⟨e', ret'⟩] = out ++ [⟨e, ret⟩]) : e' = e ∧ ret' = ret := by
  simpa using h

/-- An error that only responds. -/
theorem Raised.of_respond {e' : Status} (hcause : RaisesWhen i s e') (hio : e' ≠ .ioError)
    (ho : (s.respond e' 0#32).out = s.out ++ [⟨e, ret⟩]) : Raised i s (s.respond e' 0#32) e ret := by
  obtain ⟨rfl, rfl⟩ := last_response_inj ho
  exact ⟨hcause, rfl, fun _ => rfl, fun h => absurd h hio⟩

/-- The error that the collaborator reports to SHOW (R136, R164). -/
theorem Raised.of_fail {m late : Nat} (hio : s.ioAnswer = .fail m late) (hs : SameBlock s.popIo t)
    (hout : t.out = s.out ++ [⟨.ioError, 0#32⟩]) (ho : t.out = s.out ++ [⟨e, ret⟩]) : Raised .showFrame s t e ret := by
  obtain ⟨rfl, rfl⟩ := last_response_inj (hout.symm.trans ho)
  exact ⟨⟨rfl, m, late, hio⟩, rfl, fun h => absurd rfl h, fun _ => hs⟩

/-- A SHOW that the tick machine accepts gives no response, unless the failure is reported at once (log 12). -/
theorem acceptShow_raised (ho : (acceptShow s).out = s.out ++ [⟨e, ret⟩]) : Raised .showFrame s (acceptShow s) e ret := by
  rcases acceptShow_cases s with ⟨m, late, hio, -, he⟩ | ⟨-, he⟩
  · exact .of_fail hio (acceptShow_same s) (congrArg State.out he) ho
  · have hnone : (acceptShow s).out = s.out := by rw [he]; rfl
    simp [hnone] at ho

/-- Every command that ends with an error. -/
theorem Effect.raised (h : Effect i s t) (ho : t.out = s.out ++ [⟨e, ret⟩]) (he : e ≠ .ok) : Raised i s t e ret := by
  cases h with
  | cmdError hcause => exact .of_respond hcause nofun ho
  | configError h0 hi => exact .of_respond ⟨h0, hi⟩ nofun ho
  | indexError _ index hr hi => exact .of_respond ⟨index, (inRange_false_iff s index).1 hr, hi⟩ nofun ho
  | rangeError _ hi => exact .of_respond hi nofun ho
  | shown hi =>
    subst hi
    rcases showSymbols_cases s with ⟨-, hok⟩ | ⟨m, late, hio, hfail⟩
    · exact absurd (last_response_inj (hok.symm.trans ho)).1.symm he
    · exact .of_fail hio (showSymbols_same s) hfail ho
  | accepted hi => exact hi ▸ acceptShow_raised ho
  | brightness | words | read | constructed => exact absurd (last_response_inj (out := s.out) ho).1.symm he

/-- `Effect.raised` for a command run by `exec`. -/
theorem raised_of_exec (h : exec i s = .next t) (ho : t.out = s.out ++ [⟨e, ret⟩]) (he : e ≠ .ok) : Raised i s t e ret :=
  (exec_effect h).raised ho he

/-- Before construction every command but CONFIG is a CmdError (R166). -/
theorem exec_of_unconstructed (hc : s.cfg = false) (hi : ¬ IsConfig i) : exec i s = .next (s.respond .cmdError 0#32) := by
  cases i with
  | config => exact absurd ⟨_, _, _, _, _, rfl⟩ hi
  | _ => exact congrArg Host.Outcome.next (whenConstructed_false hc _)

/-- Settles O10: forwards by `Effect.raised`, backwards by the life-cycle tests; a step on an ill-formed header is O4. -/
theorem cmdErrorExactly : Obligations.CmdErrorExactly := by
  refine ⟨fun i s => ⟨fun h => (raised_of_exec h rfl nofun).cause, ?_⟩, fun s h rest hready hport hill =>
    (illFormedHeaderIsCmdError h rest).2 s hready hport hill⟩
  rintro (⟨hc, hi⟩ | ⟨hc, _, _, _, _, _, rfl⟩)
  · exact exec_of_unconstructed hc hi
  · exact exec_config_of_constructed hc _ _ _ _ _

/-- Settles O11: a CONFIG whose operands pass every test answers OK (`exec_config_of_accepted`), one that fails a test
ConfigError; whoever answers ConfigError is such a CONFIG by `Effect.raised`. -/
theorem configErrorExactly : Obligations.ConfigErrorExactly := by
  refine ⟨fun unset numLeds mode brightness resetDelay s hc =>
    ⟨fun h => ?_, fun h => exec_config_of_rejected hc h _ _ _⟩, fun i s t ret h ho => ?_⟩
  · by_contra hgood
    obtain ⟨hpos, hmax, hmode⟩ : 0 < numLeds ∧ numLeds ≤ s.params.nmax ∧ validMode mode ≠ none := by simpa using hgood
    obtain ⟨m, hm⟩ := Option.ne_none_iff_exists'.1 hmode
    have hok := exec_config_of_accepted hc hpos hmax hm unset brightness resetDelay
    have hout := congrArg State.out (Host.Outcome.next.inj (hok.symm.trans h))
    exact absurd (last_response_inj (out := s.out) hout).1 nofun
  · have hr := raised_of_exec h ho nofun
    obtain ⟨hc, hi⟩ : s.cfg = false ∧ IsConfig i := hr.cause
    exact ⟨hi, hc, by rw [hr.only_responds nofun, State.respond_cfg, hc]⟩

/-- Settles O12: the parts of `Raised`. -/
theorem errorsChangeNothing : Obligations.ErrorsChangeNothing := by
  intro i s t e ret h ho he
  have hr := raised_of_exec h ho he
  refine ⟨hr.ret_zero, fun hio => ?_, fun hio => ?_⟩
  · rw [hr.only_responds hio]
    rfl
  · have hs := hr.same_block hio
    exact ⟨hs.w, hs.bright, hs.cfg, hs.regs⟩

/-- Settles O13: the cause of each error by `Effect.raised`. -/
theorem whoRaisesWhat : Obligations.WhoRaisesWhat := by
  intro i s t e ret h ho
  refine ⟨?_, ?_, ?_⟩ <;> rintro rfl <;> exact (raised_of_exec h ho nofun).cause

/-- Settles O7: of the ways in which a step goes (`step_cases`) only the reset input has a refusal. -/
theorem onlyResetDuringFrameStops : Obligations.OnlyResetDuringFrameStops := by
  intro s
  rcases step_cases s with ⟨hr, h⟩ | ⟨-, -, h⟩ | ⟨-, -, ⟨i, rest, -, h⟩ | ⟨-, rest, -, h⟩ | ⟨-, h⟩⟩
  · cases hb : s.busy with
    | false => exact .inl ⟨_, h.trans (if_neg (by simp [hb]))⟩
    | true => exact .inr ⟨hr, rfl, h.trans (if_pos hb)⟩
  · exact .inl ⟨_, h⟩
  · obtain ⟨t, ht⟩ := exec_next i (s.setPort rest)
    exact .inl ⟨t, h.trans ht⟩
  · exact .inl ⟨_, h⟩
  · exact .inl ⟨s, h⟩

/-- Settles O8: a free block looks at its port, and finds nothing to run. -/
theorem waitsForHost : Obligations.WaitsForHost := by
  rintro s ⟨hr, hb⟩ (hd | hd) <;> simp [step, hr, hb, fetch, hd, waitForHost]

end Sys2Proof.Machine
end

section
/-! Hardware reset (R190). -/

namespace Sys2Proof.Machine

variable {s : State}

/-- The reset input on a block that is not busy (R190). -/
theorem step_reset_of_free (hr : s.rst = true) (hb : s.busy = false) : step s = .next (hardwareReset s) := by
  simp only [step, resetStep, hr, hb, if_true, Bool.false_eq_true, if_false]

/-- The reset input while a frame is going out (R190, U6). -/
theorem step_reset_of_busy (hr : s.rst = true) (hb : s.busy = true) : step s = .refused .resetWhileBusy := by
  simp only [step, resetStep, hr, hb, if_true]

/-- Nothing is constructed after a hardware reset (R190). -/
theorem hardwareReset_cfg (s : State) : (hardwareReset s).cfg = false := rfl

/-- A hardware reset clears its own input and BUSY. -/
theorem hardwareReset_ready (s : State) : (hardwareReset s).Ready := ⟨rfl, rfl⟩

/-- The command on the port of a block that was just reset is what the next step runs (log 9). -/
theorem step_hardwareReset {i : Instr} {rest : List Word} (hd : decode s.port = .done i rest) :
    step (hardwareReset s) = exec i ((hardwareReset s).setPort rest) :=
  step_done (hardwareReset_ready s).1 (hardwareReset_ready s).2 hd

/-- Settles O9: the step is `hardwareReset` or the refusal, and what is not constructed turns every other command away
(`exec_of_unconstructed`). -/
theorem hardwareResetEffect : Obligations.HardwareResetEffect := by
  refine ⟨fun s hr hb => ?_, fun s hr hb => step_reset_of_busy hr hb, rfl, rfl, rfl, rfl, rfl, rfl⟩
  exact ⟨hardwareReset s, step_reset_of_free hr hb, hardwareReset_cfg s, rfl, rfl, rfl, rfl, rfl,
    fun i hi => exec_of_unconstructed (hardwareReset_cfg s) hi⟩

/-- Settles O56: after `hardwareReset` the port is looked at (`step_hardwareReset`), and the CONFIG there passes every test of
R70 (`exec_config_of_accepted`). -/
theorem resetBlockIsReady : Obligations.ResetBlockIsReady := by
  intro s hr hb
  refine ⟨hardwareReset s, step_reset_of_free hr hb, hardwareReset_ready s, rfl, rfl, rfl, rfl, rfl, ?_⟩
  intro unset numLeds mode brightness resetDelay rest m hd hpos hmax hmode
  have hc : ((hardwareReset s).setPort rest).cfg = false := hardwareReset_cfg s
  have hran := exec_config_of_accepted hc hpos hmax hmode unset brightness resetDelay
  exact ⟨_, (step_hardwareReset hd).trans hran, rfl, rfl, rfl, rfl⟩

end Sys2Proof.Machine
end

section
/-! Command words written out in the spec (R51 to R55, V90). -/

namespace Sys2Proof

open Machine

variable {i : Instr} {ws : List Word}

/-- Words that are the encoding of a well-formed command decode to that command, and none is left over. -/
theorem decode_of_encode_eq (hwf : WellFormed i = true) (he : encode i = ws) : decode ws = .done i [] := by
  simpa [he] using decodeOfEncode i [] hwf

/-- Settles O5: each list of words is the encoding of the command that the spec gives for it (`decode_of_encode_eq`). -/
theorem specWordsDecode : Obligations.SpecWordsDecode := by
  refine ⟨?_, ?_, ?_, ?_, ?_, ?_, ?_, ?_, ?_, ?_, ?_⟩ <;> exact decode_of_encode_eq (by decide) (by decide)

end Sys2Proof
end
